-- ==== Sys2Proof/Word.lean ====
section
/-! DEFINITION. The word types of the block, and the two ways a reading step can end. -/

namespace Sys2Proof

/-- One byte of memory, and the bit reader's POOL (10_state.md R31). -/
abbrev Byte := BitVec 8

/-- One register slot (10_state.md R23). -/
abbrev Word := BitVec 64

/-- How a step that reads ends: with a value and the state (or bit source) after it, or raised:
it stopped, and `s` is what it left (in the machine, the state after the error entry of
60_exceptions.md R236; nothing after a `raise` runs, 00_scope.md R11). -/
inductive Res (σ α : Type) where
  | ok (a : α) (s : σ)
  | raised (s : σ)
deriving DecidableEq, Repr

/-- Goes on with the value, unless something was raised (00_scope.md R11). -/
def Res.bind {σ α β : Type} (r : Res σ α) (f : α → σ → Res σ β) : Res σ β :=
  match r with
  | .ok a s => f a s
  | .raised s => .raised s

end Sys2Proof
end

