-- ==== Sys2Proof/Config.lean ====
section
/-! DEFINITION. The parameters the spec leaves open (00_scope.md R6) as plain data, and the free
values of 93_implementation_defined.md as constants without a body. -/

namespace Sys2Proof

/-- What a platform fixes once for all instances. A statement over every state is a statement over
every `Config`; no step changes it. -/
structure Config where
  /-- ADDR_W, the width of a memory address: 17 to 64 (00_scope.md R6, R7; D2). -/
  addrW : Nat
  /-- MAGIC as one big-endian 64-bit value (00_scope.md R6, 20_memory.md R65; D27). -/
  magic : Word
  /-- Where `Accessible` is false (00_scope.md R6, R12; D16): the ranges `lo ≤ a < hi`. -/
  holes : List (Nat × Nat)
deriving DecidableEq, Repr

/-- The bounds 00_scope.md R6 puts on ADDR_W. -/
abbrev Config.Legal (c : Config) : Prop := 17 ≤ c.addrW ∧ c.addrW ≤ 64

/-- DESIGN CHOICE (log 5): the parameters `State.reset` takes. ADDR_W is 32, as in the spec's
examples; MAGIC is the spec's default, which no source confirms (D27); no address is inaccessible. -/
def Config.default : Config := { addrW := 32, magic := 0x4352494C41594C41, holes := [] }

/-- Free (log 8): what the `n`-th draw gives a host read of UNCOMP_SIZE, HB_REL_OFF, BYTES_OUT,
CUR_OFFSET or CUR_POOL while BUSY (10_state.md R37), in the bits the slot uses. -/
opaque Config.freeSlot : Nat → Word

/-- Free (log 9): whether the `n`-th draw lets the host see a byte the running decode may have
written (20_memory.md R74: any subset of the writes so far). -/
opaque Config.freeSeen : Nat → Bool

/-- Free (log 10): how many of its writes a decode cut by reset leaves (70_reset_and_hazards.md R262). -/
opaque Config.freeCut : Nat → Nat

/-- Free (log 3): DIST between tokens (10_state.md R34). -/
opaque Config.freeDist : Nat → BitVec 13

/-- Free (log 3): BR_IDX between tokens (10_state.md R34). -/
opaque Config.freeBrIdx : Nat → Nat

/-- Free (log 3): LEN between tokens (10_state.md R34). -/
opaque Config.freeLen : Nat → Nat

/-- Free (log 3): LVL between tokens (10_state.md R34). -/
opaque Config.freeLvl : Nat → Fin 5

end Sys2Proof
end

