-- ==== Sys2Proof/Syntax.lean ====
section
/-! DEFINITION. What the block decodes: one constructor per row of spec/opcode_table.json, and the
three positions a bit string is decoded at. -/

namespace Sys2Proof

/-- A back-reference is the token `bref`, which reads the distance, and then one length code
(30_encoding.md R98, R99, R108): the code is decoded, with the errors it can raise, only after the
range check of 44_back_copy.md R211 has passed. -/
inductive Instr where
  /-- LIT: the literal byte (30_encoding.md R97, 42_token_decode.md R172). -/
  | lit (v : BitVec 8)
  /-- BREF: the 13-bit distance (30_encoding.md R98, 44_back_copy.md R210). -/
  | bref (d : BitVec 13)
  /-- G2: a length code that ends in its 2-bit group (30_encoding.md R99). -/
  | g2 (g : BitVec 2)
  /-- G3: a length code that ends in its 3-bit group. -/
  | g3 (g : BitVec 3)
  /-- G5: a length code that ends in its 5-bit group. -/
  | g5 (g : BitVec 5)
  /-- G8: a length code that ends in its first 8-bit group. -/
  | g8 (g : BitVec 8)
  /-- TAIL: `k` further groups of all ones before the group that ends the code. -/
  | tail (k : Nat) (g : BitVec 8)
  /-- START: a CTRL write with bit 0 set (30_encoding.md R107). -/
  | start
deriving DecidableEq, Repr

/-- Where a bit string stands (30_encoding.md R90, R108): at the start of a token, after a
distance, or in the host's CTRL word. -/
inductive Position where
  | token
  | length
  | command
deriving DecidableEq, Repr

/-- Why a bit string is not decoded. -/
inductive Reject where
  /-- It ends inside the instruction (in the machine, SOURCE_UNDERFLOW: 30_encoding.md R103). -/
  | outOfBits
  /-- A CTRL word whose bit 0 is 0 is no command (30_encoding.md R107). -/
  | noCommand
deriving DecidableEq, Repr

/-- The position each row of the opcode table is decoded at (30_encoding.md R108). -/
def Instr.position : Instr → Position
  | .lit _ => .token
  | .bref _ => .token
  | .g2 _ => .length
  | .g3 _ => .length
  | .g5 _ => .length
  | .g8 _ => .length
  | .tail _ _ => .length
  | .start => .command

end Sys2Proof
end

