-- ==== Sys2Proof/WellFormed.lean ====
section
/-! DEFINITION. Which instructions have an encoding: the group that ends a length code is never the
all-ones value of its width (30_encoding.md R99, 43_vlc_length.md R191). -/

namespace Sys2Proof

/-- 43_vlc_length.md R191: 3, 7, 31 and 255 continue the cascade, so they end no code. -/
def Instr.wellFormed : Instr → Bool
  | .lit _ => true
  | .bref _ => true
  | .g2 g => g != 3
  | .g3 g => g != 7
  | .g5 g => g != 31
  | .g8 g => g != 255
  | .tail _ g => g != 255
  | .start => true

end Sys2Proof
end

