-- ==== Sys2Proof/Decode.lean ====
section
/-! DEFINITION. Bits and bytes (00_scope.md R9, R10), the decoder, which is total on any bits and
rejects by name, and after it the encoder (30_encoding.md R97 to R102, R107). -/

namespace Sys2Proof

/-- 00_scope.md R9: `BE(s)`, the natural a bit string spells, first bit most significant. -/
def beNat (bits : List Bool) : Nat := bits.foldl (fun acc b => 2 * acc + b.toNat) 0

/-- `v` as a bit string of `w` bits, first bit most significant (00_scope.md R9). -/
def bitsOf (w v : Nat) : List Bool := (List.range w).map fun i => v.testBit (w - 1 - i)

/-- A word's low `n` bits, bit 0 first: the numbering of spec/opcode_table.json. -/
def tableBits (n w : Nat) : List Bool := (List.range n).map w.testBit

/-- The word whose bit k is the k-th of the list. -/
def wordOfBits : List Bool → Nat
  | [] => 0
  | b :: rest => b.toNat + 2 * wordOfBits rest

/-- 00_scope.md R10: LE32. -/
def le32 (b0 b1 b2 b3 : Byte) : Nat :=
  b0.toNat + 2 ^ 8 * b1.toNat + 2 ^ 16 * b2.toNat + 2 ^ 24 * b3.toNat

/-- 00_scope.md R10: BE64 of eight bytes; of any number of bytes, the first most significant. -/
def beBytes (bytes : List Byte) : Nat := bytes.foldl (fun acc b => 2 ^ 8 * acc + b.toNat) 0

/-! ## The decoder -/

/-- What answers a request for the next n bits, first bit most significant (00_scope.md R13). The
decoder below is written over any such source: a list of bits, or the machine's bit reader. -/
abbrev BitSource (σ : Type) := Nat → σ → Res σ Nat

/-- 42_token_decode.md R170, R171: one flag bit selects LIT, then 8 bits (R172), or BREF, then 13
bits (44_back_copy.md R210). -/
def decodeToken {σ : Type} (read : BitSource σ) (s : σ) : Res σ Instr :=
  (read 1 s).bind fun f s =>
    if f = 0 then (read 8 s).bind fun v s => .ok (.lit (BitVec.ofNat 8 v)) s
    else (read 13 s).bind fun d s => .ok (.bref (BitVec.ofNat 13 d)) s

/-- 43_vlc_length.md R190, R192: the tail, 8-bit groups until one is not 255; `k` of them were 255.
`note` hears each group (LEN and LVL in the machine). The fuel never runs out (log 1). -/
def decodeTail {σ : Type} (read : BitSource σ) (note : Fin 5 → Nat → σ → σ) :
    Nat → Nat → σ → Res σ Instr
  | 0, _, s => .raised s
  | fuel + 1, k, s => (read 8 s).bind fun v s =>
      if v = 255 then decodeTail read note fuel (k + 1) (note 4 v s)
      else .ok (.tail k (BitVec.ofNat 8 v)) (note 4 v s)

/-- 43_vlc_length.md R190: groups of 2, 3, 5 and 8 bits, then the tail. The first group that is not
all ones ends the code (R191). -/
def decodeLength {σ : Type} (read : BitSource σ) (note : Fin 5 → Nat → σ → σ) (fuel : Nat)
    (s : σ) : Res σ Instr :=
  (read 2 s).bind fun v s =>
  if v ≠ 3 then .ok (.g2 (BitVec.ofNat 2 v)) (note 1 v s) else
  (read 3 (note 1 v s)).bind fun v s =>
  if v ≠ 7 then .ok (.g3 (BitVec.ofNat 3 v)) (note 2 v s) else
  (read 5 (note 2 v s)).bind fun v s =>
  if v ≠ 31 then .ok (.g5 (BitVec.ofNat 5 v)) (note 3 v s) else
  (read 8 (note 3 v s)).bind fun v s =>
  if v ≠ 255 then .ok (.g8 (BitVec.ofNat 8 v)) (note 4 v s) else
  decodeTail read note fuel 0 (note 4 v s)

/-- 30_encoding.md R107: a CTRL word is the command START when bit 0 is 1; bits 63:1 are ignored. -/
def decodeCommand (v : Word) : Option Instr := if v.getLsbD 0 then some .start else none

/-- A list of bits as a source. -/
def listBits : BitSource (List Bool) := fun n bits =>
  if bits.length < n then .raised bits else .ok (beNat (bits.take n)) (bits.drop n)

/-- The instruction a result holds, with the bits after it. -/
def Res.decoded (r : Res (List Bool) Instr) : Except Reject (Instr × List Bool) :=
  match r with
  | .ok i rest => .ok (i, rest)
  | .raised _ => .error .outOfBits

/-- Decoding at a position: the instruction and the bits after it, or why there is none. Token and
length-code bits are in stream order (30_encoding.md R95); a command's are bit 0 first. -/
def decodeAt : Position → List Bool → Except Reject (Instr × List Bool)
  | .token, bits => (decodeToken listBits bits).decoded
  | .length, bits => (decodeLength listBits (fun _ _ b => b) bits.length bits).decoded
  | .command, bits =>
    if bits.length < 64 then .error .outOfBits
    else match decodeCommand (BitVec.ofNat 64 (wordOfBits (bits.take 64))) with
      | some i => .ok (i, bits.drop 64)
      | none => .error .noCommand

/-! ## The encoder -/

/-- A string of `n` ones. -/
def ones (n : Nat) : List Bool := List.replicate n true

/-- 30_encoding.md R97 to R99 in stream order; START (R107) bit 0 first, its ignored bits 0. -/
def encode : Instr → List Bool
  | .lit v => false :: bitsOf 8 v.toNat
  | .bref d => true :: bitsOf 13 d.toNat
  | .g2 g => bitsOf 2 g.toNat
  | .g3 g => ones 2 ++ bitsOf 3 g.toNat
  | .g5 g => ones 2 ++ ones 3 ++ bitsOf 5 g.toNat
  | .g8 g => ones 2 ++ ones 3 ++ ones 5 ++ bitsOf 8 g.toNat
  | .tail k g => ones 2 ++ ones 3 ++ ones 5 ++ ones 8 ++ ones (8 * k) ++ bitsOf 8 g.toNat
  | .start => true :: List.replicate 63 false

/-- The width the opcode table gives a row, in bits (30_encoding.md R97 to R99; BREF without its
length code). -/
def Instr.width : Instr → Nat
  | .lit _ => 9
  | .bref _ => 14
  | .g2 _ => 2
  | .g3 _ => 5
  | .g5 _ => 10
  | .g8 _ => 18
  | .tail k _ => 26 + 8 * k
  | .start => 64

/-- The tail loop of 30_encoding.md R102: `while x ≥ 255`, at most `fuel` times. -/
def encTail : Nat → Nat → List Bool
  | 0, x => bitsOf 8 x
  | fuel + 1, x => if 255 ≤ x then ones 8 ++ encTail fuel (x - 255) else bitsOf 8 x

/-- The cascade of 30_encoding.md R102 over the widths still to come. -/
def encCascade : List Nat → Nat → List Bool
  | [], x => encTail x x
  | w :: ws, x =>
    if x < 2 ^ w - 1 then bitsOf w x else ones w ++ encCascade ws (x - (2 ^ w - 1))

/-- 30_encoding.md R102: `enc(n)`, the one length code of `n ≥ 3`. -/
def encLength (n : Nat) : List Bool := encCascade [2, 3, 5, 8] (n - 3)

/-! ## Words as the hardware stores them -/

/-- A stream's bits cut into `n` bytes, each most significant bit first, short groups filled with
zeros (30_encoding.md R106). The first byte is the one read first: it stands at the highest address. -/
def packBytes : Nat → List Bool → List Byte
  | 0, _ => []
  | n + 1, bits =>
    BitVec.ofNat 8 (beNat ((bits ++ List.replicate 8 false).take 8)) :: packBytes n (bits.drop 8)

/-- The bits of the stream such bytes give (30_encoding.md R95). -/
def unpackBytes (bytes : List Byte) : List Bool := bytes.flatMap fun b => bitsOf 8 b.toNat

/-- DESIGN CHOICE (log 14): the position a word of spec/opcode_table.json is meant for. Rows of 64
bits are CTRL words. The rows of length codes are known by the bits the table gives them: G3 and G5
by their leading ones and their width, G8 and TAIL by a width no token row has. All else is a token. -/
def tablePosition (nbits w : Nat) : Position :=
  if nbits = 64 then .command
  else if 16 < nbits then .length
  else if nbits = 8 ∧ w % 4 = 3 then .length
  else if nbits = 16 ∧ w % 32 = 31 ∧ w < 2 ^ 10 then .length
  else .token

/-- The bytes a table word stands for in the payload, first-read byte first, with zero bits after
it; enough of them to end any length code that starts in the word. -/
def tableBytes (nbits w : Nat) : List Byte := packBytes (nbits / 8 + 5) (tableBits nbits w)

/-- The instruction the decoder reads from a table word. -/
def decodeTableWord (nbits w : Nat) : Option Instr :=
  let bits := match tablePosition nbits w with
    | .command => tableBits nbits w
    | _ => unpackBytes (tableBytes nbits w)
  match decodeAt (tablePosition nbits w) bits with
  | .ok (i, _) => some i
  | .error _ => none

end Sys2Proof
end

