-- ==== Sys2Proof/Machine/State.lean ====
section
/-! DEFINITION. The state of the machine as plain data: everything spec/10_state.md gives one
instance (`Block`), the other instances, memory, and the host events still to come. -/

namespace Sys2Proof.Machine

/-- Memory as a list of (address, byte) pairs: addresses rising, no entry 0x00 (log 4). -/
abbrev Memory := List Host.Cell

/-- The sub-phases of BUSY (10_state.md R22). `hdr i` is about to copy header byte i (R151). `bref`
has a distance and waits for its length code. LIT is never at rest (log 1). -/
inductive Sub where
  | pre
  | sig
  | sizes
  | frame
  | alloc
  | hdr (i : Fin 256)
  | init
  | token
  | bref
  | copy
deriving DecidableEq, Repr

/-- PHASE (10_state.md R22). -/
inductive Phase where
  | idle
  | busy (sub : Sub)
  | done
  | error
deriving DecidableEq, Repr

/-- What ERR_CODE can hold (60_exceptions.md R230); the reserved codes 10 to 15 are never reported. -/
inductive ErrCode where
  | noError
  | badSignature
  | framingMismatch
  | allocationFailure
  | sourceReadFailure
  | sourceUnderflow
  | backrefOutOfRange
  | outputOverrun
  | outputAliasesSource
  | outputAccessFailure
deriving DecidableEq, Repr

/-- The BitCursor (10_state.md R30, R31). -/
structure Cursor where
  /-- OFFSET: the address of the next byte to fetch. -/
  offset : Word
  /-- POOL: the last byte fetched. -/
  pool : Byte
  /-- BITS_LEFT: how many of POOL's low bits are not yet consumed. -/
  bitsLeft : Fin 9
deriving DecidableEq, Repr

/-- The latches the host cannot see (10_state.md R34). -/
structure Latches where
  /-- DIST, 13 bits. -/
  dist : BitVec 13
  /-- BR_IDX, an output index. -/
  brIdx : Nat
  /-- LEN, unbounded (43_vlc_length.md R195). -/
  len : Nat
  /-- LVL, 0 to 4. -/
  lvl : Fin 5
deriving DecidableEq, Repr

/-- One instance of the block (10_state.md R22 to R42). -/
structure Block where
  /-- REG_BASE, where the platform puts the register block (10_state.md R23, R42); no step changes it. -/
  regBase : Nat
  /-- PHASE (R22); STATUS is a view of it (R25). -/
  phase : Phase
  /-- ERR_CODE (R26). -/
  errCode : ErrCode
  /-- ERR_INFO (R27). -/
  errInfo : Word
  /-- SRC_BASE, S (R28). -/
  srcBase : Word
  /-- SEG_LEN, L (R28). -/
  segLen : Word
  /-- DST_BASE (R28). -/
  dstBase : Word
  /-- DST_CAP (R28). -/
  dstCap : Word
  /-- UNCOMP_SIZE, us (R29). -/
  uncompSize : BitVec 32
  /-- HB_REL_OFF, hb (R29). -/
  hbRelOff : BitVec 32
  /-- BYTES_OUT (R33). -/
  bytesOut : BitVec 32
  /-- CUR_OFFSET and CUR_POOL (R30, R31). -/
  cursor : Cursor
  /-- DIST, BR_IDX, LEN, LVL (R34). -/
  latches : Latches
  /-- The model's own: memory as it stood at the accepted START (log 9, log 10). -/
  before : Memory
deriving DecidableEq, Repr

/-- What happens next outside the block's own steps (log 7). -/
inductive HostEvent where
  /-- The selected instance takes one turn of its own. -/
  | turn
  /-- The host writes `v` to the slot at platform address `addr`. -/
  | regWrite (addr : Nat) (v : Word)
  /-- The host reads the slot at platform address `addr`. -/
  | regRead (addr : Nat)
  /-- The host, or another agent, writes a byte of memory. -/
  | memWrite (a : Nat) (v : Byte)
  /-- The host, or another agent, reads a byte of memory. -/
  | memRead (a : Nat)
  /-- The platform asserts the selected instance's reset. -/
  | reset
  /-- The turns and resets after this one are about the `k`-th parked instance. Register accesses go
  by their address, whichever instance is selected (10_state.md R42). -/
  | select (k : Nat)
deriving DecidableEq, Repr

/-- The whole machine. -/
structure State where
  /-- The parameters (00_scope.md R6); no step changes them. -/
  cfg : Config
  /-- The selected instance. -/
  blk : Block
  /-- The other instances (10_state.md R42, 60_exceptions.md R245). -/
  parked : List Block
  /-- The memory space (10_state.md R39). -/
  mem : Memory
  /-- The model's own: the schedule of events to come, next first (log 7). -/
  inbox : List HostEvent
  /-- The model's own: what the host's last read returned (log 7). -/
  hostData : Word
  /-- The model's own: how many free values were drawn (log 3). -/
  draws : Nat
deriving DecidableEq, Repr

/-- Why the machine stops with a fault. No instruction raises one: the spec's errors are next states. -/
inductive Fault where
  /-- Raised by the host event `memRead` or `memWrite` at an address of 2^ADDR_W or above, which
  20_memory.md R60 says does not exist (log 16). Safe: nothing goes on from it. -/
  | noSuchAddress
deriving DecidableEq, Repr

/-- Why there is no meaning to go on with. -/
inductive Refusal where
  /-- Raised by an arm of `exec` whose instruction has no meaning yet. Safe. -/
  | notModelled (mnemonic : String)
  /-- Raised by a host move that 20_memory.md R77, R80 or 70_reset_and_hazards.md R265 denies the
  host (93_implementation_defined.md row 20: `refuse`; log 11): a memory write into a running
  decode's segment or output region, or a START whose regions clash with another instance's running
  decode. Safe, for a system that keeps the host duties. -/
  | hostDuty
  /-- Raised by a host register access that is not a whole slot of any instance, which
  10_state.md R23 gives no meaning (log 13). Safe. -/
  | notASlot
deriving DecidableEq, Repr

/-- Reset values of 10_state.md R41. The latches' values are unspecified there: DESIGN CHOICE 0
(log 2). -/
def Block.reset : Block :=
  { regBase := 0
    phase := .idle
    errCode := .noError
    errInfo := 0
    srcBase := 0
    segLen := 0
    dstBase := 0
    dstCap := 0
    uncompSize := 0
    hbRelOff := 0
    bytesOut := 0
    cursor := { offset := 0, pool := 0, bitsLeft := 0 }
    latches := { dist := 0, brIdx := 0, len := 0, lvl := 0 }
    before := [] }

/-- The machine right after power-on reset: 10_state.md R41, with the parameters of log 5, one
instance (log 12), no memory listed (log 4) and no event to come (log 7). -/
def State.reset : State :=
  { cfg := Config.default
    blk := Block.reset
    parked := []
    mem := []
    inbox := []
    hostData := 0
    draws := 0 }

end Sys2Proof.Machine
end

