-- ==== Sys2Proof/Machine/Flags.lean ====
section
/-! DEFINITION. The block's only flags, the STATUS bits (10_state.md R25, R38), and the numbers of
the error codes (60_exceptions.md R230, R232). -/

namespace Sys2Proof.Machine

/-- A decode is running (10_state.md R22). -/
def Phase.isBusy : Phase → Bool
  | .idle => false
  | .busy _ => true
  | .done => false
  | .error => false

/-- STATUS bit 0 (10_state.md R25). -/
def Phase.busyFlag (p : Phase) : Bool := p.isBusy

/-- STATUS bit 1 (10_state.md R25). -/
def Phase.doneFlag : Phase → Bool
  | .idle => false
  | .busy _ => false
  | .done => true
  | .error => false

/-- STATUS bit 2 (10_state.md R25). -/
def Phase.errFlag : Phase → Bool
  | .idle => false
  | .busy _ => false
  | .done => false
  | .error => true

/-- STATUS (10_state.md R25): BUSY, DONE, ERR in bits 0 to 2, the rest 0. -/
def Phase.status (p : Phase) : Word :=
  BitVec.ofNat 64 (p.busyFlag.toNat + 2 * p.doneFlag.toNat + 4 * p.errFlag.toNat)

/-- The code of an error (60_exceptions.md R230). -/
def ErrCode.code : ErrCode → BitVec 4
  | .noError => 0
  | .badSignature => 1
  | .framingMismatch => 2
  | .allocationFailure => 3
  | .sourceReadFailure => 4
  | .sourceUnderflow => 5
  | .backrefOutOfRange => 6
  | .outputOverrun => 7
  | .outputAliasesSource => 8
  | .outputAccessFailure => 9

/-- The source's four error kinds (60_exceptions.md R232). -/
inductive DecodeError where
  | badSignature
  | framingMismatch
  | allocationFailure
  | sourceReadFailure
deriving DecidableEq, Repr

/-- The kind a code maps to (60_exceptions.md R232). -/
def ErrCode.kind : ErrCode → Option DecodeError
  | .noError => none
  | .badSignature => some .badSignature
  | .framingMismatch => some .framingMismatch
  | .allocationFailure => some .allocationFailure
  | .sourceReadFailure => some .sourceReadFailure
  | .sourceUnderflow => some .framingMismatch
  | .backrefOutOfRange => some .sourceReadFailure
  | .outputOverrun => some .sourceReadFailure
  | .outputAliasesSource => some .allocationFailure
  | .outputAccessFailure => some .allocationFailure

end Sys2Proof.Machine
end

