-- ==== Sys2Proof/Machine/Operands.lean ====
section
/-! DEFINITION. The quantities the rules compute from the registers, exact naturals throughout
(00_scope.md R8, R16), and the operands of the tokens (30_encoding.md R101). -/

namespace Sys2Proof.Machine

/-- S (00_scope.md R16). -/
def Block.segStart (b : Block) : Nat := b.srcBase.toNat

/-- L (00_scope.md R16). -/
def Block.segSize (b : Block) : Nat := b.segLen.toNat

/-- us (00_scope.md R16), as latched in UNCOMP_SIZE. -/
def Block.us (b : Block) : Nat := b.uncompSize.toNat

/-- hb (00_scope.md R16), as latched in HB_REL_OFF. -/
def Block.hb (b : Block) : Nat := b.hbRelOff.toNat

/-- The bytes of the output buffer, 0x100 + us (20_memory.md R63). -/
def Block.outSize (b : Block) : Nat := 0x100 + b.us

/-- The first payload byte, S + 16 (20_memory.md R62). -/
def Block.payloadStart (b : Block) : Nat := b.segStart + 16

/-- The payload end E = S + 16 + hb - 1 (00_scope.md R16). -/
def Block.payloadEnd (b : Block) : Nat := b.segStart + 16 + b.hb - 1

/-- The address of header byte i, S + 16 + hb + i (20_memory.md R62). -/
def Block.headerAddr (b : Block) (i : Nat) : Nat := b.segStart + 16 + b.hb + i

/-- TOP = 0x100 + us - 1 (00_scope.md R16). -/
def Block.top (b : Block) : Nat := 0x100 + b.us - 1

/-- dst = TOP - BYTES_OUT (10_state.md R33). -/
def Block.dst (b : Block) : Nat := b.top - b.bytesOut.toNat

/-- The address of Out[i], DST_BASE + i (00_scope.md R11). -/
def Block.outAddr (b : Block) (i : Nat) : Nat := b.dstBase.toNat + i

/-- BR_IDX = dst + DIST + 3 (30_encoding.md R101, 44_back_copy.md R210). -/
def Block.brIdxOf (b : Block) (d : BitVec 13) : Nat := b.dst + d.toNat + 3

/-- us - BYTES_OUT, the payload bytes still to come (44_back_copy.md R212). -/
def Block.remaining (b : Block) : Nat := b.us - b.bytesOut.toNat

/-- The bits of the stream not yet consumed: those of the bytes from S + 16 to OFFSET, and BITS_LEFT
of POOL (10_state.md R32, 30_encoding.md R95). -/
def Block.bitsRemaining (b : Block) : Nat :=
  8 * (b.cursor.offset.toNat + 1 - b.payloadStart) + b.cursor.bitsLeft.val

/-- The bits consumed so far, P = 8 · (E - OFFSET) - BITS_LEFT (10_state.md R32). -/
def Block.bitsConsumed (b : Block) : Nat :=
  8 * (b.payloadEnd - b.cursor.offset.toNat) - b.cursor.bitsLeft.val

/-- 43_vlc_length.md R193, end level 1. -/
def lenG2 (g : BitVec 2) : Nat := 3 + g.toNat

/-- 43_vlc_length.md R193, end level 2. -/
def lenG3 (g : BitVec 3) : Nat := 6 + g.toNat

/-- 43_vlc_length.md R193, end level 3. -/
def lenG5 (g : BitVec 5) : Nat := 13 + g.toNat

/-- 43_vlc_length.md R193, end level 4. -/
def lenG8 (g : BitVec 8) : Nat := 44 + g.toNat

/-- 43_vlc_length.md R193, end level 5. -/
def lenTail (k : Nat) (g : BitVec 8) : Nat := 299 + 255 * k + g.toNat

/-- The length a length code gives (43_vlc_length.md R193); the other instructions give none. -/
def codeLength : Instr → Option Nat
  | .lit _ => none
  | .bref _ => none
  | .g2 g => some (lenG2 g)
  | .g3 g => some (lenG3 g)
  | .g5 g => some (lenG5 g)
  | .g8 g => some (lenG8 g)
  | .tail k g => some (lenTail k g)
  | .start => none

/-- LVL when a length code has been read: each of the four cascade groups adds 1, tail groups do not
(43_vlc_length.md R190). -/
def codeLevel : Instr → Fin 5
  | .lit _ => 0
  | .bref _ => 0
  | .g2 _ => 1
  | .g3 _ => 2
  | .g5 _ => 3
  | .g8 _ => 4
  | .tail _ _ => 4
  | .start => 0

end Sys2Proof.Machine
end

