-- ==== Sys2Proof/Machine/Ops.lean ====
section
/-! DEFINITION. The operations every meaning is written over: memory, the updates of single
registers, error entry and its way out, and the end of a token. -/

namespace Sys2Proof.Machine

/-! ## Memory as a list -/

/-- DESIGN CHOICE (log 4): what an address nothing has written reads as. -/
def unlisted : Byte := 0

/-- The byte at an address. -/
def Memory.read : Memory → Nat → Byte
  | [], _ => unlisted
  | (a, b) :: m, x => if x = a then b else Memory.read m x

/-- Stores a byte, keeping the addresses rising and no entry equal to `unlisted`. -/
def Memory.write : Memory → Nat → Byte → Memory
  | [], x, v => if v = unlisted then [] else [(x, v)]
  | (a, b) :: m, x, v =>
    if x < a then (if v = unlisted then (a, b) :: m else (x, v) :: (a, b) :: m)
    else if x = a then (if v = unlisted then m else (x, v) :: m)
    else (a, b) :: Memory.write m x v

/-- The canonical form: addresses rising, no entry equal to what an unlisted address reads as. -/
abbrev Memory.wf (m : Memory) : Prop :=
  m.Pairwise (fun c d => c.1 < d.1) ∧ ∀ c ∈ m, c.2 ≠ unlisted

/-- Writes bytes at `a`, `a - 1`, … downward. -/
def Memory.writeDown : Memory → Nat → List Byte → Memory
  | m, _, [] => m
  | m, a, v :: vs => Memory.writeDown (m.write a v) (a - 1) vs

/-! ## Updates of single registers -/

/-- Replaces the selected instance's state. -/
def State.setBlk (s : State) (b : Block) : State := { s with blk := b }

/-- PHASE <- p (10_state.md R22). -/
def State.setPhase (s : State) (p : Phase) : State := s.setBlk { s.blk with phase := p }

/-- The bit cursor; only 41_segment_framing.md R152 and 40_bit_reader.md R120 write it. -/
def State.setCursor (s : State) (c : Cursor) : State := s.setBlk { s.blk with cursor := c }

/-- The latches of 10_state.md R34. -/
def State.setLatches (s : State) (l : Latches) : State := s.setBlk { s.blk with latches := l }

/-- UNCOMP_SIZE and HB_REL_OFF (10_state.md R29). -/
def State.setSizes (s : State) (us hb : BitVec 32) : State :=
  s.setBlk { s.blk with uncompSize := us, hbRelOff := hb }

/-- BYTES_OUT (10_state.md R33). -/
def State.setBytesOut (s : State) (n : BitVec 32) : State := s.setBlk { s.blk with bytesOut := n }

/-- Memory (10_state.md R39). -/
def State.setMem (s : State) (m : Memory) : State := { s with mem := m }

/-! ## Error entry and the memory port -/

/-- Error entry, 60_exceptions.md R236: the code, the information modulo 2^64 and PHASE = ERROR.
Every other register keeps its value, the latches too (log 15). The way out of ERROR is an
accepted START or a reset (R239): there is no return command. -/
def raise (e : ErrCode) (info : Nat) (s : State) : State :=
  s.setBlk { s.blk with errCode := e, errInfo := BitVec.ofNat 64 info, phase := .error }

/-- Accessible(a) (00_scope.md R12; D16; log 6): inside the address space and in no hole. -/
def accessible (c : Config) (a : Nat) : Bool :=
  decide (a < 2 ^ c.addrW) && c.holes.all fun h => !(decide (h.1 ≤ a) && decide (a < h.2))

/-- SrcRead(a) (00_scope.md R12): a bus error raises SOURCE_READ_FAILURE(a). -/
def srcRead (a : Nat) (s : State) : Res State Byte :=
  if accessible s.cfg a then .ok (s.mem.read a) s else .raised (raise .sourceReadFailure a s)

/-- `n` source bytes from `a` up, in ascending order (41_segment_framing.md R145, R146). -/
def srcReads : Nat → Nat → State → Res State (List Byte)
  | 0, _, s => .ok [] s
  | n + 1, a, s => (srcRead a s).bind fun b s => (srcReads n (a + 1) s).bind fun bs s => .ok (b :: bs) s

/-- OutRead(i) (00_scope.md R12): a bus error raises OUTPUT_ACCESS_FAILURE(DST_BASE + i). -/
def outRead (i : Nat) (s : State) : Res State Byte :=
  if accessible s.cfg (s.blk.outAddr i) then .ok (s.mem.read (s.blk.outAddr i)) s
  else .raised (raise .outputAccessFailure (s.blk.outAddr i) s)

/-- OutWrite(i, v) (00_scope.md R12): a bus error raises OUTPUT_ACCESS_FAILURE(DST_BASE + i) and
stores nothing. -/
def outWrite (i : Nat) (v : Byte) (s : State) : Res State Unit :=
  if accessible s.cfg (s.blk.outAddr i) then .ok () (s.setMem (s.mem.write (s.blk.outAddr i) v))
  else .raised (raise .outputAccessFailure (s.blk.outAddr i) s)

/-! ## Tokens -/

/-- Fresh free values in the latches, whose values between tokens are unspecified (10_state.md R34;
log 3). -/
def forgetLatches (s : State) : State :=
  { s with
    blk := { s.blk with
      latches :=
        { dist := Config.freeDist s.draws
          brIdx := Config.freeBrIdx s.draws
          len := Config.freeLen s.draws
          lvl := Config.freeLvl s.draws } }
    draws := s.draws + 1 }

/-- Back to the head of the token loop (42_token_decode.md R170). -/
def endToken (s : State) : State := forgetLatches (s.setPhase (.busy .token))

/-- The state a step that may raise leaves: an error entry is a next state (60_exceptions.md R236). -/
def finalState (r : Res State Unit) : State :=
  match r with
  | .ok _ s => s
  | .raised s => s

end Sys2Proof.Machine
end

