-- ==== Sys2Proof/Machine/Command.lean ====
section
/-! DEFINITION. The host command START (41_segment_framing.md R140, R141), and the host duties it
and the host's memory writes are held to (20_memory.md R77, R80). -/

namespace Sys2Proof.Machine

/-- A decode of this instance is running. -/
def Block.isBusy (b : Block) : Bool := b.phase.isBusy

/-- us as 00_scope.md R16 defines it, the u32 at segment offset 8, whether or not SIZES has run. It
means something where the segment holds that field (`hasSizeField`). -/
def declaredUs (m : Memory) (b : Block) : Nat :=
  le32 (m.read (b.segStart + 8)) (m.read (b.segStart + 9)) (m.read (b.segStart + 10))
    (m.read (b.segStart + 11))

/-- `a` lies in the segment [S, S + L) (20_memory.md R77). -/
def inSegment (b : Block) (a : Nat) : Bool :=
  decide (b.segStart ≤ a) && decide (a < b.segStart + b.segSize)

/-- The segment holds the us field, segment bytes 8 to 11, at addresses that exist. -/
def hasSizeField (c : Config) (b : Block) : Bool :=
  decide (12 ≤ b.segSize) && decide (b.segStart + 12 ≤ 2 ^ c.addrW)

/-- How many bytes the output region of 20_memory.md R77 has: 0x100 + us. DESIGN CHOICE (log 18): a
segment without a us field has an empty output region. The spec gives such a decode none; PRE raises
before any access (41_segment_framing.md R143, R144), so it never writes. -/
def declaredOutSize (s : State) (b : Block) : Nat :=
  if hasSizeField s.cfg b then 0x100 + declaredUs s.mem b else 0

/-- `a` lies in the output region [DST_BASE, DST_BASE + 0x100 + us) (20_memory.md R77; log 18). -/
def inOutput (s : State) (b : Block) (a : Nat) : Bool :=
  decide (b.dstBase.toNat ≤ a) && decide (a < b.dstBase.toNat + declaredOutSize s b)

/-- Two ranges (first address, size) share an address. -/
def overlap (p q : Nat × Nat) : Bool :=
  decide (p.1 < q.1 + q.2) && decide (q.1 < p.1 + p.2) && decide (0 < p.2) && decide (0 < q.2)

/-- The segment as a range. -/
def segmentRange (b : Block) : Nat × Nat := (b.segStart, b.segSize)

/-- The output region as a range. -/
def outputRange (s : State) (b : Block) : Nat × Nat := (b.dstBase.toNat, declaredOutSize s b)

/-- Two decodes at the same time break the duty of 20_memory.md R80: their output regions overlap,
or one's output region overlaps the other's segment. Overlapping segments do not. -/
def regionsClash (s : State) (b c : Block) : Bool :=
  overlap (outputRange s b) (outputRange s c) || overlap (outputRange s b) (segmentRange c) ||
    overlap (segmentRange b) (outputRange s c)

/-- Starting the selected instance now would break the duty of 20_memory.md R80 (log 11). -/
def startClashes (s : State) : Bool :=
  s.parked.any fun c => c.isBusy && regionsClash s s.blk c

/-- The registers an accepted START writes (41_segment_framing.md R140); `before` is the model's
own. The latches are free until the first token (10_state.md R34; log 3): nothing a failed token left
in them stays. -/
def acceptStart (s : State) : State :=
  forgetLatches <| s.setBlk { s.blk with
    errCode := .noError
    errInfo := 0
    uncompSize := 0
    hbRelOff := 0
    bytesOut := 0
    cursor := { offset := 0, pool := 0, bitsLeft := 0 }
    phase := .busy .pre
    before := s.mem }

/-- START: accepted in IDLE, DONE and ERROR (41_segment_framing.md R140), ignored while BUSY
(R141), and refused where it would break a host duty (93_implementation_defined.md row 20). -/
def execStart (s : State) : Host.Outcome State Fault Refusal :=
  if s.blk.isBusy then .next s
  else if startClashes s then .refused .hostDuty
  else .next (acceptStart s)

end Sys2Proof.Machine
end

