-- ==== Sys2Proof/Machine/BitReader.lean ====
section
/-! DEFINITION. The bit reader, 40_bit_reader.md R120. -/

namespace Sys2Proof.Machine

/-- The fetch of 40_bit_reader.md R120, made only when BITS_LEFT = 0 (R122): the underflow test
comes first (R123), then the read (R124). -/
def fillPool (s : State) : Res State Unit :=
  if s.blk.cursor.bitsLeft = 0 then
    if s.blk.cursor.offset.toNat < s.blk.payloadStart then
      .raised (raise .sourceUnderflow s.blk.cursor.offset.toNat s)
    else
      (srcRead s.blk.cursor.offset.toNat s).bind fun b s =>
        .ok () (s.setCursor { offset := s.blk.cursor.offset - 1, pool := b, bitsLeft := 8 })
  else .ok () s

/-- BITS_LEFT <- BITS_LEFT - take (40_bit_reader.md R120). -/
def Cursor.drop (c : Cursor) (take : Nat) : Cursor :=
  { c with bitsLeft := ⟨c.bitsLeft.val - take, by have := c.bitsLeft.isLt; omega⟩ }

/-- The bits of POOL that a request takes: (POOL >> (BITS_LEFT - take)) & (2^take - 1). -/
def Cursor.taken (c : Cursor) (take : Nat) : Nat :=
  (c.pool.toNat >>> (c.bitsLeft.val - take)) &&& (2 ^ take - 1)

/-- The loop of 40_bit_reader.md R120 with `need` bits to go. Each pass takes at least one bit, so a
fuel of `need` is enough. -/
def readBitsLoop : Nat → Nat → Nat → State → Res State Nat
  | 0, _, acc, s => .ok acc s
  | fuel + 1, need, acc, s =>
    if need = 0 then .ok acc s
    else (fillPool s).bind fun _ s =>
      let take := min s.blk.cursor.bitsLeft.val need
      readBitsLoop fuel (need - take) ((acc <<< take) ||| s.blk.cursor.taken take)
        (s.setCursor (s.blk.cursor.drop take))

/-- READ_BITS(n), 40_bit_reader.md R120. DESIGN CHOICE (log 17): it answers the requests n = 0 and
n > 16 too, by the same loop; R121 says that no rule issues one and lets a model refuse them. -/
def readBits (n : Nat) (s : State) : Res State Nat := readBitsLoop n n 0 s

end Sys2Proof.Machine
end

