-- ==== Sys2Proof/Machine/LengthCodes.lean ====
section
/-! DEFINITION. The meanings of the length codes, 43_vlc_length.md R190 and R193, each with the
overrun check of 44_back_copy.md R212, and COPY (R213). -/

namespace Sys2Proof.Machine

/-- LEN and LVL at the end of LENGTH_DECODE (43_vlc_length.md R190), then the overrun check: when
LEN > us - BYTES_OUT, OUTPUT_OVERRUN with min(LEN, 2^64 - 1), before any byte of the copy is
written (44_back_copy.md R212). Otherwise COPY. -/
def lengthDone (len : Nat) (lvl : Fin 5) (s : State) : State :=
  let t := s.setLatches { s.blk.latches with len := len, lvl := lvl }
  if t.blk.remaining < len then raise .outputOverrun (min len (2 ^ 64 - 1)) t
  else t.setPhase (.busy .copy)

/-- G2, 43_vlc_length.md R193: LEN = 3 + g. -/
def execG2 (g : BitVec 2) (s : State) : Host.Outcome State Fault Refusal :=
  .next (lengthDone (lenG2 g) 1 s)

/-- G3, 43_vlc_length.md R193: LEN = 6 + g. -/
def execG3 (g : BitVec 3) (s : State) : Host.Outcome State Fault Refusal :=
  .next (lengthDone (lenG3 g) 2 s)

/-- G5, 43_vlc_length.md R193: LEN = 13 + g. -/
def execG5 (g : BitVec 5) (s : State) : Host.Outcome State Fault Refusal :=
  .next (lengthDone (lenG5 g) 3 s)

/-- G8, 43_vlc_length.md R193: LEN = 44 + g. -/
def execG8 (g : BitVec 8) (s : State) : Host.Outcome State Fault Refusal :=
  .next (lengthDone (lenG8 g) 4 s)

/-- TAIL, 43_vlc_length.md R193: LEN = 299 + 255·k + g. -/
def execTail (k : Nat) (g : BitVec 8) (s : State) : Host.Outcome State Fault Refusal :=
  .next (lengthDone (lenTail k g) 4 s)

/-- BR_IDX - 1, BYTES_OUT + 1 and LEN - 1 (44_back_copy.md R213). -/
def advanceCopy (s : State) : State :=
  (s.setLatches { s.blk.latches with brIdx := s.blk.latches.brIdx - 1, len := s.blk.latches.len - 1 }
    ).setBytesOut (s.blk.bytesOut + 1)

/-- COPY, one pass of the loop of 44_back_copy.md R213: one read, one write, then the counters.
When LEN reaches 0 the token ends. -/
def copyStep (s : State) : State :=
  if s.blk.latches.len = 0 then endToken s
  else finalState <| (outRead s.blk.latches.brIdx s).bind fun v s =>
    (outWrite s.blk.dst v s).bind fun _ s =>
      let t := advanceCopy s
      .ok () (if t.blk.latches.len = 0 then endToken t else t)

end Sys2Proof.Machine
end

