-- ==== Sys2Proof/Machine/Tokens.lean ====
section
/-! DEFINITION. The meanings of the two tokens, LIT (42_token_decode.md R172) and BREF
(44_back_copy.md R210), given the fields the decoder read. -/

namespace Sys2Proof.Machine

/-- BYTES_OUT <- BYTES_OUT + 1. -/
def countByte (s : State) : State := s.setBytesOut (s.blk.bytesOut + 1)

/-- LIT, 42_token_decode.md R172: Out[TOP - BYTES_OUT] <- v, then BYTES_OUT + 1, then the next
token. A write bus error leaves BYTES_OUT as it was. -/
def execLit (v : BitVec 8) (s : State) : Host.Outcome State Fault Refusal :=
  .next (finalState ((outWrite s.blk.dst v s).bind fun _ s => .ok () (endToken (countByte s))))

/-- BREF, 44_back_copy.md R210 up to the length code: DIST and BR_IDX, then the range check (R211).
When it passes, the length code is next. -/
def execBref (d : BitVec 13) (s : State) : Host.Outcome State Fault Refusal :=
  let t := s.setLatches { s.blk.latches with dist := d, brIdx := s.blk.brIdxOf d }
  if t.blk.top < t.blk.latches.brIdx then
    .next (raise .backrefOutOfRange t.blk.latches.brIdx t)
  else .next (t.setPhase (.busy .bref))

end Sys2Proof.Machine
end

