-- ==== Sys2Proof/Machine/Dispatch.lean ====
section
/-! DEFINITION. One arm per constructor of Instr. -/

namespace Sys2Proof.Machine

def exec (i : Instr) (s : State) : Host.Outcome State Fault Refusal :=
  match i with
  | .lit v => Sys2Proof.Machine.execLit v s
  | .bref d => Sys2Proof.Machine.execBref d s
  | .g2 g => Sys2Proof.Machine.execG2 g s
  | .g3 g => Sys2Proof.Machine.execG3 g s
  | .g5 g => Sys2Proof.Machine.execG5 g s
  | .g8 g => Sys2Proof.Machine.execG8 g s
  | .tail k g => Sys2Proof.Machine.execTail k g s
  | .start => Sys2Proof.Machine.execStart s

end Sys2Proof.Machine
end

