-- ==== Sys2Proof/Machine/FrontEnd.lean ====
section
/-! DEFINITION. The front end, one definition per step of 41_segment_framing.md R142, and DONE. -/

namespace Sys2Proof.Machine

/-- PRE, 41_segment_framing.md R143 and then R144. -/
def stepPre (s : State) : State :=
  if s.blk.segSize < 16 then raise .framingMismatch 0 s
  else if 2 ^ s.cfg.addrW < s.blk.segStart + s.blk.segSize then
    raise .sourceReadFailure ((s.blk.segStart + s.blk.segSize) % 2 ^ 64) s
  else s.setPhase (.busy .sig)

/-- The two accepted signatures (30_encoding.md R92). -/
def signatureAccepted (c : Config) (sig : Nat) : Bool := sig == c.magic.toNat || sig == 0

/-- SIG, 41_segment_framing.md R145: all eight bytes are read before the compare. -/
def stepSig (s : State) : State :=
  finalState <| (srcReads 8 s.blk.segStart s).bind fun bytes s =>
    if signatureAccepted s.cfg (beBytes bytes) then .ok () (s.setPhase (.busy .sizes))
    else .raised (raise .badSignature (beBytes bytes) s)

/-- SIZES, 41_segment_framing.md R146: both registers are written after all eight bytes are read. -/
def stepSizes (s : State) : State :=
  finalState <| (srcReads 4 (s.blk.segStart + 8) s).bind fun f s =>
    (srcReads 4 (s.blk.segStart + 12) s).bind fun g s =>
      .ok () ((s.setSizes (BitVec.ofNat 32 (le32 (f.getD 0 0) (f.getD 1 0) (f.getD 2 0) (f.getD 3 0)))
        (BitVec.ofNat 32 (le32 (g.getD 0 0) (g.getD 1 0) (g.getD 2 0) (g.getD 3 0)))).setPhase
          (.busy .frame))

/-- FRAME, 41_segment_framing.md R147, exact integers. -/
def stepFrame (s : State) : State :=
  if 16 + s.blk.hb + 0x100 ≠ s.blk.segSize then raise .framingMismatch s.blk.hb s
  else s.setPhase (.busy .alloc)

/-- ALLOC: capacity (41_segment_framing.md R148), then range (R149), then aliasing (R150). -/
def stepAlloc (s : State) : State :=
  if s.blk.dstCap.toNat < s.blk.outSize then raise .allocationFailure s.blk.outSize s
  else if 2 ^ s.cfg.addrW < s.blk.dstBase.toNat + s.blk.outSize then
    raise .allocationFailure s.blk.outSize s
  else if s.blk.dstBase.toNat < s.blk.segStart + s.blk.segSize ∧
      s.blk.segStart < s.blk.dstBase.toNat + s.blk.outSize then
    raise .outputAliasesSource s.blk.dstBase.toNat s
  else s.setPhase (.busy (.hdr 0))

/-- The sub-phase after header byte i. -/
def afterHdr (i : Fin 256) : Sub := if i = 255 then .init else .hdr (i + 1)

/-- HDR, one pass of the loop of 41_segment_framing.md R151: read i, then write i. -/
def stepHdr (i : Fin 256) (s : State) : State :=
  finalState <| (srcRead (s.blk.headerAddr i.val) s).bind fun v s =>
    (outWrite i.val v s).bind fun _ s => .ok () (s.setPhase (.busy (afterHdr i)))

/-- INIT, 41_segment_framing.md R152. -/
def stepInit (s : State) : State :=
  ((s.setCursor { offset := BitVec.ofNat 64 s.blk.payloadEnd, pool := 0, bitsLeft := 0 }).setBytesOut
    0).setPhase (.busy .token)

/-- DONE, 41_segment_framing.md R153. -/
def complete (s : State) : State := s.setPhase .done

end Sys2Proof.Machine
end

