-- ==== Sys2Proof/Machine/Fetch.lean ====
section
/-! DEFINITION. Fetching a token or a length code with the bit reader, and one turn of the block. -/

namespace Sys2Proof.Machine

/-- A length-code group in the latches: LEN <- LEN + v, and the cascade level after it
(43_vlc_length.md R190). -/
def noteGroup (lvl : Fin 5) (v : Nat) (s : State) : State :=
  s.setLatches { s.blk.latches with len := s.blk.latches.len + v, lvl := lvl }

/-- LEN <- 3 and LVL <- 0 (43_vlc_length.md R190). -/
def initLength (s : State) : State :=
  s.setLatches { s.blk.latches with len := 3, lvl := 0 }

/-- The flag and the operand field of a token, read with READ_BITS (42_token_decode.md R170 to
R172, 44_back_copy.md R210). -/
def fetchToken (s : State) : Res State Instr := decodeToken readBits s

/-- A length code, read with READ_BITS (43_vlc_length.md R190). Every tail group consumes 8 bits, so
a fuel of the bits that are left is enough. -/
def fetchLength (s : State) : Res State Instr :=
  decodeLength readBits noteGroup s.blk.bitsRemaining (initLength s)

/-- Runs what was fetched; a raise while fetching is an error entry (60_exceptions.md R236). -/
def runFetched (r : Res State Instr) : Host.Outcome State Fault Refusal :=
  match r with
  | .ok i s => exec i s
  | .raised s => .next s

/-- The head of the token loop, 42_token_decode.md R170: DONE, or one token. -/
def tokenTurn (s : State) : Host.Outcome State Fault Refusal :=
  if s.blk.bytesOut.toNat < s.blk.us then runFetched (fetchToken s) else .next (complete s)

/-- One turn of the selected instance: the step its PHASE names (10_state.md R22,
41_segment_framing.md R142). IDLE, DONE and ERROR hold their state (60_exceptions.md R247). -/
def blockTurn (s : State) : Host.Outcome State Fault Refusal :=
  match s.blk.phase with
  | .idle => .next s
  | .done => .next s
  | .error => .next s
  | .busy .pre => .next (stepPre s)
  | .busy .sig => .next (stepSig s)
  | .busy .sizes => .next (stepSizes s)
  | .busy .frame => .next (stepFrame s)
  | .busy .alloc => .next (stepAlloc s)
  | .busy (.hdr i) => .next (stepHdr i s)
  | .busy .init => .next (stepInit s)
  | .busy .token => tokenTurn s
  | .busy .bref => runFetched (fetchLength s)
  | .busy .copy => .next (copyStep s)

/-- `n` turns of the selected instance. -/
def turns : Nat → State → Host.Outcome State Fault Refusal
  | 0, s => .next s
  | n + 1, s => match blockTurn s with
    | .next t => turns n t
    | .fault r => .fault r
    | .refused r => .refused r

end Sys2Proof.Machine
end

