-- ==== Sys2Proof/Machine/HostPort.lean ====
section
/-! DEFINITION. What the host and the platform do: register slots (10_state.md R23 to R37), memory
(20_memory.md R74, R77), reset (70_reset_and_hazards.md R260 to R262), and the choice of instance. -/

namespace Sys2Proof.Machine

/-- The slots of 10_state.md R23. -/
inductive Slot where
  | ctrl
  | status
  | errCode
  | errInfo
  | srcBase
  | segLen
  | dstBase
  | dstCap
  | uncompSize
  | hbRelOff
  | bytesOut
  | curOffset
  | curPool
  | reserved
deriving DecidableEq, Repr

/-- The slot with a number, offset 8 · number (10_state.md R23). -/
def slotNumber : Nat → Slot
  | 0 => .ctrl
  | 1 => .status
  | 2 => .errCode
  | 3 => .errInfo
  | 4 => .srcBase
  | 5 => .segLen
  | 6 => .dstBase
  | 7 => .dstCap
  | 8 => .uncompSize
  | 9 => .hbRelOff
  | 10 => .bytesOut
  | 11 => .curOffset
  | 12 => .curPool
  | _ => .reserved

/-- The slot at a platform address: whole slots only, from REG_BASE up (10_state.md R23; log 13). -/
def slotAt (b : Block) (addr : Nat) : Option Slot :=
  if addr < b.regBase ∨ (addr - b.regBase) % 8 ≠ 0 then none
  else some (slotNumber ((addr - b.regBase) / 8))

/-- Bits [w-1:0] of a slot's value, the others 0. -/
def lowBits (w : Nat) (v : Word) : Word := BitVec.ofNat 64 (v.toNat % 2 ^ w)

/-- Bits [ADDR_W-1:0] of a written value; the rest is ignored (10_state.md R28). -/
def addrBits (c : Config) (v : Word) : Word := lowBits c.addrW v

/-- How many bits of a slot are used, from bit 0 up (10_state.md R23). The others are reserved: they
read 0 and ignore writes (R35). -/
def usedBits (c : Config) : Slot → Nat
  | .ctrl => 1
  | .status => 3
  | .errCode => 4
  | .errInfo => 64
  | .srcBase => c.addrW
  | .segLen => 64
  | .dstBase => c.addrW
  | .dstCap => 64
  | .uncompSize => 32
  | .hbRelOff => 32
  | .bytesOut => 32
  | .curOffset => c.addrW
  | .curPool => 12
  | .reserved => 0

/-- A configuration write takes effect unless BUSY (10_state.md R36). -/
def configWrite (b : Block) (s : State) : State := if s.blk.isBusy then s else s.setBlk b

/-- A host write of a slot (10_state.md R24, R28, R35, R36). Read-only and reserved slots ignore it. -/
def writeSlot (slot : Slot) (v : Word) (s : State) : Host.Outcome State Fault Refusal :=
  match slot with
  | .ctrl => match decodeCommand v with
    | some i => exec i s
    | none => .next s
  | .srcBase => .next (configWrite { s.blk with srcBase := addrBits s.cfg v } s)
  | .segLen => .next (configWrite { s.blk with segLen := v } s)
  | .dstBase => .next (configWrite { s.blk with dstBase := addrBits s.cfg v } s)
  | .dstCap => .next (configWrite { s.blk with dstCap := v } s)
  | .status => .next s
  | .errCode => .next s
  | .errInfo => .next s
  | .uncompSize => .next s
  | .hbRelOff => .next s
  | .bytesOut => .next s
  | .curOffset => .next s
  | .curPool => .next s
  | .reserved => .next s

/-- CUR_POOL: POOL in bits 7:0 and BITS_LEFT in bits 11:8 (10_state.md R31). -/
def curPoolWord (c : Cursor) : Word := BitVec.ofNat 64 (c.pool.toNat + 2 ^ 8 * c.bitsLeft.val)

/-- What a slot holds (10_state.md R23 to R33). CTRL and reserved slots read 0. -/
def slotValue (b : Block) : Slot → Word
  | .ctrl => 0
  | .status => b.phase.status
  | .errCode => b.errCode.code.setWidth 64
  | .errInfo => b.errInfo
  | .srcBase => b.srcBase
  | .segLen => b.segLen
  | .dstBase => b.dstBase
  | .dstCap => b.dstCap
  | .uncompSize => b.uncompSize.setWidth 64
  | .hbRelOff => b.hbRelOff.setWidth 64
  | .bytesOut => b.bytesOut.setWidth 64
  | .curOffset => b.cursor.offset
  | .curPool => curPoolWord b.cursor
  | .reserved => 0

/-- The five slots whose value is unspecified while BUSY (10_state.md R37). -/
def isResultSlot : Slot → Bool
  | .uncompSize => true
  | .hbRelOff => true
  | .bytesOut => true
  | .curOffset => true
  | .curPool => true
  | .ctrl => false
  | .status => false
  | .errCode => false
  | .errInfo => false
  | .srcBase => false
  | .segLen => false
  | .dstBase => false
  | .dstCap => false
  | .reserved => false

/-- A host read of a slot. It has no side effect on the block (10_state.md R35); a result slot read
while BUSY gives a free value in its used bits (R37; log 8) and 0 in its reserved ones (R35). -/
def readSlot (slot : Slot) (s : State) : State :=
  if s.blk.isBusy && isResultSlot slot then
    { s with
      hostData := lowBits (usedBits s.cfg slot) (Config.freeSlot s.draws)
      draws := s.draws + 1 }
  else { s with hostData := slotValue s.blk slot }

/-- The instances, the selected one first. -/
def State.instances (s : State) : List Block := s.blk :: s.parked

/-! ## Which instance a register access reaches -/

/-- Selects the `k`-th parked instance; with no such instance nothing changes (log 12). -/
def selectInstance (k : Nat) (s : State) : State :=
  match s.parked[k]? with
  | some b => { s with blk := b, parked := s.parked.set k s.blk }
  | none => s

/-- A platform address among the named slots of an instance's register block, 0x00 to 0x67 above its
REG_BASE (10_state.md R23). -/
def Block.holdsAddr (b : Block) (addr : Nat) : Bool :=
  decide (b.regBase ≤ addr) && decide (addr < b.regBase + 0x68)

/-- The parked instance a register access reaches, or none for the selected one: the instance whose
named slots hold the address (10_state.md R42: each has its own REG_BASE); where none does, one for
which it is a reserved slot. DESIGN CHOICE (log 12): where register blocks overlap, the selected
instance comes first, then the parked ones in their order. -/
def reached (addr : Nat) (s : State) : Option Nat :=
  if s.blk.holdsAddr addr then none
  else match s.parked.findIdx? fun b => b.holdsAddr addr with
    | some k => some k
    | none =>
      if (slotAt s.blk addr).isSome then none
      else s.parked.findIdx? fun b => (slotAt b addr).isSome

/-- What `f` does to the `k`-th parked instance; the selected one stays selected. -/
def onInstance (k : Nat) (f : State → Host.Outcome State Fault Refusal) (s : State) :
    Host.Outcome State Fault Refusal :=
  match f (selectInstance k s) with
  | .next t => .next (selectInstance k t)
  | .fault r => .fault r
  | .refused r => .refused r

/-- An access to a slot of the selected instance; an address that is no whole slot is refused. -/
def slotAccess (addr : Nat) (f : Slot → State → Host.Outcome State Fault Refusal) (s : State) :
    Host.Outcome State Fault Refusal :=
  match slotAt s.blk addr with
  | some slot => f slot s
  | none => .refused .notASlot

/-- A register access, at the instance it reaches. -/
def regAccess (addr : Nat) (f : Slot → State → Host.Outcome State Fault Refusal) (s : State) :
    Host.Outcome State Fault Refusal :=
  match reached addr s with
  | none => slotAccess addr f s
  | some k => onInstance k (slotAccess addr f) s

/-! ## Memory accesses of the host -/

/-- A memory write by the host or another agent (20_memory.md R77; log 11, log 16). -/
def hostMemWrite (a : Nat) (v : Byte) (s : State) : Host.Outcome State Fault Refusal :=
  if 2 ^ s.cfg.addrW ≤ a then .fault .noSuchAddress
  else if s.instances.any fun b => b.isBusy && (inSegment b a || inOutput s b a) then
    .refused .hostDuty
  else .next (s.setMem (s.mem.write a v))

/-- A memory read by the host or another agent. In the output region of a running decode it sees
any subset of the writes so far: the byte as it is, or as it was before the decode, by a free
choice (20_memory.md R74; log 9). Elsewhere it sees the byte. -/
def hostMemRead (a : Nat) (s : State) : Host.Outcome State Fault Refusal :=
  if 2 ^ s.cfg.addrW ≤ a then .fault .noSuchAddress
  else match s.instances.find? fun b => b.isBusy && inOutput s b a with
    | some b =>
      .next { s with
        hostData := (if Config.freeSeen s.draws then s.mem.read a else b.before.read a).setWidth 64
        draws := s.draws + 1 }
    | none => .next { s with hostData := (s.mem.read a).setWidth 64 }

/-! ## Reset -/

/-- How many of its output writes a decode has made (20_memory.md R71: the header's, then the
payload's). -/
def writesMade (b : Block) : Nat :=
  match b.phase with
  | .busy (.hdr i) => i.val
  | .busy .init => 0x100
  | .busy .token => 0x100 + b.bytesOut.toNat
  | .busy .bref => 0x100 + b.bytesOut.toNat
  | .busy .copy => 0x100 + b.bytesOut.toNat
  | .busy .pre => 0
  | .busy .sig => 0
  | .busy .sizes => 0
  | .busy .frame => 0
  | .busy .alloc => 0
  | .idle => 0
  | .done => 0x100 + b.bytesOut.toNat
  | .error => 0

/-- The output index of a decode's k-th write: Out[0 .. 0x100) ascending, then Out[TOP] downward
(20_memory.md R71, 42_token_decode.md R173). -/
def writeIndex (b : Block) (k : Nat) : Nat := if k < 0x100 then k else b.top - (k - 0x100)

/-- Memory with the last `n` of the `w` writes made so far undone: their addresses hold again what
they held before the decode. -/
def undoWrites (b : Block) (m : Memory) (w : Nat) : Nat → Memory
  | 0 => m
  | n + 1 =>
    let a := b.outAddr (writeIndex b (w - (n + 1)))
    (undoWrites b m w n).write a (b.before.read a)

/-- The selected instance's turns until it has made `target` writes or its decode has ended. -/
def runWrites : Nat → Nat → State → State
  | 0, _, s => s
  | fuel + 1, target, s =>
    if s.blk.isBusy && decide (writesMade s.blk < target) then
      match blockTurn s with
      | .next t => runWrites fuel target t
      | .fault _ => s
      | .refused _ => s
    else s

/-- What a reset leaves in memory (70_reset_and_hazards.md R261, R262; log 10): everything, unless
BUSY; then the first `m` of the writes the decode would make, whether fewer or more than it has
made so far. At most 5 turns pass before the first write and 4 from one write to the next. -/
def memAfterReset (m : Nat) (s : State) : Memory :=
  if s.blk.isBusy then
    if m ≤ writesMade s.blk then
      undoWrites s.blk s.mem (writesMade s.blk) (writesMade s.blk - m)
    else (runWrites (4 * (m - writesMade s.blk) + 16) m s).mem
  else s.mem

/-- Reset of the selected instance (70_reset_and_hazards.md R261, R262): the registers of
10_state.md R41, memory as `memAfterReset` says with a free m, the latches unspecified. -/
def resetInstance (s : State) : State :=
  forgetLatches
    { s with
      blk := { Block.reset with regBase := s.blk.regBase }
      mem := memAfterReset (Config.freeCut s.draws) s }

/-- One event of the schedule (log 7). -/
def hostEvent (e : HostEvent) (s : State) : Host.Outcome State Fault Refusal :=
  match e with
  | .turn => blockTurn s
  | .regWrite addr v => regAccess addr (fun slot => writeSlot slot v) s
  | .regRead addr => regAccess addr (fun slot t => .next (readSlot slot t)) s
  | .memWrite a v => hostMemWrite a v s
  | .memRead a => hostMemRead a s
  | .reset => .next (resetInstance s)
  | .select k => .next (selectInstance k s)

/-! ## Placing an instruction -/

/-- The state whose next turn fetches the bytes as a token or a length code: they lie from
S + 16 up, the first-read byte highest, with an empty pool and the cursor on it (log 14). A token
is only fetched while BYTES_OUT < us (42_token_decode.md R170), so us is raised where it is not. -/
def placeStream (bytes : List Byte) (sub : Sub) (s : State) : State :=
  let last := s.blk.payloadStart + bytes.length - 1
  { s with
    blk := { s.blk with
      phase := .busy sub
      uncompSize := if s.blk.bytesOut.toNat < s.blk.us then s.blk.uncompSize else s.blk.bytesOut + 1
      cursor := { offset := BitVec.ofNat 64 last, pool := 0, bitsLeft := 0 } }
    mem := s.mem.writeDown last bytes
    inbox := [] }

end Sys2Proof.Machine
end

