-- ==== Sys2Proof/Machine/Step.lean ====
section
/-! DEFINITION. One step of the machine. -/

namespace Sys2Proof.Machine

/-- The next event of the schedule happens; with none, the selected instance takes a turn (log 7). -/
def step (s : State) : Host.Outcome State Fault Refusal :=
  match s.inbox with
  | [] => blockTurn s
  | e :: rest => hostEvent e { s with inbox := rest }

/-- `s` with a word of spec/opcode_table.json placed so that the very next step runs it (log 14). -/
def State.withFetchWord (s : State) (nbits w : Nat) : State :=
  match tablePosition nbits w with
  | .command => { s with inbox := [.regWrite s.blk.regBase (BitVec.ofNat 64 w)] }
  | .token => placeStream (tableBytes nbits w) .token s
  | .length => placeStream (tableBytes nbits w) .bref s

end Sys2Proof.Machine
end

