-- ==== Sys2Proof/Machine/Stream.lean ====
section
/-! DEFINITION. The bit stream of a segment as 30_encoding.md R95 defines it, and what it means that
the bit cursor stands in it (10_state.md R32). No step uses these; statements do. -/

namespace Sys2Proof.Machine

/-- B_k = M(E - floor(k/8))[7 - (k mod 8)] (30_encoding.md R95). -/
def streamBit (s : State) (k : Nat) : Bool :=
  (s.mem.read (s.blk.payloadEnd - k / 8)).getLsbD (7 - k % 8)

/-- B_p .. B_(p+n-1) (30_encoding.md R95). -/
def streamBits (s : State) (p n : Nat) : List Bool :=
  (List.range n).map fun j => streamBit s (p + j)

/-- The bits of the stream, 8·hb of them (30_encoding.md R95), that are not yet consumed. -/
def unreadBits (s : State) : List Bool :=
  streamBits s s.blk.bitsConsumed (8 * s.blk.hb - s.blk.bitsConsumed)

/-- 10_state.md R32 and 40_bit_reader.md R123: OFFSET lies between S + 15 and E, and no more bits
are left in POOL than were fetched. -/
structure CursorInRange (b : Block) : Prop where
  /-- OFFSET only goes down from E, and no fetch is made below S + 16. -/
  above : b.segStart + 15 ≤ b.cursor.offset.toNat
  below : b.cursor.offset.toNat ≤ b.payloadEnd
  /-- P = 8 · (E - OFFSET) - BITS_LEFT is no truncated difference. -/
  fetched : b.cursor.bitsLeft.val ≤ 8 * (b.payloadEnd - b.cursor.offset.toNat)

/-- 10_state.md R32: the cursor is in range and, once a byte was fetched, POOL is the byte at
OFFSET + 1. -/
structure CursorOnStream (s : State) : Prop where
  inRange : CursorInRange s.blk
  pool : s.blk.cursor.offset.toNat < s.blk.payloadEnd →
    s.blk.cursor.pool = s.mem.read (s.blk.cursor.offset.toNat + 1)

/-- Every payload byte is `Accessible` (00_scope.md R12, 70_reset_and_hazards.md R264). -/
def PayloadAccessible (s : State) : Prop :=
  ∀ a, s.blk.payloadStart ≤ a → a ≤ s.blk.payloadEnd → accessible s.cfg a = true

/-- Every byte of the output buffer is `Accessible` (70_reset_and_hazards.md R264). -/
def OutputAccessible (s : State) : Prop :=
  ∀ i, i < s.blk.outSize → accessible s.cfg (s.blk.outAddr i) = true

end Sys2Proof.Machine
end

