-- ==== Sys2Proof/Safety.lean ====
section
/-! DEFINITION. What holds in every run: the invariant of the machine, in the terms the statements
use, and the result of a decode. -/

namespace Sys2Proof.Machine

/-- The registers an accepted START clears (41_segment_framing.md R140) are still 0. -/
structure ResultsClear (b : Block) : Prop where
  us : b.uncompSize = 0
  hb : b.hbRelOff = 0
  out : b.bytesOut = 0
  cursor : b.cursor = { offset := 0, pool := 0, bitsLeft := 0 }

/-- What PRE has checked (41_segment_framing.md R143, R144). -/
structure Prechecked (c : Config) (b : Block) : Prop where
  long : 16 ≤ b.segSize
  fits : b.segStart + b.segSize ≤ 2 ^ c.addrW

/-- What FRAME has checked (41_segment_framing.md R147). -/
structure Framed (c : Config) (b : Block) : Prop extends Prechecked c b where
  framing : 16 + b.hb + 0x100 = b.segSize

/-- What ALLOC has checked (41_segment_framing.md R148, R149, R150). -/
structure Allocated (c : Config) (b : Block) : Prop extends Framed c b where
  capacity : b.outSize ≤ b.dstCap.toNat
  range : b.dstBase.toNat + b.outSize ≤ 2 ^ c.addrW
  apart : b.segStart + b.segSize ≤ b.dstBase.toNat ∨ b.dstBase.toNat + b.outSize ≤ b.segStart

/-- What holds in the token loop (10_state.md R32, R33). -/
structure InLoop (c : Config) (b : Block) : Prop extends Allocated c b where
  cursor : CursorInRange b
  count : b.bytesOut.toNat ≤ b.us

/-- What holds in each sub-phase of BUSY. Before INIT the cursor and BYTES_OUT are 0 (R140). In
`bref` the range check has passed (44_back_copy.md R211). In `copy` the copy reads exactly DIST + 3
above where it writes, inside (dst, TOP] (R215), and ends at or above Out[0x100] (R212). -/
def SubInv (c : Config) (b : Block) : Sub → Prop
  | .pre => ResultsClear b
  | .sig => ResultsClear b ∧ Prechecked c b
  | .sizes => ResultsClear b ∧ Prechecked c b
  | .frame => Prechecked c b ∧ b.bytesOut = 0 ∧ b.cursor = { offset := 0, pool := 0, bitsLeft := 0 }
  | .alloc => Framed c b ∧ b.bytesOut = 0 ∧ b.cursor = { offset := 0, pool := 0, bitsLeft := 0 }
  | .hdr _ => Allocated c b ∧ b.bytesOut = 0 ∧ b.cursor = { offset := 0, pool := 0, bitsLeft := 0 }
  | .init => Allocated c b ∧ b.bytesOut = 0 ∧ b.cursor = { offset := 0, pool := 0, bitsLeft := 0 }
  | .token => InLoop c b
  | .bref => InLoop c b ∧ b.bytesOut.toNat < b.us ∧
      b.latches.brIdx = b.brIdxOf b.latches.dist ∧ b.latches.brIdx ≤ b.top
  | .copy => InLoop c b ∧ b.latches.brIdx = b.brIdxOf b.latches.dist ∧ b.latches.brIdx ≤ b.top ∧
      0 < b.latches.len ∧ b.latches.len ≤ b.remaining

/-- The invariant of one instance. -/
structure BlockInv (c : Config) (b : Block) : Prop where
  /-- SRC_BASE and DST_BASE hold ADDR_W bits (10_state.md R28). -/
  srcFits : b.segStart < 2 ^ c.addrW
  dstFits : b.dstBase.toNat < 2 ^ c.addrW
  /-- OFFSET is an address (10_state.md R30). -/
  offsetFits : b.cursor.offset.toNat < 2 ^ c.addrW
  /-- ERR_CODE is 0 but in ERROR, and ERR_INFO with it (10_state.md R26, R27). -/
  errIff : b.phase = .error ↔ b.errCode ≠ .noError
  noInfo : b.phase ≠ .error → b.errInfo = 0
  /-- IDLE: no decode has run since reset (10_state.md R22). -/
  idle : b.phase = .idle → ResultsClear b
  /-- DONE comes exactly when BYTES_OUT = us (41_segment_framing.md R153). -/
  done : b.phase = .done → b.bytesOut.toNat = b.us
  busy : ∀ sub, b.phase = .busy sub → SubInv c b sub
  before : b.before.wf

/-- The invariant of the machine: legal parameters, every instance's invariant, and memory in its
canonical form. -/
structure State.Inv (s : State) : Prop where
  legal : s.cfg.Legal
  blk : BlockInv s.cfg s.blk
  parked : ∀ b ∈ s.parked, BlockInv s.cfg b
  mem : s.mem.wf

/-- The us a decode has latched is the one its segment declares (41_segment_framing.md R146). -/
def LatchedUs (m : Memory) (b : Block) : Prop :=
  match b.phase with
  | .busy .frame => b.us = declaredUs m b
  | .busy .alloc => b.us = declaredUs m b
  | .busy (.hdr _) => b.us = declaredUs m b
  | .busy .init => b.us = declaredUs m b
  | .busy .token => b.us = declaredUs m b
  | .busy .bref => b.us = declaredUs m b
  | .busy .copy => b.us = declaredUs m b
  | .busy .pre => True
  | .busy .sig => True
  | .busy .sizes => True
  | .idle => True
  | .done => True
  | .error => True

/-- 20_memory.md R80: of two running decodes neither's output region meets the other's regions. -/
structure RunningApart (s : State) : Prop where
  apart : s.instances.Pairwise fun b c =>
    b.isBusy = true → c.isBusy = true → regionsClash s b c = false
  latched : ∀ b ∈ s.instances, LatchedUs s.mem b

/-- 42_token_decode.md R177: the bits consumed stay within 14 for each payload byte produced, or in
a back-reference promised. -/
def WithinWork (b : Block) : Prop :=
  match b.phase with
  | .busy .token => b.bitsConsumed ≤ 14 * b.bytesOut.toNat
  | .busy .bref => b.bitsConsumed ≤ 14 * b.bytesOut.toNat + 14
  | .busy .copy => b.bitsConsumed ≤ 14 * (b.bytesOut.toNat + b.latches.len)
  | .done => True
  | .busy .pre => True
  | .busy .sig => True
  | .busy .sizes => True
  | .busy .frame => True
  | .busy .alloc => True
  | .busy (.hdr _) => True
  | .busy .init => True
  | .idle => True
  | .error => True

/-- What a step of the selected instance leaves alone outside that instance, memory and the free
values: the parameters, the other instances, the schedule and the host's data. -/
structure SameRest (s t : State) : Prop where
  cfg : t.cfg = s.cfg
  parked : t.parked = s.parked
  inbox : t.inbox = s.inbox
  hostData : t.hostData = s.hostData

/-- Output index i holds a byte of an earlier time: this decode has not written it yet
(20_memory.md R71, R72). After an error the whole output region holds no result (60_exceptions.md
R237), and before ALLOC has passed there is no output region to speak of. -/
def Stale (b : Block) (i : Nat) : Prop :=
  match b.phase with
  | .busy (.hdr j) => j.val ≤ i
  | .busy .init => 0x100 ≤ i
  | .busy .token => 0x100 ≤ i ∧ i ≤ b.dst
  | .busy .bref => 0x100 ≤ i ∧ i ≤ b.dst
  | .busy .copy => 0x100 ≤ i ∧ i ≤ b.dst
  | .done => False
  | .error => True
  | .idle => True
  | .busy .pre => True
  | .busy .sig => True
  | .busy .sizes => True
  | .busy .frame => True
  | .busy .alloc => True

/-- Two machines that differ only in output bytes this decode has not written yet, and in what the
model remembers of memory before the decode. -/
structure SameButStale (s t : State) : Prop where
  cfg : t.cfg = s.cfg
  blk : { t.blk with before := s.blk.before } = s.blk
  draws : t.draws = s.draws
  mem : ∀ a, (∀ i, i < s.blk.outSize → Stale s.blk i → a ≠ s.blk.outAddr i) →
    t.mem.read a = s.mem.read a

/-! ## The decode as a function of the bit stream -/

/-- The payload bytes produced so far, in production order: the k-th is Out[TOP - k]
(42_token_decode.md R173). -/
def produced (s : State) : List Byte :=
  (List.range s.blk.bytesOut.toNat).map fun k => s.mem.read (s.blk.outAddr (s.blk.top - k))

/-- The LZ copy at distance `o` in production order: p_(k+i) = p_(k+i-o) (44_back_copy.md R214). -/
def copyFrom (o : Nat) : Nat → List Byte → List Byte
  | 0, out => out
  | n + 1, out => copyFrom o n (out ++ [out.getD (out.length - o) 0])

/-- One token of the stream in production order (42_token_decode.md R172, 44_back_copy.md R210):
the bits after it and the bytes produced with it, or none where the token cannot be run. -/
def refToken (us : Nat) (bits : List Bool) (out : List Byte) : Option (List Bool × List Byte) :=
  match decodeAt .token bits with
  | .ok (.lit v, rest) => some (rest, out ++ [v])
  | .ok (.bref d, rest) =>
    if out.length < d.toNat + 3 then none
    else match decodeAt .length rest with
      | .ok (i, rest) => match codeLength i with
        | some n => if us - out.length < n then none else some (rest, copyFrom (d.toNat + 3) n out)
        | none => none
      | .error _ => none
  | .ok (.g2 _, _) => none
  | .ok (.g3 _, _) => none
  | .ok (.g5 _, _) => none
  | .ok (.g8 _, _) => none
  | .ok (.tail _ _, _) => none
  | .ok (.start, _) => none
  | .error _ => none

/-- The token loop (42_token_decode.md R170) as a function on bits and bytes: all payload bytes in
production order, or none where a token cannot be run. A fuel of us + 1 is enough, since every
token produces a byte. -/
def refLoop (us : Nat) : Nat → List Bool → List Byte → Option (List Byte)
  | 0, _, _ => none
  | fuel + 1, bits, out =>
    if us ≤ out.length then some out
    else match refToken us bits out with
      | some (rest, out) => refLoop us fuel rest out
      | none => none

/-- The source's result of a decode that has ended (41_segment_framing.md R156): the bytes
Out[0 .. 0x100 + us), or the kind of its error (60_exceptions.md R232). -/
def State.result (s : State) : Option (Except DecodeError (List Byte)) :=
  match s.blk.phase with
  | .done => some (.ok ((List.range s.blk.outSize).map fun i => s.mem.read (s.blk.outAddr i)))
  | .error => s.blk.errCode.kind.map .error
  | .idle => none
  | .busy _ => none

end Sys2Proof.Machine
end

