-- ==== Sys2Proof/Certificates/Slice0/Obligations.lean ====
section
/-! DEFINITION. The statements for the provers, each about the machine and from the numbered rules of
spec/. A state is quantified over with its parameters, so each is generic in ADDR_W, MAGIC, Accessible,
REG_BASE and the number of instances. -/

open Sys2Proof Sys2Proof.Machine

/-- Decode and encode agree for every row of the opcode table: no bit of an encoding is dropped. -/
def Obligations.DecodeOfEncode : Prop :=
  ∀ (i : Instr) (rest : List Bool), i.wellFormed = true →
    decodeAt i.position (encode i ++ rest) = .ok (i, rest)

/-- The other direction of the round trip, for the two stream positions (a CTRL word's bits 63:1 are ignored). -/
def Obligations.DecodedBitsAreTheEncoding : Prop :=
  ∀ (p : Position) (bits rest : List Bool) (i : Instr), p ≠ .command →
    decodeAt p bits = .ok (i, rest) →
    i.wellFormed = true ∧ i.position = p ∧ bits = encode i ++ rest

/-- 30_encoding.md R103: every bit string is a sequence of valid tokens; a token fails for want of bits only. -/
def Obligations.EveryBitStringBeginsAToken : Prop :=
  ∀ bits : List Bool,
    (∃ i rest, decodeAt .token (bits ++ List.replicate 13 false) = .ok (i, rest)) ∧
    (∃ i rest, decodeAt .length (bits ++ List.replicate 8 false) = .ok (i, rest)) ∧
    (∀ r, decodeAt .token bits = .error r → r = .outOfBits ∧ bits.length < 14) ∧
    (∀ r, decodeAt .length bits = .error r → r = .outOfBits)

/-- 30_encoding.md R102. -/
def Obligations.EachLengthHasOneCode : Prop :=
  (∀ n, 3 ≤ n →
    (∃ i, i.wellFormed = true ∧ i.position = .length ∧ codeLength i = some n ∧
      encode i = encLength n) ∧
    (∀ i j : Instr, i.wellFormed = true → j.wellFormed = true → codeLength i = some n →
      codeLength j = some n → i = j)) ∧
  (∀ (d e : BitVec 13) (n m : Nat), 3 ≤ n → 3 ≤ m →
    encode (.bref d) ++ encLength n = encode (.bref e) ++ encLength m → d = e ∧ n = m)

/-- 43_vlc_length.md R193. -/
def Obligations.LengthCodeForms : Prop :=
  (∀ g : BitVec 2, (encode (.g2 g)).length = 2 ∧ codeLength (.g2 g) = some (3 + g.toNat) ∧
    ((Instr.g2 g).wellFormed = true ↔ g.toNat ≤ 2)) ∧
  (∀ g : BitVec 3, (encode (.g3 g)).length = 5 ∧ codeLength (.g3 g) = some (6 + g.toNat) ∧
    ((Instr.g3 g).wellFormed = true ↔ g.toNat ≤ 6)) ∧
  (∀ g : BitVec 5, (encode (.g5 g)).length = 10 ∧ codeLength (.g5 g) = some (13 + g.toNat) ∧
    ((Instr.g5 g).wellFormed = true ↔ g.toNat ≤ 30)) ∧
  (∀ g : BitVec 8, (encode (.g8 g)).length = 18 ∧ codeLength (.g8 g) = some (44 + g.toNat) ∧
    ((Instr.g8 g).wellFormed = true ↔ g.toNat ≤ 254)) ∧
  (∀ (k : Nat) (g : BitVec 8), (encode (.tail k g)).length = 26 + 8 * k ∧
    codeLength (.tail k g) = some (299 + 255 * k + g.toNat) ∧
    ((Instr.tail k g).wellFormed = true ↔ g.toNat ≤ 254)) ∧
  (∀ i j : Instr, i.position = .length → j.position = .length → i.wellFormed = true →
    j.wellFormed = true → codeLength i = codeLength j → i = j)

/-- A sanity statement: spec/95_test_vectors.md T2 and T3. -/
def Obligations.WordsWrittenOut : Prop :=
  decodeAt .token [false, false, true, false, false, false, false, false, true] =
    .ok (.lit 0x41, []) ∧
  decodeAt .token (true :: (List.replicate 12 false ++ [true])) = .ok (.bref 1, []) ∧
  decodeAt .length [true, false] = .ok (.g2 2, []) ∧
  decodeAt .length [true, true, false, true, false] = .ok (.g3 2, []) ∧
  decodeAt .length (List.replicate 5 true ++ List.replicate 5 false) = .ok (.g5 0, []) ∧
  decodeAt .length (List.replicate 17 true ++ [false]) = .ok (.g8 254, []) ∧
  decodeAt .length (List.replicate 26 true ++ List.replicate 8 false) = .ok (.tail 1 0, []) ∧
  decodeCommand 0xFFFFFFFFFFFFFFFF = some .start ∧ decodeCommand 0xFFFFFFFFFFFFFFFE = none

/-- 40_bit_reader.md R125. For n = 0 and n > 16, which no rule issues, it is about the model's READ_BITS (log 17). -/
def Obligations.ReadBitsDeliversTheStream : Prop :=
  ∀ (n v : Nat) (s t : State), CursorOnStream s → readBits n s = .ok v t →
    v = beNat (streamBits s s.blk.bitsConsumed n) ∧
    (∀ j, j < n → v.testBit (n - 1 - j) = streamBit s (s.blk.bitsConsumed + j)) ∧
    t = s.setCursor t.blk.cursor ∧ CursorOnStream t ∧
    t.blk.bitsConsumed = s.blk.bitsConsumed + n

/-- 40_bit_reader.md R126. For n = 0 and n > 16, which no rule issues, it is about the model's READ_BITS (log 17). -/
def Obligations.ReadBitsSucceedsExactly : Prop :=
  ∀ (n : Nat) (s : State), CursorOnStream s → s.blk.cursor.bitsLeft.val < 8 →
    ((∃ v t, readBits n s = .ok v t) ↔
      s.blk.bitsConsumed + n ≤ 8 * s.blk.hb ∧
      ∀ j, (s.blk.bitsConsumed + 7) / 8 ≤ j → 8 * j < s.blk.bitsConsumed + n →
        accessible s.cfg (s.blk.payloadEnd - j) = true) ∧
    (PayloadAccessible s → 8 * s.blk.hb < s.blk.bitsConsumed + n →
      ∃ c : Cursor, c.offset.toNat = s.blk.segStart + 15 ∧ c.bitsLeft = 0 ∧
        readBits n s =
          .raised (raise .sourceUnderflow (s.blk.segStart + 15) (s.setCursor c)))

/-- 40_bit_reader.md R127, with the error entry of 60_exceptions.md R236; n = 0 and n > 16 are log 17. -/
def Obligations.ReadBitsWritesOnlyTheCursor : Prop :=
  ∀ (n : Nat) (s : State),
    (∀ v t, readBits n s = .ok v t →
      v < 2 ^ n ∧ t = { s with blk := { s.blk with cursor := t.blk.cursor } }) ∧
    (∀ t, readBits n s = .raised t →
      t = { s with blk := { s.blk with
        cursor := t.blk.cursor, errCode := t.blk.errCode, errInfo := t.blk.errInfo, phase := .error } })

/-- 40_bit_reader.md R122; n = 0 and n > 16 are log 17. -/
def Obligations.LazyFetch : Prop :=
  ∀ (n v : Nat) (s t : State), CursorOnStream s → s.blk.cursor.bitsLeft.val < 8 →
    readBits n s = .ok v t →
    t.blk.cursor.bitsLeft.val < 8 ∧
    t.blk.cursor.offset.toNat + (t.blk.bitsConsumed + 7) / 8 = s.blk.payloadEnd ∧
    (n ≤ s.blk.cursor.bitsLeft.val →
      t.blk.cursor.offset = s.blk.cursor.offset ∧ t.blk.cursor.pool = s.blk.cursor.pool ∧
      t.blk.cursor.bitsLeft.val + n = s.blk.cursor.bitsLeft.val)

/-- 40_bit_reader.md R123 and R124. For n = 0 and n > 16, which no rule issues, it is about the model's READ_BITS and its loop (log 17). -/
def Obligations.FetchErrorsArePrecise : Prop :=
  (∀ s : State, s.blk.cursor.bitsLeft = 0 →
    (s.blk.cursor.offset.toNat < s.blk.payloadStart →
      fillPool s = .raised (raise .sourceUnderflow s.blk.cursor.offset.toNat s)) ∧
    (s.blk.payloadStart ≤ s.blk.cursor.offset.toNat →
      accessible s.cfg s.blk.cursor.offset.toNat = false →
      fillPool s = .raised (raise .sourceReadFailure s.blk.cursor.offset.toNat s))) ∧
  (∀ (s t : State) (n : Nat), 0 < n → fillPool s = .raised t →
    readBits n s = .raised t ∧ ∀ fuel acc, readBitsLoop (fuel + 1) n acc s = .raised t) ∧
  ∀ (n : Nat) (s t : State), readBits n s = .raised t →
    t.blk.cursor.bitsLeft = 0 ∧ t.blk.errInfo = t.blk.cursor.offset ∧ t.blk.phase = .error ∧
    (t.blk.cursor.offset.toNat < s.blk.payloadStart → t.blk.errCode = .sourceUnderflow) ∧
    (s.blk.payloadStart ≤ t.blk.cursor.offset.toNat →
      t.blk.errCode = .sourceReadFailure ∧
      accessible s.cfg t.blk.cursor.offset.toNat = false) ∧
    (s.blk.cursor.bitsLeft = 0 →
      s.blk.cursor.offset.toNat < s.blk.payloadStart ∨
        accessible s.cfg s.blk.cursor.offset.toNat = false → t.blk.cursor = s.blk.cursor) ∧
    (CursorOnStream s → CursorOnStream t)

/-- 42_token_decode.md R172 after the literal's bits are read, with its frame. Memory is in its canonical form (an invariant of the model). -/
def Obligations.LitWritesItsByte : Prop :=
  ∀ (s : State) (v : BitVec 8), s.mem.wf → s.blk.bytesOut.toNat < s.blk.us →
    0x100 ≤ s.blk.top - s.blk.bytesOut.toNat ∧ s.blk.dst = s.blk.top - s.blk.bytesOut.toNat ∧
    (accessible s.cfg (s.blk.outAddr s.blk.dst) = true →
      ∃ t, exec (.lit v) s = .next t ∧
        t.blk = { s.blk with
          bytesOut := s.blk.bytesOut + 1, phase := .busy .token, latches := t.blk.latches } ∧
        t.blk.bytesOut.toNat = s.blk.bytesOut.toNat + 1 ∧ SameRest s t ∧
        ∀ a, t.mem.read a = if a = s.blk.outAddr s.blk.dst then v else s.mem.read a) ∧
    (accessible s.cfg (s.blk.outAddr s.blk.dst) = false →
      exec (.lit v) s = .next (raise .outputAccessFailure (s.blk.outAddr s.blk.dst) s))

/-- 44_back_copy.md R211 and the part of R210 it stands in. -/
def Obligations.BrefRangeCheck : Prop :=
  ∀ (s : State) (d : BitVec 13), s.blk.bytesOut.toNat ≤ s.blk.us →
    let i := (s.blk.top - s.blk.bytesOut.toNat) + d.toNat + 3
    let t := { s with blk := { s.blk with latches := { s.blk.latches with dist := d, brIdx := i } } }
    (s.blk.top < i ↔ s.blk.bytesOut.toNat < d.toNat + 3) ∧
    (d.toNat + 3 ≤ s.blk.bytesOut.toNat →
      exec (.bref d) s = .next { t with blk := { t.blk with phase := .busy .bref } }) ∧
    (s.blk.bytesOut.toNat < d.toNat + 3 →
      exec (.bref d) s = .next (raise .backrefOutOfRange i t))

/-- 43_vlc_length.md R193 and the overrun check of 44_back_copy.md R212 passed. -/
def Obligations.LengthCodesGoOnToCopy : Prop :=
  ∀ s : State,
    let after (n : Nat) (l : Fin 5) : Host.Outcome State Fault Refusal :=
      .next { s with blk := { s.blk with
        latches := { s.blk.latches with len := n, lvl := l }, phase := .busy .copy } }
    let left := s.blk.us - s.blk.bytesOut.toNat
    (∀ g : BitVec 2, 3 + g.toNat ≤ left → exec (.g2 g) s = after (3 + g.toNat) 1) ∧
    (∀ g : BitVec 3, 6 + g.toNat ≤ left → exec (.g3 g) s = after (6 + g.toNat) 2) ∧
    (∀ g : BitVec 5, 13 + g.toNat ≤ left → exec (.g5 g) s = after (13 + g.toNat) 3) ∧
    (∀ g : BitVec 8, 44 + g.toNat ≤ left → exec (.g8 g) s = after (44 + g.toNat) 4) ∧
    (∀ (k : Nat) (g : BitVec 8), 299 + 255 * k + g.toNat ≤ left →
      exec (.tail k g) s = after (299 + 255 * k + g.toNat) 4)

/-- 44_back_copy.md R212. -/
def Obligations.OverrunRefusesTheWholeToken : Prop :=
  ∀ (s : State) (i : Instr) (n : Nat), codeLength i = some n →
    (s.blk.us - s.blk.bytesOut.toNat < n →
      exec i s = .next (raise .outputOverrun (min n (2 ^ 64 - 1))
        { s with blk := { s.blk with
          latches := { s.blk.latches with len := n, lvl := codeLevel i } } })) ∧
    (n = s.blk.us - s.blk.bytesOut.toNat →
      exec i s = .next { s with blk := { s.blk with
        latches := { s.blk.latches with len := n, lvl := codeLevel i }, phase := .busy .copy } })

/-- 44_back_copy.md R213, one pass of its loop, with its frame. -/
def Obligations.CopyStepMovesOneByte : Prop :=
  ∀ s : State, s.mem.wf → s.blk.phase = .busy .copy → 0 < s.blk.latches.len →
    s.blk.bytesOut.toNat < s.blk.us →
    let src := s.blk.outAddr s.blk.latches.brIdx
    let dst := s.blk.outAddr (s.blk.top - s.blk.bytesOut.toNat)
    (accessible s.cfg src = true → accessible s.cfg dst = true →
      ∃ t, blockTurn s = .next t ∧ SameRest s t ∧
        t.blk.bytesOut.toNat = s.blk.bytesOut.toNat + 1 ∧
        (∀ a, t.mem.read a = if a = dst then s.mem.read src else s.mem.read a) ∧
        (s.blk.latches.len = 1 → t.blk = { s.blk with
          bytesOut := s.blk.bytesOut + 1, phase := .busy .token, latches := t.blk.latches }) ∧
        (1 < s.blk.latches.len → t.blk = { s.blk with
          bytesOut := s.blk.bytesOut + 1
          latches := { s.blk.latches with
            brIdx := s.blk.latches.brIdx - 1, len := s.blk.latches.len - 1 } })) ∧
    (accessible s.cfg src = false →
      blockTurn s = .next (raise .outputAccessFailure src s)) ∧
    (accessible s.cfg src = true → accessible s.cfg dst = false →
      blockTurn s = .next (raise .outputAccessFailure dst s))

/-- 44_back_copy.md R214. -/
def Obligations.CopyRepeatsWithItsOffset : Prop :=
  ∀ s : State, s.Inv → s.blk.phase = .busy .copy → OutputAccessible s →
    let n := s.blk.latches.len
    let d := s.blk.top - s.blk.bytesOut.toNat
    let o := s.blk.latches.dist.toNat + 3
    ∃ t, turns n s = .next t ∧
      (∀ i, i < n → t.mem.read (s.blk.outAddr (d - i)) = s.mem.read (s.blk.outAddr (d + o - i % o))) ∧
      (∀ a, (∀ i, i < n → a ≠ s.blk.outAddr (d - i)) → t.mem.read a = s.mem.read a) ∧
      t.blk.bytesOut.toNat = s.blk.bytesOut.toNat + n ∧
      t.blk = { s.blk with
        bytesOut := t.blk.bytesOut, phase := .busy .token, latches := t.blk.latches } ∧
      SameRest s t ∧
      (∀ i, i < n → (produced t).getD (s.blk.bytesOut.toNat + i) 0 =
        (produced t).getD (s.blk.bytesOut.toNat + i - o) 0)

/-- 41_segment_framing.md R140; the latches are free from a START on (log 3), and where register blocks overlap, that the selected instance answers is the model's choice (log 12). -/
def Obligations.StartBeginsADecode : Prop :=
  (∀ s : State, s.blk.isBusy = false → startClashes s = false →
    ∃ t, exec .start s = .next t ∧ t.mem = s.mem ∧ SameRest s t ∧
      t.blk = { s.blk with
        phase := .busy .pre, errCode := .noError, errInfo := 0, uncompSize := 0, hbRelOff := 0,
        bytesOut := 0, cursor := { offset := 0, pool := 0, bitsLeft := 0 }
        latches := t.blk.latches, before := s.mem }) ∧
  (∀ s : State, (∀ b ∈ s.parked, b.isBusy = false) → startClashes s = false) ∧
  (∀ (s : State) (v : Word) (rest : List HostEvent), v.getLsbD 0 = true →
    step { s with inbox := .regWrite s.blk.regBase v :: rest } = exec .start { s with inbox := rest })

/-- 41_segment_framing.md R141; where register blocks overlap, that the selected instance answers is the model's choice (log 12). -/
def Obligations.StartIgnored : Prop :=
  ∀ s : State,
    (s.blk.isBusy = true → exec .start s = .next s ∧
      ∀ v : Word, hostEvent (.regWrite s.blk.regBase v) s = .next s) ∧
    (∀ v : Word, v.getLsbD 0 = false → hostEvent (.regWrite s.blk.regBase v) s = .next s)

/-- 41_segment_framing.md R143 and R144, in the order of R142. -/
def Obligations.PrechecksComeFirst : Prop :=
  ∀ s : State, s.blk.phase = .busy .pre →
    let sl := s.blk.srcBase.toNat + s.blk.segLen.toNat
    (s.blk.segLen.toNat < 16 → blockTurn s = .next (raise .framingMismatch 0 s)) ∧
    (16 ≤ s.blk.segLen.toNat → 2 ^ s.cfg.addrW < sl →
      blockTurn s = .next (raise .sourceReadFailure (sl % 2 ^ 64) s)) ∧
    (16 ≤ s.blk.segLen.toNat → sl ≤ 2 ^ s.cfg.addrW →
      blockTurn s = .next { s with blk := { s.blk with phase := .busy .sig } })

/-- 41_segment_framing.md R145, generic in MAGIC. -/
def Obligations.SignatureCheck : Prop :=
  ∀ s : State, s.blk.phase = .busy .sig →
    let v := ∑ i ∈ Finset.range 8, (s.mem.read (s.blk.segStart + i)).toNat * 2 ^ (8 * (7 - i))
    ((∀ i, i < 8 → accessible s.cfg (s.blk.segStart + i) = true) →
      (v = s.cfg.magic.toNat ∨ v = 0 →
        blockTurn s = .next { s with blk := { s.blk with phase := .busy .sizes } }) ∧
      (v ≠ s.cfg.magic.toNat → v ≠ 0 → blockTurn s = .next (raise .badSignature v s))) ∧
    (∀ i, i < 8 → (∀ j, j < i → accessible s.cfg (s.blk.segStart + j) = true) →
      accessible s.cfg (s.blk.segStart + i) = false →
      blockTurn s = .next (raise .sourceReadFailure (s.blk.segStart + i) s))

/-- 41_segment_framing.md R146. -/
def Obligations.SizesAreLatched : Prop :=
  ∀ s : State, s.blk.phase = .busy .sizes →
    let m (k : Nat) : Nat := (s.mem.read (s.blk.segStart + k)).toNat
    ((∀ i, i < 8 → accessible s.cfg (s.blk.segStart + 8 + i) = true) →
      ∃ t, blockTurn s = .next t ∧ t.mem = s.mem ∧ t.draws = s.draws ∧ SameRest s t ∧
        t.blk = { s.blk with
          uncompSize := t.blk.uncompSize, hbRelOff := t.blk.hbRelOff, phase := .busy .frame } ∧
        t.blk.uncompSize.toNat = m 8 + 2 ^ 8 * m 9 + 2 ^ 16 * m 10 + 2 ^ 24 * m 11 ∧
        t.blk.hbRelOff.toNat = m 12 + 2 ^ 8 * m 13 + 2 ^ 16 * m 14 + 2 ^ 24 * m 15) ∧
    (∀ i, i < 8 → (∀ j, j < i → accessible s.cfg (s.blk.segStart + 8 + j) = true) →
      accessible s.cfg (s.blk.segStart + 8 + i) = false →
      blockTurn s = .next (raise .sourceReadFailure (s.blk.segStart + 8 + i) s))

/-- 41_segment_framing.md R147. -/
def Obligations.FramingEquation : Prop :=
  ∀ s : State, s.blk.phase = .busy .frame →
    (16 + s.blk.hbRelOff.toNat + 0x100 ≠ s.blk.segLen.toNat →
      blockTurn s = .next (raise .framingMismatch s.blk.hbRelOff.toNat s)) ∧
    (16 + s.blk.hbRelOff.toNat + 0x100 = s.blk.segLen.toNat →
      blockTurn s = .next { s with blk := { s.blk with phase := .busy .alloc } })

/-- 41_segment_framing.md R148, R149 and R150, in the order of 60_exceptions.md R234. -/
def Obligations.OutputChecksInOrder : Prop :=
  ∀ s : State, s.blk.phase = .busy .alloc →
    let need := 0x100 + s.blk.uncompSize.toNat
    let dst := s.blk.dstBase.toNat
    let clash := dst < s.blk.srcBase.toNat + s.blk.segLen.toNat ∧ s.blk.srcBase.toNat < dst + need
    (s.blk.dstCap.toNat < need → blockTurn s = .next (raise .allocationFailure need s)) ∧
    (need ≤ s.blk.dstCap.toNat → 2 ^ s.cfg.addrW < dst + need →
      blockTurn s = .next (raise .allocationFailure need s)) ∧
    (need ≤ s.blk.dstCap.toNat → dst + need ≤ 2 ^ s.cfg.addrW → clash →
      blockTurn s = .next (raise .outputAliasesSource dst s)) ∧
    (need ≤ s.blk.dstCap.toNat → dst + need ≤ 2 ^ s.cfg.addrW → ¬ clash →
      blockTurn s = .next { s with blk := { s.blk with phase := .busy (.hdr 0) } })

/-- 41_segment_framing.md R151. -/
def Obligations.HeaderByteCopied : Prop :=
  ∀ (s : State) (i : Fin 256), s.blk.phase = .busy (.hdr i) →
    let src := s.blk.segStart + 16 + s.blk.hb + i.val
    let dst := s.blk.dstBase.toNat + i.val
    (accessible s.cfg src = false → blockTurn s = .next (raise .sourceReadFailure src s)) ∧
    (accessible s.cfg src = true → accessible s.cfg dst = false →
      blockTurn s = .next (raise .outputAccessFailure dst s)) ∧
    (accessible s.cfg src = true → accessible s.cfg dst = true →
      blockTurn s = .next { s with
        mem := s.mem.write dst (s.mem.read src)
        blk := { s.blk with phase := .busy (if i.val = 255 then .init else .hdr (i + 1)) } })

/-- 41_segment_framing.md R151, by an induction over the 256 passes. -/
def Obligations.HeaderBlockCopied : Prop :=
  ∀ s : State, s.Inv → s.blk.phase = .busy (.hdr 0) →
    (∀ i, i < 0x100 → accessible s.cfg (s.blk.headerAddr i) = true ∧
      accessible s.cfg (s.blk.outAddr i) = true) →
    ∃ t, turns 256 s = .next t ∧ t.blk = { s.blk with phase := .busy .init } ∧
      SameRest s t ∧ t.draws = s.draws ∧
      (∀ i, i < 0x100 → t.mem.read (s.blk.outAddr i) = s.mem.read (s.blk.segStart + 16 + s.blk.hb + i)) ∧
      (∀ a, (∀ i, i < 0x100 → a ≠ s.blk.outAddr i) → t.mem.read a = s.mem.read a)

/-- 41_segment_framing.md R152, and the underflow of 40_bit_reader.md R123 where hb = 0. For n > 16, which no rule issues, the clause over n is about the model's READ_BITS (log 17). -/
def Obligations.InitSetsTheCursor : Prop :=
  ∀ s : State, s.Inv → s.blk.phase = .busy .init →
    ∃ t, blockTurn s = .next t ∧
      t = { s with blk := { s.blk with
        cursor := t.blk.cursor, bytesOut := 0, phase := .busy .token } } ∧
      t.blk.cursor.offset.toNat + 1 = s.blk.segStart + 16 + s.blk.hb ∧
      t.blk.cursor.pool = 0 ∧ t.blk.cursor.bitsLeft = 0 ∧
      (s.blk.hb = 0 →
        t.blk.cursor.offset.toNat = s.blk.segStart + 15 ∧
        (∀ n, 0 < n → readBits n t = .raised (raise .sourceUnderflow (s.blk.segStart + 15) t)) ∧
        (0 < s.blk.us → blockTurn t = .next (raise .sourceUnderflow (s.blk.segStart + 15) t)) ∧
        (s.blk.us = 0 → blockTurn t = .next { t with blk := { t.blk with phase := .done } }))

/-- 41_segment_framing.md R153 and the loop test of 42_token_decode.md R170. -/
def Obligations.DoneExactlyAtUs : Prop :=
  ∀ s t : State, s.Inv → s.blk.isBusy = true → blockTurn s = .next t →
    (t.blk.phase = .done ↔ s.blk.phase = .busy .token ∧ s.blk.bytesOut = s.blk.uncompSize) ∧
    (t.blk.phase = .done → t = { s with blk := { s.blk with phase := .done } })

/-- 41_segment_framing.md R155, its reads as well as its writes. -/
def Obligations.NothingWrittenBeforeAlloc : Prop :=
  ∀ s t : State, s.blk.phase = .busy .pre ∨ s.blk.phase = .busy .sig ∨ s.blk.phase = .busy .sizes ∨
      s.blk.phase = .busy .frame ∨ s.blk.phase = .busy .alloc →
    blockTurn s = .next t →
    t.mem = s.mem ∧ t.draws = s.draws ∧ SameRest s t ∧
    t.blk = { s.blk with
      phase := t.blk.phase, errCode := t.blk.errCode, errInfo := t.blk.errInfo,
      uncompSize := t.blk.uncompSize, hbRelOff := t.blk.hbRelOff } ∧
    ∀ m : Memory, (∀ a, s.blk.segStart ≤ a → a < s.blk.segStart + 16 → m.read a = s.mem.read a) →
      blockTurn { s with mem := m } = .next { t with mem := m }

/-- 60_exceptions.md R236 and R238; that an error entry keeps the latches too is the model's reading (log 15, DEDUCED). -/
def Obligations.ErrorEntryKeepsTheRest : Prop :=
  (∀ (e : ErrCode) (info : Nat) (s : State),
    raise e info s = { s with blk := { s.blk with
      errCode := e, errInfo := BitVec.ofNat 64 info, phase := .error } } ∧
    (raise e info s).blk.errInfo.toNat = info % 2 ^ 64) ∧
  (∀ s t : State, s.blk.isBusy = true → blockTurn s = .next t → t.blk.phase = .error →
    t.mem = s.mem ∧ SameRest s t ∧ t.blk.errCode ≠ .noError ∧
    t.blk = { s.blk with
      phase := .error, errCode := t.blk.errCode, errInfo := t.blk.errInfo
      cursor := t.blk.cursor, latches := t.blk.latches })

/-- 60_exceptions.md R230 (the numbers) and R232. -/
def Obligations.ErrorNumbersAndKinds : Prop :=
  [ErrCode.noError, .badSignature, .framingMismatch, .allocationFailure, .sourceReadFailure,
    .sourceUnderflow, .backrefOutOfRange, .outputOverrun, .outputAliasesSource,
    .outputAccessFailure].map (fun e => (e.code.toNat, e.kind)) =
  [(0, none), (1, some .badSignature), (2, some .framingMismatch), (3, some .allocationFailure),
    (4, some .sourceReadFailure), (5, some .framingMismatch), (6, some .sourceReadFailure),
    (7, some .sourceReadFailure), (8, some .allocationFailure), (9, some .allocationFailure)]

/-- 60_exceptions.md R231. -/
def Obligations.WhichTokenRaisesWhich : Prop :=
  (∀ s t, readBits 1 s = .raised t → t.blk.errCode ∈ [ErrCode.sourceUnderflow, .sourceReadFailure]) ∧
  (∀ s t, fetchToken s = .raised t → t.blk.errCode ∈ [ErrCode.sourceUnderflow, .sourceReadFailure]) ∧
  (∀ s t, fetchLength s = .raised t → t.blk.errCode ∈ [ErrCode.sourceUnderflow, .sourceReadFailure]) ∧
  (∀ v s t, exec (.lit v) s = .next t → t.blk.phase = .error → t.blk.errCode = .outputAccessFailure) ∧
  (∀ d s t, exec (.bref d) s = .next t → t.blk.phase = .error → t.blk.errCode = .backrefOutOfRange) ∧
  (∀ i s t, i.position = .length → exec i s = .next t → t.blk.phase = .error →
    t.blk.errCode = .outputOverrun) ∧
  (∀ s t, s.blk.phase = .busy .copy → blockTurn s = .next t → t.blk.phase = .error →
    t.blk.errCode = .outputAccessFailure) ∧
  (∀ s t, s.blk.isBusy = true → s.blk.phase ≠ .busy .token → s.blk.phase ≠ .busy .bref →
    s.blk.phase ≠ .busy .copy → blockTurn s = .next t → t.blk.phase = .error →
    t.blk.errCode ∈ [ErrCode.badSignature, .framingMismatch, .allocationFailure, .sourceReadFailure,
      .outputAliasesSource, .outputAccessFailure])

/-- 60_exceptions.md R247, and R239: the error too stays. Events are the model's schedule (log 7). -/
def Obligations.WaitingPhasesHold : Prop :=
  ∀ s : State, s.blk.phase = .idle ∨ s.blk.phase = .done ∨ s.blk.phase = .error →
    (s.inbox = [] → step s = .next s) ∧
    ∀ (t : State) (e : HostEvent), hostEvent e s = .next t →
      (∀ v : Word, v.getLsbD 0 = true → e ≠ .regWrite s.blk.regBase v) → e ≠ .reset →
      (∀ k, e ≠ .select k) →
      t.blk = { s.blk with
        srcBase := t.blk.srcBase, segLen := t.blk.segLen, dstBase := t.blk.dstBase, dstCap := t.blk.dstCap }

/-- 10_state.md R25; where register blocks overlap, that the selected instance answers is the model's choice (log 12). -/
def Obligations.StatusShowsThePhase : Prop :=
  ∀ s : State,
    (s.blk.phase = .idle → hostEvent (.regRead (s.blk.regBase + 0x08)) s = .next { s with hostData := 0 }) ∧
    (∀ sub, s.blk.phase = .busy sub →
      hostEvent (.regRead (s.blk.regBase + 0x08)) s = .next { s with hostData := 1 }) ∧
    (s.blk.phase = .done → hostEvent (.regRead (s.blk.regBase + 0x08)) s = .next { s with hostData := 2 }) ∧
    (s.blk.phase = .error → hostEvent (.regRead (s.blk.regBase + 0x08)) s = .next { s with hostData := 4 }) ∧
    (∀ v, hostEvent (.regWrite (s.blk.regBase + 0x08) v) s = .next s)

/-- 10_state.md R23, R35 and R37; the free value of a result slot while BUSY is Config.freeSlot (log 8), every slot from 13 up that is no named slot of another instance is taken as reserved (log 13), and where register blocks overlap, that the selected instance answers is the model's choice (log 12). -/
def Obligations.SlotsReadTheirRegisters : Prop :=
  ∀ s : State,
    let b := s.blk
    (∀ p ∈ [(0x00, (0 : Word)), (0x10, b.errCode.code.setWidth 64), (0x18, b.errInfo),
        (0x20, b.srcBase), (0x28, b.segLen), (0x30, b.dstBase), (0x38, b.dstCap)],
      hostEvent (.regRead (b.regBase + p.1)) s = .next { s with hostData := p.2 }) ∧
    (b.isBusy = false →
      ∀ p ∈ [(0x40, (b.uncompSize.setWidth 64 : Word)), (0x48, b.hbRelOff.setWidth 64),
          (0x50, b.bytesOut.setWidth 64), (0x58, b.cursor.offset),
          (0x60, b.cursor.pool.setWidth 64 ||| (BitVec.ofNat 64 b.cursor.bitsLeft.val <<< 8))],
        hostEvent (.regRead (b.regBase + p.1)) s = .next { s with hostData := p.2 }) ∧
    (b.isBusy = true →
      ∀ p ∈ [(0x40, 32), (0x48, 32), (0x50, 32), (0x58, s.cfg.addrW), (0x60, 12)],
        hostEvent (.regRead (b.regBase + p.1)) s = .next { s with
          hostData := BitVec.ofNat 64 ((Config.freeSlot s.draws).toNat % 2 ^ p.2)
          draws := s.draws + 1 }) ∧
    (∀ k, 13 ≤ k → (∀ c ∈ s.parked, c.holdsAddr (b.regBase + 8 * k) = false) →
      hostEvent (.regRead (b.regBase + 8 * k)) s = .next { s with hostData := 0 })

/-- 10_state.md R35: a read never has a side effect. -/
def Obligations.ReadsHaveNoSideEffect : Prop :=
  ∀ (s t : State) (a : Nat),
    hostEvent (.regRead a) s = .next t ∨ hostEvent (.memRead a) s = .next t →
    t = { s with hostData := t.hostData, draws := t.draws }

/-- 10_state.md R28, R35 and R36; every slot from 13 up that is no named slot of another instance is taken as reserved (log 13), and where register blocks overlap, that the selected instance answers is the model's choice (log 12). -/
def Obligations.SlotWrites : Prop :=
  ∀ (s : State) (v : Word),
    let b := s.blk
    let cut : Word := BitVec.ofNat 64 (v.toNat % 2 ^ s.cfg.addrW)
    (b.isBusy = false →
      hostEvent (.regWrite (b.regBase + 0x20) v) s = .next { s with blk := { b with srcBase := cut } } ∧
      hostEvent (.regWrite (b.regBase + 0x28) v) s = .next { s with blk := { b with segLen := v } } ∧
      hostEvent (.regWrite (b.regBase + 0x30) v) s = .next { s with blk := { b with dstBase := cut } } ∧
      hostEvent (.regWrite (b.regBase + 0x38) v) s = .next { s with blk := { b with dstCap := v } }) ∧
    (∀ off ∈ [0x08, 0x10, 0x18, 0x40, 0x48, 0x50, 0x58, 0x60],
      hostEvent (.regWrite (b.regBase + off) v) s = .next s) ∧
    (∀ k, 13 ≤ k → (∀ c ∈ s.parked, c.holdsAddr (b.regBase + 8 * k) = false) →
      hostEvent (.regWrite (b.regBase + 8 * k) v) s = .next s)

/-- 10_state.md R36 and R28. -/
def Obligations.WritesWhileBusyAreHarmless : Prop :=
  (∀ (s t : State) (a : Nat) (v : Word),
    (∀ b ∈ s.instances, b.holdsAddr a = true → b.isBusy = true) →
    hostEvent (.regWrite a v) s = .next t → t = s) ∧
  (∀ s t : State, blockTurn s = .next t →
    t.blk.srcBase = s.blk.srcBase ∧ t.blk.segLen = s.blk.segLen ∧
    t.blk.dstBase = s.blk.dstBase ∧ t.blk.dstCap = s.blk.dstCap ∧ t.blk.regBase = s.blk.regBase)

/-- 20_memory.md R77 and R80 as 93_implementation_defined.md row 20 treats them; which moves are refused is the model's reading (log 11, log 18), and that a write takes effect at inaccessible addresses too is its choice (log 16). -/
def Obligations.HostKeepsOffRunningDecodes : Prop :=
  ∀ (s : State) (a : Nat) (v : Byte), s.mem.wf → a < 2 ^ s.cfg.addrW →
    let kept := ∃ b ∈ s.instances, b.isBusy = true ∧
      ((b.segStart ≤ a ∧ a < b.segStart + b.segSize) ∨
        (b.dstBase.toNat ≤ a ∧ a < b.dstBase.toNat + 0x100 + declaredUs s.mem b ∧
          12 ≤ b.segSize ∧ b.segStart + 12 ≤ 2 ^ s.cfg.addrW))
    (kept → hostEvent (.memWrite a v) s = .refused .hostDuty) ∧
    (¬ kept → ∃ t, hostEvent (.memWrite a v) s = .next t ∧ t = { s with mem := t.mem } ∧
      ∀ x, t.mem.read x = if x = a then v else s.mem.read x) ∧
    (s.blk.isBusy = false → startClashes s = true → exec .start s = .refused .hostDuty)

/-- 20_memory.md R74: any subset of the writes so far. That the choice is made byte by byte, between now and the START, is the model's form of it (log 9), and that the host reads inaccessible addresses too is the model's choice (log 16). -/
def Obligations.HostSeesBeforeOrNow : Prop :=
  ∀ (s : State) (a : Nat), a < 2 ^ s.cfg.addrW →
    ∃ t, hostEvent (.memRead a) s = .next t ∧
      t = { s with hostData := t.hostData, draws := t.draws } ∧
      ((∀ b ∈ s.instances, b.isBusy = true → inOutput s b a = false) →
        t.hostData = (s.mem.read a).setWidth 64) ∧
      (t.hostData = (s.mem.read a).setWidth 64 ∨
        ∃ b ∈ s.instances, b.isBusy = true ∧ inOutput s b a = true ∧
          t.hostData = (b.before.read a).setWidth 64)

/-- 10_state.md R41 and 70_reset_and_hazards.md R261. In State.reset the latches' 0 is the model's choice (log 2) and REG_BASE 0 too (log 5); `before` is the model's own (log 9). -/
def Obligations.ResetGivesTheTable : Prop :=
  (∀ s : State, ∃ t, hostEvent .reset s = .next t ∧ SameRest s t ∧
    t.blk =
      { regBase := s.blk.regBase, phase := .idle, errCode := .noError, errInfo := 0,
        srcBase := 0, segLen := 0, dstBase := 0, dstCap := 0,
        uncompSize := 0, hbRelOff := 0, bytesOut := 0,
        cursor := { offset := 0, pool := 0, bitsLeft := 0 },
        latches := t.blk.latches, before := [] } ∧
    (s.blk.isBusy = false → t.mem = s.mem)) ∧
  State.reset.blk =
    { regBase := 0, phase := .idle, errCode := .noError, errInfo := 0,
      srcBase := 0, segLen := 0, dstBase := 0, dstCap := 0,
      uncompSize := 0, hbRelOff := 0, bytesOut := 0,
      cursor := { offset := 0, pool := 0, bitsLeft := 0 },
      latches := { dist := 0, brIdx := 0, len := 0, lvl := 0 }, before := [] }

/-- 70_reset_and_hazards.md R262; the free m is Config.freeCut, and the form of memAfterReset is the model's (log 10). -/
def Obligations.ResetCutsTheWrites : Prop :=
  ∀ s : State, s.Inv → s.blk.isBusy = true →
    let w := writesMade s.blk
    let at_ (k : Nat) : Nat := s.blk.outAddr (writeIndex s.blk k)
    (∃ m t, hostEvent .reset s = .next t ∧ t.mem = memAfterReset m s) ∧
    (∀ m, m ≤ w →
      (∀ k, m ≤ k → k < w → (memAfterReset m s).read (at_ k) = s.blk.before.read (at_ k)) ∧
      (∀ a, (∀ k, m ≤ k → k < w → a ≠ at_ k) → (memAfterReset m s).read a = s.mem.read a)) ∧
    (∀ m, w < m → ∃ n t, turns n s = .next t ∧ memAfterReset m s = t.mem ∧
      (writesMade t.blk = m ∧ t.blk.isBusy = true ∨ t.blk.isBusy = false))

/-- 10_state.md R42 and 60_exceptions.md R245: instances share only memory. That the others are parked blocks is the model's form (log 12). -/
def Obligations.InstancesAreIndependent : Prop :=
  (∀ (s t : State) (e : HostEvent), (∀ k, e ≠ .select k) → hostEvent e s = .next t →
    t.parked = s.parked ∨
    ∃ a v k b c, e = .regWrite a v ∧ s.parked[k]? = some b ∧ b.holdsAddr a = true ∧
      t = { s with parked := s.parked.set k c, draws := t.draws }) ∧
  (∀ (s t : State) (ps : List Block), blockTurn s = .next t →
    blockTurn { s with parked := ps } = .next { t with parked := ps })

/-- How the per-instruction statements reach a run. What one step is, and the schedule of events, are the model's choice (log 1, log 7), and so is that the selected instance answers a CTRL write where register blocks overlap (log 12). -/
def Obligations.StepRunsTheDecodedInstruction : Prop :=
  ∀ s : State,
    (s.inbox = [] → s.blk.phase = .busy .token → s.blk.bytesOut.toNat < s.blk.us →
      (∀ i t, fetchToken s = .ok i t → step s = exec i t) ∧
      (∀ t, fetchToken s = .raised t → step s = .next t)) ∧
    (s.inbox = [] → s.blk.phase = .busy .bref →
      (∀ i t, fetchLength s = .ok i t → step s = exec i t) ∧
      (∀ t, fetchLength s = .raised t → step s = .next t)) ∧
    (∀ v i rest, decodeCommand v = some i →
      step { s with inbox := .regWrite s.blk.regBase v :: rest } = exec i { s with inbox := rest }) ∧
    (∀ rest, step { s with inbox := .turn :: rest } = blockTurn { s with inbox := rest })

/-- The decoder of Decode.lean on the stream of 30_encoding.md R95, and the machine's fetch, agree. -/
def Obligations.TokenFetchFollowsTheDecoder : Prop :=
  ∀ s : State, s.inbox = [] → s.blk.phase = .busy .token → s.blk.bytesOut.toNat < s.blk.us →
    CursorOnStream s → PayloadAccessible s →
    (∀ i rest, decodeAt .token (unreadBits s) = .ok (i, rest) →
      ∃ c, step s = exec i (s.setCursor c) ∧ CursorOnStream (s.setCursor c) ∧
        unreadBits (s.setCursor c) = rest ∧
        (s.setCursor c).blk.bitsConsumed = s.blk.bitsConsumed + i.width) ∧
    (∀ r, decodeAt .token (unreadBits s) = .error r →
      ∃ c, step s = .next (raise .sourceUnderflow (s.blk.segStart + 15) (s.setCursor c)))

/-- 43_vlc_length.md R190: the loop of groups in the machine is the decoder on the stream, the tail of any length included. -/
def Obligations.LengthFetchFollowsTheDecoder : Prop :=
  ∀ s : State, s.inbox = [] → s.blk.phase = .busy .bref →
    CursorOnStream s → PayloadAccessible s →
    (∀ i rest, decodeAt .length (unreadBits s) = .ok (i, rest) →
      ∃ c l, step s = exec i ((s.setCursor c).setLatches l) ∧
        l.dist = s.blk.latches.dist ∧ l.brIdx = s.blk.latches.brIdx ∧
        codeLength i = some l.len ∧ l.lvl = codeLevel i ∧
        CursorOnStream (s.setCursor c) ∧ unreadBits (s.setCursor c) = rest ∧
        (s.setCursor c).blk.bitsConsumed = s.blk.bitsConsumed + i.width) ∧
    (∀ r, decodeAt .length (unreadBits s) = .error r →
      ∃ c l, step s =
        .next (raise .sourceUnderflow (s.blk.segStart + 15) ((s.setCursor c).setLatches l)))

/-- An invariant over every state that meets it and every event of the schedule. -/
def Obligations.InvariantKept : Prop :=
  ∀ s t : State, s.Inv → step s = .next t → t.Inv

/-- The base case of InvariantKept, for the parameters State.reset takes (log 5). -/
def Obligations.ResetMeetsInvariant : Prop :=
  State.reset.Inv

/-- 42_token_decode.md R176: no hang, and a bound on the turns, which are the model's grain (log 1). -/
def Obligations.EveryDecodeEnds : Prop :=
  (∀ s : State, ∃ t, blockTurn s = .next t) ∧
  (∀ s : State, s.Inv → s.blk.isBusy = true →
    ∃ n t, n ≤ 2 ^ 32 + 8 * s.blk.segSize + 264 ∧ turns n s = .next t ∧
      (t.blk.phase = .done ∨ t.blk.phase = .error))

/-- 42_token_decode.md R177 as an invariant. -/
def Obligations.WorkStaysBounded : Prop :=
  (∀ s t : State, s.Inv → (∀ b ∈ s.instances, WithinWork b) → step s = .next t →
    ∀ b ∈ t.instances, WithinWork b) ∧
  (∀ s t : State, s.Inv → blockTurn s = .next t →
    (s.blk.phase = .busy .init → t.blk.bitsConsumed = 0) ∧
    (s.blk.isBusy = true → WithinWork s.blk → t.blk.phase = .done → t.blk.bitsConsumed ≤ 14 * t.blk.us))

/-- 20_memory.md R71. -/
def Obligations.WritesStayInTheOutput : Prop :=
  ∀ s t : State, s.Inv → s.blk.isBusy = true → blockTurn s = .next t →
    (∀ a, a < s.blk.dstBase.toNat ∨ s.blk.dstBase.toNat + 0x100 + s.blk.us ≤ a →
      t.mem.read a = s.mem.read a) ∧
    (∀ a, s.blk.segStart ≤ a → a < s.blk.segStart + s.blk.segSize → t.mem.read a = s.mem.read a)

/-- 10_state.md R21: the cursor only moves forward through the stream. -/
def Obligations.CursorOnlyMovesForward : Prop :=
  ∀ s t : State, s.Inv →
    s.blk.phase = .busy .token ∨ s.blk.phase = .busy .bref ∨ s.blk.phase = .busy .copy →
    blockTurn s = .next t →
    t.blk.cursor.offset.toNat ≤ s.blk.cursor.offset.toNat ∧ s.blk.bitsConsumed ≤ t.blk.bitsConsumed

/-- 10_state.md R32; it rests on the writes staying out of the segment. -/
def Obligations.PoolHoldsTheLastByte : Prop :=
  ∀ s t : State, s.Inv → blockTurn s = .next t →
    (s.blk.phase = .busy .init → CursorOnStream t) ∧
    (s.blk.phase = .busy .token ∨ s.blk.phase = .busy .bref ∨ s.blk.phase = .busy .copy →
      CursorOnStream s → CursorOnStream t)

/-- 20_memory.md R72: two runs that differ only in the old contents, turn by turn (log 1). -/
def Obligations.OldOutputNeverMatters : Prop :=
  ∀ s s' t t' : State, s.Inv → s'.Inv → SameButStale s s' →
    (∃ i, s.blk.phase = .busy (.hdr i)) ∨ s.blk.phase = .busy .init ∨ s.blk.phase = .busy .token ∨
      s.blk.phase = .busy .bref ∨ s.blk.phase = .busy .copy →
    blockTurn s = .next t → blockTurn s' = .next t' →
    SameButStale t t' ∧ (t.blk.phase = .done → ∀ a, t'.mem.read a = t.mem.read a)

/-- The headline: the machine against the source's algorithm as a function on bits and bytes. -/
def Obligations.DecodeIsTheReferenceFunction : Prop :=
  ∀ s : State, s.Inv → s.blk.phase = .busy .token → CursorOnStream s →
    PayloadAccessible s → OutputAccessible s →
    (∀ out, refLoop s.blk.us (s.blk.us + 1) (unreadBits s) (produced s) = some out →
      ∃ n t, turns n s = .next t ∧ t.blk.phase = .done ∧ produced t = out) ∧
    (refLoop s.blk.us (s.blk.us + 1) (unreadBits s) (produced s) = none →
      ∃ n t, turns n s = .next t ∧ t.blk.phase = .error)

/-- The model's choice (log 5, for Accessible log 6, the order of the instances log 12): 00_scope.md R6 and 10_state.md R42 name the parameters, and 70_reset_and_hazards.md R265 fixes Accessible only while a decode runs. -/
def Obligations.ParametersNeverChange : Prop :=
  ∀ s t : State, step s = .next t →
    t.cfg = s.cfg ∧
    (t.instances.map Block.regBase).Perm (s.instances.map Block.regBase)

/-- The whole decode, 41_segment_framing.md R142 to R156, against the source's interface. -/
def Obligations.DecodeFromStart : Prop :=
  ∀ s : State, s.Inv → s.blk.isBusy = false → startClashes s = false →
    let b := s.blk
    let m (k : Nat) : Byte := s.mem.read (b.segStart + k)
    let us := le32 (m 8) (m 9) (m 10) (m 11)
    let hb := le32 (m 12) (m 13) (m 14) (m 15)
    let sig := beBytes ((List.range 8).map m)
    let bits := (List.range (8 * hb)).map fun k => (m (16 + hb - 1 - k / 8)).getLsbD (7 - k % 8)
    let header := (List.range 0x100).map fun i => m (16 + hb + i)
    let last := b.dstBase.toNat + 0x100 + us
    sig = s.cfg.magic.toNat ∨ sig = 0 → 16 + hb + 0x100 = b.segSize →
    b.segStart + b.segSize ≤ 2 ^ s.cfg.addrW → 0x100 + us ≤ b.dstCap.toNat → last ≤ 2 ^ s.cfg.addrW →
    b.segStart + b.segSize ≤ b.dstBase.toNat ∨ last ≤ b.segStart →
    (∀ a, b.segStart ≤ a → a < b.segStart + b.segSize → accessible s.cfg a = true) →
    (∀ a, b.dstBase.toNat ≤ a → a < last → accessible s.cfg a = true) →
    ∃ t₀ n t, exec .start s = .next t₀ ∧ turns n t₀ = .next t ∧
      (∀ out, refLoop us (us + 1) bits [] = some out →
        t.result = some (.ok (header ++ out.reverse))) ∧
      (refLoop us (us + 1) bits [] = none → ∃ e, t.result = some (.error e))

/-- 10_state.md R42: each instance has its own REG_BASE. Which instance answers where blocks overlap is the model's choice (log 12). -/
def Obligations.AccessesReachTheirInstance : Prop :=
  ∀ (s : State) (k : Nat) (b : Block) (off : Nat), s.parked[k]? = some b → off < 0x68 →
    let a := b.regBase + off
    s.blk.holdsAddr a = false → (∀ j c, j ≠ k → s.parked[j]? = some c → c.holdsAddr a = false) →
    (∀ e v, e = .regRead a ∨ e = .regWrite a v →
      (∀ t, hostEvent e (selectInstance k s) = .next t → hostEvent e s = .next (selectInstance k t)) ∧
      (∀ r, hostEvent e (selectInstance k s) = .refused r → hostEvent e s = .refused r)) ∧
    (off = 0x20 → hostEvent (.regRead a) s = .next { s with hostData := b.srcBase }) ∧
    (off = 0x38 → b.isBusy = false → ∀ v,
      hostEvent (.regWrite a v) s = .next { s with parked := s.parked.set k { b with dstCap := v } }) ∧
    (off = 0 → b.isBusy = false → startClashes (selectInstance k s) = false →
      ∀ v : Word, v.getLsbD 0 = true →
        ∃ t c, hostEvent (.regWrite a v) s = .next t ∧ c.phase = .busy .pre ∧
          t = { s with parked := s.parked.set k c, draws := t.draws })

/-- 20_memory.md R80, as an invariant over every step; it rests on the refusals of log 11 and the regions of log 18. -/
def Obligations.RunningDecodesStayApart : Prop :=
  (∀ s t : State, s.Inv → RunningApart s → step s = .next t → RunningApart t) ∧
  (∀ s t : State, s.Inv → RunningApart s → s.blk.isBusy = true → blockTurn s = .next t →
    ∀ b ∈ s.parked, b.isBusy = true → ∀ a, inSegment b a = true ∨ inOutput s b a = true →
      t.mem.read a = s.mem.read a) ∧
  RunningApart State.reset

/-- 10_state.md R35, the used bits as in R23; where register blocks overlap, that the selected instance answers is the model's choice (log 12). -/
def Obligations.ReservedBitsReadZero : Prop :=
  ∀ s : State, s.Inv →
    ∀ p ∈ [(0x00, 0), (0x08, 3), (0x10, 4), (0x20, s.cfg.addrW), (0x30, s.cfg.addrW), (0x40, 32),
        (0x48, 32), (0x50, 32), (0x58, s.cfg.addrW), (0x60, 12)],
      ∃ t, hostEvent (.regRead (s.blk.regBase + p.1)) s = .next t ∧
        ∀ i, p.2 ≤ i → t.hostData.getLsbD i = false
end

