-- ==== Sys2Proof/Laws/Bits.lean ====
section
/-! SUPPORT. Bit strings and the naturals they spell, and a list of bits as a source. -/

namespace Sys2Proof

@[simp] theorem beNat_nil : beNat [] = 0 := rfl

theorem beNat_foldl (bits : List Bool) (a : Nat) :
    bits.foldl (fun acc b => 2 * acc + b.toNat) a = a * 2 ^ bits.length + beNat bits := by
  induction bits generalizing a with
  | nil => simp
  | cons b bits ih =>
    simp only [beNat, List.foldl_cons, List.length_cons]
    rw [ih, ih (2 * 0 + b.toNat), pow_succ]
    ring

theorem beNat_append (xs ys : List Bool) : beNat (xs ++ ys) = beNat xs * 2 ^ ys.length + beNat ys := by
  simp only [beNat, List.foldl_append]
  exact beNat_foldl ys _

theorem beNat_cons (b : Bool) (bits : List Bool) :
    beNat (b :: bits) = b.toNat * 2 ^ bits.length + beNat bits := by
  simpa [beNat] using beNat_append [b] bits

theorem beNat_lt (bits : List Bool) : beNat bits < 2 ^ bits.length := by
  induction bits with
  | nil => simp
  | cons b bits ih =>
    rw [beNat_cons, List.length_cons, pow_succ]
    have : b.toNat ≤ 1 := by cases b <;> simp
    nlinarith

@[simp] theorem bitsOf_length (w v : Nat) : (bitsOf w v).length = w := by simp [bitsOf]

theorem bitsOf_succ (w v : Nat) : bitsOf (w + 1) v = bitsOf w (v / 2) ++ [v.testBit 0] := by
  simp only [bitsOf, List.range_succ, List.map_append, List.map_cons, List.map_nil]
  congr 1
  · apply List.map_congr_left
    intro i hi
    have : i < w := List.mem_range.1 hi
    rw [← Nat.testBit_succ]
    congr 1
    omega
  · simp

/-- The natural a value's bits spell. -/
theorem beNat_bitsOf (w v : Nat) : beNat (bitsOf w v) = v % 2 ^ w := by
  induction w generalizing v with
  | zero => simp [bitsOf, Nat.mod_one]
  | succ w ih =>
    rw [bitsOf_succ, beNat_append, ih, pow_succ, mul_comm (2 ^ w) 2, Nat.mod_mul]
    simp only [List.length_cons, List.length_nil, beNat, List.foldl_cons, List.foldl_nil,
      Nat.testBit_zero]
    have : (decide (v % 2 = 1)).toNat = v % 2 := by
      rcases Nat.mod_two_eq_zero_or_one v with h | h <;> simp [h]
    omega

/-- A bit string is the string of the natural it spells. -/
theorem bitsOf_beNat (bits : List Bool) : bitsOf bits.length (beNat bits) = bits := by
  induction bits using List.reverseRecOn with
  | nil => rfl
  | append_singleton bits b ih =>
    rw [List.length_append, List.length_singleton, bitsOf_succ, beNat_append]
    have h1 : (beNat bits * 2 ^ [b].length + beNat [b]) / 2 = beNat bits := by
      cases b <;> (simp [beNat_cons]; try omega)
    have h2 : (beNat bits * 2 ^ [b].length + beNat [b]).testBit 0 = b := by
      rw [Nat.testBit_zero]; cases b <;> simp [beNat_cons]
    rw [h1, h2, ih]

theorem beNat_injective {xs ys : List Bool} (hl : xs.length = ys.length) (h : beNat xs = beNat ys) :
    xs = ys := by
  rw [← bitsOf_beNat xs, ← bitsOf_beNat ys, hl, h]

@[simp] theorem ones_length (n : Nat) : (ones n).length = n := by simp [ones]

theorem beNat_ones (n : Nat) : beNat (ones n) = 2 ^ n - 1 := by
  induction n with
  | zero => rfl
  | succ n ih =>
    have : ones (n + 1) = true :: ones n := rfl
    rw [this, beNat_cons, ih, ones_length, pow_succ]
    have := Nat.one_le_two_pow (n := n)
    simp only [Bool.toNat_true]
    omega

/-- A list source gives the first n bits when it has them. -/
theorem listBits_append (xs rest : List Bool) :
    listBits xs.length (xs ++ rest) = .ok (beNat xs) rest := by
  simp [listBits]

theorem listBits_eq_ok {n v : Nat} {bits rest : List Bool} (h : listBits n bits = .ok v rest) :
    ∃ xs, xs.length = n ∧ bits = xs ++ rest ∧ v = beNat xs := by
  unfold listBits at h
  split at h
  · cases h
  · cases h
    exact ⟨bits.take n, by simp; omega, by simp, rfl⟩

theorem listBits_length {n v : Nat} {bits rest : List Bool} (h : listBits n bits = .ok v rest) :
    bits.length = n + rest.length := by
  obtain ⟨xs, hl, rfl, _⟩ := listBits_eq_ok h
  rw [List.length_append, hl]

theorem listBits_eq_raised {n : Nat} {bits rest : List Bool} (h : listBits n bits = .raised rest) :
    bits.length < n := by
  unfold listBits at h
  split at h
  · assumption
  · cases h

/-- A field that stands first is read back. -/
theorem listBits_bitsOf {w v : Nat} (h : v < 2 ^ w) (rest : List Bool) :
    listBits w (bitsOf w v ++ rest) = .ok v rest := by
  have e := listBits_append (bitsOf w v) rest
  rwa [bitsOf_length, beNat_bitsOf, Nat.mod_eq_of_lt h] at e

theorem listBits_ones (w : Nat) (rest : List Bool) :
    listBits w (ones w ++ rest) = .ok (2 ^ w - 1) rest := by
  have e := listBits_append (ones w) rest
  rwa [ones_length, beNat_ones] at e

end Sys2Proof
end

