-- ==== Sys2Proof/Laws/State.lean ====
section
/-! SUPPORT. One lemma per field of State for each update of Machine/Ops.lean, true by rfl. The
selected instance after an update is a record update of the one before, which simp reads field by
field. -/

namespace Sys2Proof.Machine

variable (s : State)

@[simp] theorem setBlk_blk (b : Block) : (s.setBlk b).blk = b := rfl
@[simp] theorem setBlk_cfg (b : Block) : (s.setBlk b).cfg = s.cfg := rfl
@[simp] theorem setBlk_parked (b : Block) : (s.setBlk b).parked = s.parked := rfl
@[simp] theorem setBlk_mem (b : Block) : (s.setBlk b).mem = s.mem := rfl
@[simp] theorem setBlk_inbox (b : Block) : (s.setBlk b).inbox = s.inbox := rfl
@[simp] theorem setBlk_hostData (b : Block) : (s.setBlk b).hostData = s.hostData := rfl
@[simp] theorem setBlk_draws (b : Block) : (s.setBlk b).draws = s.draws := rfl

@[simp] theorem setPhase_blk (p : Phase) : (s.setPhase p).blk = { s.blk with phase := p } := rfl
@[simp] theorem setPhase_cfg (p : Phase) : (s.setPhase p).cfg = s.cfg := rfl
@[simp] theorem setPhase_parked (p : Phase) : (s.setPhase p).parked = s.parked := rfl
@[simp] theorem setPhase_mem (p : Phase) : (s.setPhase p).mem = s.mem := rfl
@[simp] theorem setPhase_inbox (p : Phase) : (s.setPhase p).inbox = s.inbox := rfl
@[simp] theorem setPhase_hostData (p : Phase) : (s.setPhase p).hostData = s.hostData := rfl
@[simp] theorem setPhase_draws (p : Phase) : (s.setPhase p).draws = s.draws := rfl

@[simp] theorem setCursor_blk (c : Cursor) : (s.setCursor c).blk = { s.blk with cursor := c } := rfl
@[simp] theorem setCursor_cfg (c : Cursor) : (s.setCursor c).cfg = s.cfg := rfl
@[simp] theorem setCursor_parked (c : Cursor) : (s.setCursor c).parked = s.parked := rfl
@[simp] theorem setCursor_mem (c : Cursor) : (s.setCursor c).mem = s.mem := rfl
@[simp] theorem setCursor_inbox (c : Cursor) : (s.setCursor c).inbox = s.inbox := rfl
@[simp] theorem setCursor_hostData (c : Cursor) : (s.setCursor c).hostData = s.hostData := rfl
@[simp] theorem setCursor_draws (c : Cursor) : (s.setCursor c).draws = s.draws := rfl

@[simp] theorem setLatches_blk (l : Latches) : (s.setLatches l).blk = { s.blk with latches := l } := rfl
@[simp] theorem setLatches_cfg (l : Latches) : (s.setLatches l).cfg = s.cfg := rfl
@[simp] theorem setLatches_parked (l : Latches) : (s.setLatches l).parked = s.parked := rfl
@[simp] theorem setLatches_mem (l : Latches) : (s.setLatches l).mem = s.mem := rfl
@[simp] theorem setLatches_inbox (l : Latches) : (s.setLatches l).inbox = s.inbox := rfl
@[simp] theorem setLatches_hostData (l : Latches) : (s.setLatches l).hostData = s.hostData := rfl
@[simp] theorem setLatches_draws (l : Latches) : (s.setLatches l).draws = s.draws := rfl

@[simp] theorem setSizes_blk (u h : BitVec 32) : (s.setSizes u h).blk = { s.blk with uncompSize := u, hbRelOff := h } := rfl
@[simp] theorem setSizes_cfg (u h : BitVec 32) : (s.setSizes u h).cfg = s.cfg := rfl
@[simp] theorem setSizes_parked (u h : BitVec 32) : (s.setSizes u h).parked = s.parked := rfl
@[simp] theorem setSizes_mem (u h : BitVec 32) : (s.setSizes u h).mem = s.mem := rfl
@[simp] theorem setSizes_inbox (u h : BitVec 32) : (s.setSizes u h).inbox = s.inbox := rfl
@[simp] theorem setSizes_hostData (u h : BitVec 32) : (s.setSizes u h).hostData = s.hostData := rfl
@[simp] theorem setSizes_draws (u h : BitVec 32) : (s.setSizes u h).draws = s.draws := rfl

@[simp] theorem setBytesOut_blk (n : BitVec 32) : (s.setBytesOut n).blk = { s.blk with bytesOut := n } := rfl
@[simp] theorem setBytesOut_cfg (n : BitVec 32) : (s.setBytesOut n).cfg = s.cfg := rfl
@[simp] theorem setBytesOut_parked (n : BitVec 32) : (s.setBytesOut n).parked = s.parked := rfl
@[simp] theorem setBytesOut_mem (n : BitVec 32) : (s.setBytesOut n).mem = s.mem := rfl
@[simp] theorem setBytesOut_inbox (n : BitVec 32) : (s.setBytesOut n).inbox = s.inbox := rfl
@[simp] theorem setBytesOut_hostData (n : BitVec 32) : (s.setBytesOut n).hostData = s.hostData := rfl
@[simp] theorem setBytesOut_draws (n : BitVec 32) : (s.setBytesOut n).draws = s.draws := rfl

@[simp] theorem setMem_mem (m : Memory) : (s.setMem m).mem = m := rfl
@[simp] theorem setMem_blk (m : Memory) : (s.setMem m).blk = s.blk := rfl
@[simp] theorem setMem_cfg (m : Memory) : (s.setMem m).cfg = s.cfg := rfl
@[simp] theorem setMem_parked (m : Memory) : (s.setMem m).parked = s.parked := rfl
@[simp] theorem setMem_inbox (m : Memory) : (s.setMem m).inbox = s.inbox := rfl
@[simp] theorem setMem_hostData (m : Memory) : (s.setMem m).hostData = s.hostData := rfl
@[simp] theorem setMem_draws (m : Memory) : (s.setMem m).draws = s.draws := rfl

@[simp] theorem raise_blk (e : ErrCode) (info : Nat) : (raise e info s).blk =
    { s.blk with errCode := e, errInfo := BitVec.ofNat 64 info, phase := .error } := rfl
@[simp] theorem raise_cfg (e : ErrCode) (info : Nat) : (raise e info s).cfg = s.cfg := rfl
@[simp] theorem raise_parked (e : ErrCode) (info : Nat) : (raise e info s).parked = s.parked := rfl
@[simp] theorem raise_mem (e : ErrCode) (info : Nat) : (raise e info s).mem = s.mem := rfl
@[simp] theorem raise_inbox (e : ErrCode) (info : Nat) : (raise e info s).inbox = s.inbox := rfl
@[simp] theorem raise_hostData (e : ErrCode) (info : Nat) : (raise e info s).hostData = s.hostData := rfl
@[simp] theorem raise_draws (e : ErrCode) (info : Nat) : (raise e info s).draws = s.draws := rfl

@[simp] theorem forgetLatches_blk : (forgetLatches s).blk =
    { s.blk with latches := ⟨Config.freeDist s.draws, Config.freeBrIdx s.draws,
      Config.freeLen s.draws, Config.freeLvl s.draws⟩ } := rfl
@[simp] theorem forgetLatches_draws : (forgetLatches s).draws = s.draws + 1 := rfl
@[simp] theorem forgetLatches_cfg : (forgetLatches s).cfg = s.cfg := rfl
@[simp] theorem forgetLatches_parked : (forgetLatches s).parked = s.parked := rfl
@[simp] theorem forgetLatches_mem : (forgetLatches s).mem = s.mem := rfl
@[simp] theorem forgetLatches_inbox : (forgetLatches s).inbox = s.inbox := rfl
@[simp] theorem forgetLatches_hostData : (forgetLatches s).hostData = s.hostData := rfl

@[simp] theorem endToken_blk : (endToken s).blk =
    { s.blk with
      phase := .busy .token
      latches := ⟨Config.freeDist s.draws, Config.freeBrIdx s.draws,
        Config.freeLen s.draws, Config.freeLvl s.draws⟩ } := rfl
@[simp] theorem endToken_draws : (endToken s).draws = s.draws + 1 := rfl
@[simp] theorem endToken_cfg : (endToken s).cfg = s.cfg := rfl
@[simp] theorem endToken_parked : (endToken s).parked = s.parked := rfl
@[simp] theorem endToken_mem : (endToken s).mem = s.mem := rfl
@[simp] theorem endToken_inbox : (endToken s).inbox = s.inbox := rfl
@[simp] theorem endToken_hostData : (endToken s).hostData = s.hostData := rfl

/-- Putting back what is there changes nothing. -/
@[simp] theorem setCursor_self : s.setCursor s.blk.cursor = s := rfl

@[simp] theorem setCursor_setCursor (c d : Cursor) : (s.setCursor c).setCursor d = s.setCursor d := rfl

@[simp] theorem setLatches_setLatches (k l : Latches) :
    (s.setLatches k).setLatches l = s.setLatches l := rfl

theorem setLatches_setCursor (c : Cursor) (l : Latches) :
    (s.setCursor c).setLatches l = (s.setLatches l).setCursor c := rfl

@[simp] theorem finalState_ok (u : Unit) : finalState (.ok u s) = s := rfl
@[simp] theorem finalState_raised : finalState (.raised s) = s := rfl

variable {σ α β : Type}

@[simp] theorem bind_ok (a : α) (x : σ) (f : α → σ → Res σ β) : (Res.ok a x).bind f = f a x := rfl
@[simp] theorem bind_raised (x : σ) (f : α → σ → Res σ β) : (Res.raised x).bind f = .raised x := rfl

/-- A chain that ends well ran its first part well. -/
theorem bind_eq_ok {r : Res σ α} {f : α → σ → Res σ β} {b : β} {y : σ} (h : r.bind f = .ok b y) :
    ∃ a x, r = .ok a x ∧ f a x = .ok b y := by
  cases r with
  | ok a x => exact ⟨a, x, rfl, h⟩
  | raised x => cases h

/-- A chain that raised did so in its first part or after it. -/
theorem bind_eq_raised {r : Res σ α} {f : α → σ → Res σ β} {y : σ} (h : r.bind f = .raised y) :
    r = .raised y ∨ ∃ a x, r = .ok a x ∧ f a x = .raised y := by
  cases r with
  | ok a x => exact .inr ⟨a, x, rfl, h⟩
  | raised x => cases h; exact .inl rfl

end Sys2Proof.Machine
end

