-- ==== Sys2Proof/Laws/Memory.lean ====
section
/-! SUPPORT. Memory: read after write, and that every operation keeps the canonical form. -/

namespace Sys2Proof.Machine

/-- Nothing is listed at an address below all listed ones. -/
theorem read_of_lt {m : Memory} {x : Nat} (h : ∀ c ∈ m, x < c.1) : m.read x = unlisted := by
  induction m with
  | nil => rfl
  | cons c m ih =>
    have hx := h c (by simp)
    simp only [Memory.read]
    rw [if_neg (by omega)]
    exact ih fun d hd => h d (by simp [hd])

/-- Every listed address after a write is the written one or was listed. -/
theorem mem_write {m : Memory} {x : Nat} {v : Byte} {c : Host.Cell} (h : c ∈ m.write x v) :
    (c = (x, v) ∧ v ≠ unlisted) ∨ c ∈ m := by
  induction m with
  | nil =>
    simp only [Memory.write] at h
    split at h
    · simp at h
    · exact .inl ⟨by simpa using h, ‹_›⟩
  | cons d m ih =>
    simp only [Memory.write] at h
    split at h
    · split at h
      · exact .inr h
      · rcases List.mem_cons.1 h with h | h
        · exact .inl ⟨h, ‹_›⟩
        · exact .inr h
    · split at h
      · split at h
        · exact .inr (by simp [h])
        · rcases List.mem_cons.1 h with h | h
          · exact .inl ⟨h, ‹_›⟩
          · exact .inr (by simp [h])
      · rcases List.mem_cons.1 h with h | h
        · exact .inr (by simp [h])
        · rcases ih h with h | h
          · exact .inl h
          · exact .inr (by simp [h])

/-- A write keeps the canonical form. -/
theorem write_wf {m : Memory} (x : Nat) (v : Byte) (h : m.wf) : (m.write x v).wf := by
  induction m with
  | nil =>
    simp only [Memory.write]
    split
    · exact h
    · exact ⟨by simp, by simpa using ‹_›⟩
  | cons d m ih =>
    obtain ⟨hp, hn⟩ := h
    have hd := (List.pairwise_cons.1 hp).1
    have hm : Memory.wf m := ⟨(List.pairwise_cons.1 hp).2, fun c hc => hn c (by simp [hc])⟩
    simp only [Memory.write]
    split
    · split
      · exact ⟨hp, hn⟩
      · refine ⟨List.pairwise_cons.2 ⟨fun c hc => ?_, hp⟩, fun c hc => ?_⟩
        · rcases List.mem_cons.1 hc with rfl | hc
          · assumption
          · have := hd c hc; simp only; omega
        · rcases List.mem_cons.1 hc with rfl | hc
          · assumption
          · exact hn c hc
    · split
      · split
        · exact hm
        · refine ⟨List.pairwise_cons.2 ⟨fun c hc => ?_, hm.1⟩, fun c hc => ?_⟩
          · have := hd c hc; simp only; omega
          · rcases List.mem_cons.1 hc with rfl | hc
            · assumption
            · exact hm.2 c hc
      · refine ⟨List.pairwise_cons.2 ⟨fun c hc => ?_, (ih hm).1⟩, fun c hc => ?_⟩
        · rcases mem_write hc with ⟨rfl, _⟩ | hc
          · simp only; omega
          · exact hd c hc
        · rcases List.mem_cons.1 hc with rfl | hc
          · exact hn _ (by simp)
          · exact (ih hm).2 c hc

/-- Read after write: the written byte at its address, every other byte as before. -/
theorem read_write {m : Memory} (h : m.wf) (x : Nat) (v : Byte) (y : Nat) :
    (m.write x v).read y = if y = x then v else m.read y := by
  induction m with
  | nil =>
    simp only [Memory.write]
    split
    · simp only [Memory.read]
      split <;> simp_all
    · simp only [Memory.read]
  | cons d m ih =>
    obtain ⟨hp, hn⟩ := h
    have hd := (List.pairwise_cons.1 hp).1
    have hm : Memory.wf m := ⟨(List.pairwise_cons.1 hp).2, fun c hc => hn c (by simp [hc])⟩
    simp only [Memory.write]
    split
    · split
      · rename_i hlt hv
        by_cases hy : y = x
        · subst hy
          rw [if_pos rfl, hv]
          exact read_of_lt fun c hc => by
            rcases List.mem_cons.1 hc with rfl | hc
            · exact hlt
            · exact lt_trans hlt (hd c hc)
        · rw [if_neg hy]
      · simp only [Memory.read]
    · split
      · rename_i hlt hx
        subst hx
        split
        · rename_i hv
          by_cases hy : y = d.1
          · subst hy
            rw [if_pos rfl, hv]
            exact read_of_lt fun c hc => hd c hc
          · simp [Memory.read, hy]
        · simp only [Memory.read]
          by_cases hy : y = d.1 <;> simp [hy]
      · simp only [Memory.read]
        by_cases hy : y = d.1
        · simp only [if_pos hy]
          rw [if_neg (by omega)]
        · simp only [if_neg hy]
          exact ih hm

@[simp] theorem read_write_same {m : Memory} (h : m.wf) (x : Nat) (v : Byte) :
    (m.write x v).read x = v := by rw [read_write h, if_pos rfl]

theorem read_write_other {m : Memory} (h : m.wf) {x y : Nat} (v : Byte) (hy : y ≠ x) :
    (m.write x v).read y = m.read y := by rw [read_write h, if_neg hy]

/-- The empty memory of reset is in canonical form. -/
theorem nil_wf : Memory.wf [] := ⟨by simp, by simp⟩

/-- Writing a list of bytes keeps the canonical form. -/
theorem writeDown_wf {m : Memory} (vs : List Byte) (a : Nat) (h : m.wf) : (m.writeDown a vs).wf := by
  induction vs generalizing m a with
  | nil => exact h
  | cons v vs ih => exact ih _ (write_wf a v h)

end Sys2Proof.Machine
end

