-- ==== Sys2Proof/Laws/BitReader.lean ====
section
/-! SUPPORT. Everything READ_BITS can do (40_bit_reader.md R120): what it leaves alone in any state,
and what it delivers when the cursor stands in the stream. -/

namespace Sys2Proof.Machine

/-- An error of the bit reader: SOURCE_UNDERFLOW or SOURCE_READ_FAILURE with OFFSET as its
information, after a change of the cursor only. -/
def ReaderError (s t : State) : Prop :=
  ∃ c e, (e = .sourceUnderflow ∨ e = .sourceReadFailure) ∧
    t = raise e c.offset.toNat (s.setCursor c)

theorem ReaderError.of_setCursor {s t : State} {c : Cursor} (h : ReaderError (s.setCursor c) t) :
    ReaderError s t := by
  obtain ⟨d, e, he, rfl⟩ := h
  exact ⟨d, e, he, rfl⟩

/-- What a fetch does: nothing while bits are left; else one byte into the pool. -/
theorem fillPool_ok {s t : State} {u : Unit} (h : fillPool s = .ok u t) :
    (s.blk.cursor.bitsLeft ≠ 0 ∧ t = s) ∨
    (s.blk.cursor.bitsLeft = 0 ∧ s.blk.payloadStart ≤ s.blk.cursor.offset.toNat ∧
      accessible s.cfg s.blk.cursor.offset.toNat = true ∧
      t = s.setCursor ⟨s.blk.cursor.offset - 1, s.mem.read s.blk.cursor.offset.toNat, 8⟩) := by
  unfold fillPool at h
  split at h
  · split at h
    · cases h
    · obtain ⟨b, x, hb, hx⟩ := bind_eq_ok h
      unfold srcRead at hb
      split at hb
      · cases hb
        cases hx
        exact .inr ⟨‹_›, by omega, ‹_›, rfl⟩
      · cases hb
  · cases h
    exact .inl ⟨‹_›, rfl⟩

/-- How a fetch fails, with the cursor as it was (40_bit_reader.md R123, R124). -/
theorem fillPool_raised {s t : State} (h : fillPool s = .raised t) :
    s.blk.cursor.bitsLeft = 0 ∧
    ((s.blk.cursor.offset.toNat < s.blk.payloadStart ∧
        t = raise .sourceUnderflow s.blk.cursor.offset.toNat s) ∨
      (s.blk.payloadStart ≤ s.blk.cursor.offset.toNat ∧
        accessible s.cfg s.blk.cursor.offset.toNat = false ∧
        t = raise .sourceReadFailure s.blk.cursor.offset.toNat s)) := by
  unfold fillPool at h
  split at h
  · refine ⟨‹_›, ?_⟩
    split at h
    · cases h
      exact .inl ⟨‹_›, rfl⟩
    · rcases bind_eq_raised h with h | ⟨b, x, _, hx⟩
      · unfold srcRead at h
        split at h
        · cases h
        · cases h
          exact .inr ⟨by omega, eq_false_of_ne_true ‹¬ accessible _ _ = true›, rfl⟩
      · cases hx
  · cases h

/-- After a good fetch there is a bit to take. -/
theorem fillPool_bitsLeft {s t : State} {u : Unit} (h : fillPool s = .ok u t) :
    0 < t.blk.cursor.bitsLeft.val := by
  rcases fillPool_ok h with ⟨hn, rfl⟩ | ⟨_, _, _, rfl⟩
  · exact Nat.pos_of_ne_zero fun h0 => hn (Fin.ext h0)
  · simp

@[simp] theorem drop_offset (c : Cursor) (n : Nat) : (c.drop n).offset = c.offset := rfl
@[simp] theorem drop_pool (c : Cursor) (n : Nat) : (c.drop n).pool = c.pool := rfl
@[simp] theorem drop_bitsLeft (c : Cursor) (n : Nat) : (c.drop n).bitsLeft.val = c.bitsLeft.val - n := rfl

/-- The loop in any state: it changes the cursor only, or raises. -/
theorem readBitsLoop_frame (fuel need acc : Nat) (s : State) :
    (∃ v t, readBitsLoop fuel need acc s = .ok v t ∧ ∃ c, t = s.setCursor c) ∨
    (∃ t, readBitsLoop fuel need acc s = .raised t ∧ ReaderError s t) := by
  induction fuel generalizing need acc s with
  | zero => exact .inl ⟨_, _, rfl, s.blk.cursor, by simp⟩
  | succ fuel ih =>
    unfold readBitsLoop
    split
    · exact .inl ⟨_, _, rfl, s.blk.cursor, by simp⟩
    · cases hf : fillPool s with
      | raised t =>
        obtain ⟨_, h⟩ := fillPool_raised hf
        rcases h with ⟨_, rfl⟩ | ⟨_, _, rfl⟩
        · exact .inr ⟨_, rfl, s.blk.cursor, _, .inl rfl, rfl⟩
        · exact .inr ⟨_, rfl, s.blk.cursor, _, .inr rfl, rfl⟩
      | ok u x =>
        simp only [bind_ok]
        obtain ⟨c, rfl⟩ : ∃ c, x = s.setCursor c := by
          rcases fillPool_ok hf with ⟨_, rfl⟩ | ⟨_, _, _, rfl⟩
          · exact ⟨x.blk.cursor, by simp⟩
          · exact ⟨_, rfl⟩
        rcases ih (need - min (s.setCursor c).blk.cursor.bitsLeft.val need) _
          ((s.setCursor c).setCursor ((s.setCursor c).blk.cursor.drop
            (min (s.setCursor c).blk.cursor.bitsLeft.val need))) with
          ⟨v, t, h, d, rfl⟩ | ⟨t, h, he⟩
        · exact .inl ⟨v, _, h, d, rfl⟩
        · exact .inr ⟨t, h, he.of_setCursor.of_setCursor⟩

/-- 40_bit_reader.md R127, in any state: a good request changes the cursor only. -/
theorem readBits_ok_frame {n v : Nat} {s t : State} (h : readBits n s = .ok v t) :
    t = s.setCursor t.blk.cursor := by
  rcases readBitsLoop_frame n n 0 s with ⟨v', t', h', c, rfl⟩ | ⟨t', h', _⟩
  · rw [readBits, h'] at h
    cases h
    rfl
  · rw [readBits, h'] at h
    cases h

/-- In any state: a request that fails changes the cursor and takes the error entry. -/
theorem readBits_raised_frame {n : Nat} {s t : State} (h : readBits n s = .raised t) :
    ReaderError s t := by
  rcases readBitsLoop_frame n n 0 s with ⟨v', t', h', c, rfl⟩ | ⟨t', h', he⟩
  · rw [readBits, h'] at h
    cases h
  · rw [readBits, h'] at h
    cases h
    exact he

/-- The loop's result, in any state: below 2 to the bits it has. -/
theorem readBitsLoop_lt (fuel need acc a : Nat) (ha : acc < 2 ^ a) {s t : State} {v : Nat}
    (h : readBitsLoop fuel need acc s = .ok v t) : v < 2 ^ (a + need) := by
  induction fuel generalizing need acc a s with
  | zero =>
    cases h
    exact lt_of_lt_of_le ha (Nat.pow_le_pow_right (by norm_num) (by omega))
  | succ fuel ih =>
    unfold readBitsLoop at h
    split at h
    · cases h
      exact lt_of_lt_of_le ha (Nat.pow_le_pow_right (by norm_num) (by omega))
    · obtain ⟨u, x, _, h⟩ := bind_eq_ok h
      have hacc : acc <<< min x.blk.cursor.bitsLeft.val need |||
          x.blk.cursor.taken (min x.blk.cursor.bitsLeft.val need) <
          2 ^ (a + min x.blk.cursor.bitsLeft.val need) := by
        apply Nat.or_lt_two_pow
        · rw [Nat.shiftLeft_eq, pow_add]
          exact Nat.mul_lt_mul_of_pos_right ha (by positivity)
        · rw [Cursor.taken, Nat.and_two_pow_sub_one_eq_mod]
          exact lt_of_lt_of_le (Nat.mod_lt _ (by positivity))
            (Nat.pow_le_pow_right (by norm_num) (by omega))
      have := ih _ _ _ hacc h
      rwa [show a + min x.blk.cursor.bitsLeft.val need +
        (need - min x.blk.cursor.bitsLeft.val need) = a + need by omega] at this

/-- 00_scope.md R13: READ_BITS(n) returns a natural below 2^n, in any state. -/
theorem readBits_lt {n v : Nat} {s t : State} (h : readBits n s = .ok v t) : v < 2 ^ n := by
  simpa using readBitsLoop_lt n n 0 0 (by norm_num) h

/-- OFFSET - 1 after a fetch at or above S + 16. -/
theorem fetch_offset {s : State} (h : s.blk.payloadStart ≤ s.blk.cursor.offset.toNat) :
    (s.blk.cursor.offset - 1).toNat + 1 = s.blk.cursor.offset.toNat := by
  have := s.blk.cursor.offset.isLt
  unfold Block.payloadStart at h
  rw [BitVec.toNat_sub]
  simp
  omega

/-- A fetch leaves the bits that remain as they were, in any state. -/
theorem fillPool_remaining {s t : State} {u : Unit} (h : fillPool s = .ok u t) :
    t.blk.bitsRemaining = s.blk.bitsRemaining := by
  rcases fillPool_ok h with ⟨_, rfl⟩ | ⟨h0, hge, _, rfl⟩
  · rfl
  · have hsub := fetch_offset hge
    have hbl : s.blk.cursor.bitsLeft.val = 0 := by rw [h0]; rfl
    have h8 : ((8 : Fin 9).val) = 8 := rfl
    have hps : ({ s.blk with cursor :=
      ⟨s.blk.cursor.offset - 1, s.mem.read s.blk.cursor.offset.toNat, 8⟩ } : Block).payloadStart =
        s.blk.payloadStart := rfl
    simp only [Block.bitsRemaining, setCursor_blk, hbl, h8, hps]
    omega

/-- Each good request uses up n of the bits that remain, in any state. -/
theorem readBitsLoop_remaining (fuel need acc : Nat) (hf : need ≤ fuel) {s t : State} {v : Nat}
    (h : readBitsLoop fuel need acc s = .ok v t) :
    t.blk.bitsRemaining + need = s.blk.bitsRemaining := by
  induction fuel generalizing need acc s with
  | zero =>
    obtain rfl : need = 0 := by omega
    cases h
    rfl
  | succ fuel ih =>
    unfold readBitsLoop at h
    split at h
    · rename_i hz
      subst hz
      cases h
      rfl
    · obtain ⟨u, x, hx, h⟩ := bind_eq_ok h
      have hpos := fillPool_bitsLeft hx
      have hrem := fillPool_remaining hx
      have := ih _ _ (by omega) h
      have hd : (x.setCursor (x.blk.cursor.drop (min x.blk.cursor.bitsLeft.val need))).blk.bitsRemaining +
          min x.blk.cursor.bitsLeft.val need = x.blk.bitsRemaining := by
        simp only [Block.bitsRemaining, setCursor_blk, drop_offset, drop_bitsLeft, Block.payloadStart,
          Block.segStart]
        omega
      omega

theorem readBits_remaining {n v : Nat} {s t : State} (h : readBits n s = .ok v t) :
    t.blk.bitsRemaining + n = s.blk.bitsRemaining :=
  readBitsLoop_remaining n n 0 le_rfl h

/-! ## On the stream -/

theorem streamBits_length (s : State) (p n : Nat) : (streamBits s p n).length = n := by
  simp [streamBits]

theorem streamBits_add (s : State) (p n m : Nat) :
    streamBits s p (n + m) = streamBits s p n ++ streamBits s (p + n) m := by
  simp only [streamBits, List.range_add, List.map_append, List.map_map]
  congr 1
  apply List.map_congr_left
  intro j _
  simp [Nat.add_assoc]

/-- The stream is the same wherever the cursor stands. -/
theorem streamBits_congr {s t : State} (hm : t.mem = s.mem) (he : t.blk.payloadEnd = s.blk.payloadEnd)
    (p n : Nat) : streamBits t p n = streamBits s p n := by
  simp [streamBits, streamBit, hm, he]

@[simp] theorem payloadEnd_setCursor (b : Block) (c : Cursor) :
    ({ b with cursor := c } : Block).payloadEnd = b.payloadEnd := rfl
@[simp] theorem payloadStart_setCursor (b : Block) (c : Cursor) :
    ({ b with cursor := c } : Block).payloadStart = b.payloadStart := rfl
@[simp] theorem segStart_setCursor (b : Block) (c : Cursor) :
    ({ b with cursor := c } : Block).segStart = b.segStart := rfl

/-- The bits a request takes from the pool are the top bits not yet consumed. -/
theorem taken_eq (c : Cursor) {n : Nat} (h : n ≤ c.bitsLeft.val) :
    c.taken n = beNat ((List.range n).map fun j => c.pool.getLsbD (c.bitsLeft.val - 1 - j)) := by
  have e : ((List.range n).map fun j => c.pool.getLsbD (c.bitsLeft.val - 1 - j)) =
      bitsOf n (c.pool.toNat >>> (c.bitsLeft.val - n)) := by
    apply List.map_congr_left
    intro j hj
    have hj : j < n := List.mem_range.1 hj
    rw [Nat.testBit_shiftRight]
    have : c.bitsLeft.val - n + (n - 1 - j) = c.bitsLeft.val - 1 - j := by omega
    rw [this]
    simp [BitVec.getLsbD]
  rw [e, beNat_bitsOf, Cursor.taken, Nat.and_two_pow_sub_one_eq_mod]

/-- Taking bits from the pool keeps the cursor in range and adds them to P (10_state.md R32). -/
theorem inRange_drop {b : Block} (h : CursorInRange b) {n : Nat} (hn : n ≤ b.cursor.bitsLeft.val) :
    CursorInRange { b with cursor := b.cursor.drop n } ∧
    ({ b with cursor := b.cursor.drop n } : Block).bitsConsumed = b.bitsConsumed + n := by
  obtain ⟨ha, hb, hf⟩ := h
  refine ⟨⟨ha, hb, ?_⟩, ?_⟩
  · simp only [drop_offset, drop_bitsLeft, payloadEnd_setCursor]
    omega
  · simp only [Block.bitsConsumed, drop_offset, drop_bitsLeft, payloadEnd_setCursor]
    omega

/-- A fetch keeps the cursor in range and P as it was (10_state.md R32). -/
theorem inRange_fill {s t : State} {u : Unit} (h : CursorInRange s.blk) (hf : fillPool s = .ok u t) :
    CursorInRange t.blk ∧ t.blk.bitsConsumed = s.blk.bitsConsumed ∧
    t.blk.cursor.offset.toNat ≤ s.blk.cursor.offset.toNat := by
  rcases fillPool_ok hf with ⟨_, rfl⟩ | ⟨h0, hge, _, rfl⟩
  · exact ⟨h, rfl, le_rfl⟩
  · obtain ⟨ha, hb, hf'⟩ := h
    have hsub := fetch_offset hge
    have hbl : s.blk.cursor.bitsLeft.val = 0 := by rw [h0]; rfl
    have hps : s.blk.payloadStart = s.blk.segStart + 16 := rfl
    have h8 : ((8 : Fin 9).val) = 8 := rfl
    refine ⟨⟨?_, ?_, ?_⟩, ?_, ?_⟩
    · simp only [setCursor_blk, segStart_setCursor]; omega
    · simp only [setCursor_blk, payloadEnd_setCursor]; omega
    · simp only [setCursor_blk, payloadEnd_setCursor, h8]; omega
    · simp only [Block.bitsConsumed, setCursor_blk, payloadEnd_setCursor, hbl, h8]
      omega
    · simp only [setCursor_blk]; omega

/-- The loop keeps the cursor in range; P grows by what it takes, OFFSET only goes down. -/
theorem readBitsLoop_inRange (fuel need acc : Nat) {s : State} (h : CursorInRange s.blk) :
    (∀ v t, need ≤ fuel → readBitsLoop fuel need acc s = .ok v t → CursorInRange t.blk ∧
      t.blk.bitsConsumed = s.blk.bitsConsumed + need ∧
      t.blk.cursor.offset.toNat ≤ s.blk.cursor.offset.toNat) ∧
    (∀ t, readBitsLoop fuel need acc s = .raised t → CursorInRange t.blk ∧
      s.blk.bitsConsumed ≤ t.blk.bitsConsumed ∧
      t.blk.cursor.offset.toNat ≤ s.blk.cursor.offset.toNat) := by
  induction fuel generalizing need acc s with
  | zero =>
    refine ⟨fun v t hn hr => ?_, fun t hr => by cases hr⟩
    obtain rfl : need = 0 := by omega
    cases hr
    exact ⟨h, rfl, le_rfl⟩
  | succ fuel ih =>
    unfold readBitsLoop
    split
    · rename_i hz
      subst hz
      exact ⟨fun v t _ hr => by cases hr; exact ⟨h, rfl, le_rfl⟩, fun t hr => by cases hr⟩
    · cases hx : fillPool s with
      | raised x =>
        simp only [bind_raised]
        refine ⟨fun v t _ hr => (by cases hr), fun t hr => ?_⟩
        cases hr
        rcases (fillPool_raised hx).2 with ⟨_, rfl⟩ | ⟨_, _, rfl⟩
        · exact ⟨⟨h.above, h.below, h.fetched⟩, le_rfl, le_rfl⟩
        · exact ⟨⟨h.above, h.below, h.fetched⟩, le_rfl, le_rfl⟩
      | ok u x =>
        simp only [bind_ok]
        obtain ⟨hxr, hxp, hxo⟩ := inRange_fill h hx
        have hpos := fillPool_bitsLeft hx
        have hle : min x.blk.cursor.bitsLeft.val need ≤ x.blk.cursor.bitsLeft.val := by omega
        obtain ⟨hyr, hyp⟩ := inRange_drop hxr hle
        have key := ih (need - min x.blk.cursor.bitsLeft.val need)
          (acc <<< min x.blk.cursor.bitsLeft.val need |||
            x.blk.cursor.taken (min x.blk.cursor.bitsLeft.val need))
          (s := x.setCursor (x.blk.cursor.drop (min x.blk.cursor.bitsLeft.val need))) hyr
        have hyo : (x.setCursor (x.blk.cursor.drop
          (min x.blk.cursor.bitsLeft.val need))).blk.cursor.offset = x.blk.cursor.offset := rfl
        have hyp' : (x.setCursor (x.blk.cursor.drop
          (min x.blk.cursor.bitsLeft.val need))).blk.bitsConsumed = _ := hyp
        rw [hyo, hyp'] at key
        refine ⟨fun v t hn hr => ?_, fun t hr => ?_⟩
        · obtain ⟨a, b, c⟩ := key.1 v t (by omega) hr
          exact ⟨a, by omega, by omega⟩
        · obtain ⟨a, b, c⟩ := key.2 t hr
          exact ⟨a, by omega, by omega⟩

/-- A good request grows P by n. -/
theorem readBits_inRange {n v : Nat} {s t : State} (h : CursorInRange s.blk)
    (hr : readBits n s = .ok v t) :
    CursorInRange t.blk ∧ t.blk.bitsConsumed = s.blk.bitsConsumed + n ∧
    t.blk.cursor.offset.toNat ≤ s.blk.cursor.offset.toNat :=
  (readBitsLoop_inRange n n 0 h).1 v t le_rfl hr

/-- A request that fails leaves the cursor in range, no further back than it was. -/
theorem readBits_raised_inRange {n : Nat} {s t : State} (h : CursorInRange s.blk)
    (hr : readBits n s = .raised t) :
    CursorInRange t.blk ∧ s.blk.bitsConsumed ≤ t.blk.bitsConsumed ∧
    t.blk.cursor.offset.toNat ≤ s.blk.cursor.offset.toNat :=
  (readBitsLoop_inRange n n 0 h).2 t hr

/-- Taking bits from the pool: they are the next ones of the stream. -/
theorem onStream_drop {s : State} (h : CursorOnStream s) {n : Nat}
    (hn : n ≤ s.blk.cursor.bitsLeft.val) :
    CursorOnStream (s.setCursor (s.blk.cursor.drop n)) ∧
    (s.setCursor (s.blk.cursor.drop n)).blk.bitsConsumed = s.blk.bitsConsumed + n ∧
    s.blk.cursor.taken n = beNat (streamBits s s.blk.bitsConsumed n) := by
  obtain ⟨hr, hp⟩ := h
  obtain ⟨hr', hc⟩ := inRange_drop hr hn
  refine ⟨⟨hr', hp⟩, hc, ?_⟩
  obtain ⟨ha, hb, hf⟩ := hr
  rw [taken_eq _ hn]
  congr 1
  apply List.map_congr_left
  intro j hj
  have hj : j < n := List.mem_range.1 hj
  have hl : s.blk.cursor.bitsLeft.val ≤ 8 := by have := s.blk.cursor.bitsLeft.isLt; omega
  have hlt : s.blk.cursor.offset.toNat < s.blk.payloadEnd := by omega
  have hq : (s.blk.bitsConsumed + j) / 8 = s.blk.payloadEnd - s.blk.cursor.offset.toNat - 1 := by
    unfold Block.bitsConsumed; omega
  have hr : 7 - (s.blk.bitsConsumed + j) % 8 = s.blk.cursor.bitsLeft.val - 1 - j := by
    unfold Block.bitsConsumed; omega
  have haddr : s.blk.payloadEnd - (s.blk.payloadEnd - s.blk.cursor.offset.toNat - 1) =
      s.blk.cursor.offset.toNat + 1 := by omega
  rw [streamBit, hq, hr, haddr, hp hlt]

/-- A fetch leaves the cursor on the stream and P as it was. -/
theorem onStream_fill {s t : State} {u : Unit} (h : CursorOnStream s) (hf : fillPool s = .ok u t) :
    CursorOnStream t ∧ t.blk.bitsConsumed = s.blk.bitsConsumed := by
  obtain ⟨hr, hc, _⟩ := inRange_fill h.inRange hf
  refine ⟨⟨hr, ?_⟩, hc⟩
  rcases fillPool_ok hf with ⟨_, rfl⟩ | ⟨h0, hge, _, rfl⟩
  · exact h.pool
  · intro _
    simp only [setCursor_blk, setCursor_mem]
    rw [fetch_offset hge]

/-- A request that fails leaves the cursor on the stream. -/
theorem readBitsLoop_raised_onStream (fuel need acc : Nat) {s t : State} (h : CursorOnStream s)
    (hr : readBitsLoop fuel need acc s = .raised t) : CursorOnStream t := by
  induction fuel generalizing need acc s with
  | zero => cases hr
  | succ fuel ih =>
    unfold readBitsLoop at hr
    split at hr
    · cases hr
    · rcases bind_eq_raised hr with hr | ⟨u, x, hx, hr⟩
      · rcases (fillPool_raised hr).2 with ⟨_, rfl⟩ | ⟨_, _, rfl⟩
        · exact ⟨⟨h.inRange.above, h.inRange.below, h.inRange.fetched⟩, h.pool⟩
        · exact ⟨⟨h.inRange.above, h.inRange.below, h.inRange.fetched⟩, h.pool⟩
      · exact ih _ _ (onStream_drop (onStream_fill h hx).1 (by omega)).1 hr

theorem readBits_raised_onStream {n : Nat} {s t : State} (h : CursorOnStream s)
    (hr : readBits n s = .raised t) : CursorOnStream t :=
  readBitsLoop_raised_onStream n n 0 h hr

/-- P never passes the stream's end. -/
theorem onStream_le {s : State} (h : CursorOnStream s) : s.blk.bitsConsumed ≤ 8 * s.blk.hb := by
  obtain ⟨⟨ha, hb, hf⟩, _⟩ := h
  unfold Block.bitsConsumed Block.payloadEnd at *
  omega

/-- The loop on the stream: it delivers the next `need` bits after those in `acc`. -/
theorem readBitsLoop_onStream (fuel need acc : Nat) (hfuel : need ≤ fuel) {s : State}
    (h : CursorOnStream s) {v : Nat} {t : State} (hr : readBitsLoop fuel need acc s = .ok v t) :
    CursorOnStream t ∧ t.blk.bitsConsumed = s.blk.bitsConsumed + need ∧
    v = acc * 2 ^ need + beNat (streamBits s s.blk.bitsConsumed need) := by
  induction fuel generalizing need acc s with
  | zero =>
    obtain rfl : need = 0 := by omega
    cases hr
    exact ⟨h, rfl, by simp [streamBits]⟩
  | succ fuel ih =>
    unfold readBitsLoop at hr
    split at hr
    · rename_i hz
      subst hz
      cases hr
      exact ⟨h, rfl, by simp [streamBits]⟩
    · obtain ⟨u, x, hx, hr⟩ := bind_eq_ok hr
      have hpos := fillPool_bitsLeft hx
      obtain ⟨hxs, hxp⟩ := onStream_fill h hx
      have hle : min x.blk.cursor.bitsLeft.val need ≤ x.blk.cursor.bitsLeft.val := by omega
      obtain ⟨hys, hyp, hyt⟩ := onStream_drop hxs hle
      have hcong : ∀ p n, streamBits x p n = streamBits s p n := by
        intro p n
        rcases fillPool_ok hx with ⟨_, rfl⟩ | ⟨_, _, _, rfl⟩ <;> rfl
      have hcong' : ∀ p n, streamBits (x.setCursor (x.blk.cursor.drop
          (min x.blk.cursor.bitsLeft.val need))) p n = streamBits s p n := fun p n => hcong p n
      simp only at hr
      obtain ⟨ht, htp, hv⟩ := ih _ _ (by omega) hys hr
      refine ⟨ht, by omega, ?_⟩
      have hlt : x.blk.cursor.taken (min x.blk.cursor.bitsLeft.val need) <
          2 ^ min x.blk.cursor.bitsLeft.val need := by
        rw [hyt]
        simpa [streamBits_length] using
          beNat_lt (streamBits x x.blk.bitsConsumed (min x.blk.cursor.bitsLeft.val need))
      have hsplit := streamBits_add s s.blk.bitsConsumed (min x.blk.cursor.bitsLeft.val need)
        (need - min x.blk.cursor.bitsLeft.val need)
      have hneed : min x.blk.cursor.bitsLeft.val need +
          (need - min x.blk.cursor.bitsLeft.val need) = need := by omega
      rw [hneed] at hsplit
      have hpow : 2 ^ need = 2 ^ min x.blk.cursor.bitsLeft.val need *
          2 ^ (need - min x.blk.cursor.bitsLeft.val need) := by rw [← pow_add, hneed]
      rw [hv, ← Nat.shiftLeft_add_eq_or_of_lt hlt, Nat.shiftLeft_eq, hyt, hcong, hcong', hyp, hxp,
        hsplit, beNat_append, streamBits_length, hpow]
      ring

/-- 40_bit_reader.md R125. -/
theorem readBits_onStream {n v : Nat} {s t : State} (h : CursorOnStream s)
    (hr : readBits n s = .ok v t) :
    CursorOnStream t ∧ t.blk.bitsConsumed = s.blk.bitsConsumed + n ∧
    v = beNat (streamBits s s.blk.bitsConsumed n) := by
  simpa using readBitsLoop_onStream n n 0 le_rfl h hr

/-- The loop on an accessible stream fails only for want of bits, with nothing left of them. -/
theorem readBitsLoop_fails (fuel need acc : Nat) {s : State} (h : CursorOnStream s)
    (hacc : PayloadAccessible s) {t : State} (hr : readBitsLoop fuel need acc s = .raised t) :
    8 * s.blk.hb < s.blk.bitsConsumed + need ∧
    ∃ c : Cursor, c.offset.toNat = s.blk.segStart + 15 ∧ c.bitsLeft = 0 ∧
      t = raise .sourceUnderflow (s.blk.segStart + 15) (s.setCursor c) := by
  induction fuel generalizing need acc s with
  | zero => cases hr
  | succ fuel ih =>
    unfold readBitsLoop at hr
    split at hr
    · cases hr
    · rcases bind_eq_raised hr with hr | ⟨u, x, hx, hr⟩
      · obtain ⟨h0, hcase⟩ := fillPool_raised hr
        obtain ⟨⟨ha, hb, hf⟩, _⟩ := h
        have hps : s.blk.payloadStart = s.blk.segStart + 16 := rfl
        rcases hcase with ⟨hlt, rfl⟩ | ⟨hge, hna, _⟩
        · have ho : s.blk.cursor.offset.toNat = s.blk.segStart + 15 := by omega
          refine ⟨?_, s.blk.cursor, ho, h0, by rw [ho]; rfl⟩
          have hz : s.blk.cursor.bitsLeft.val = 0 := by rw [h0]; rfl
          unfold Block.bitsConsumed Block.payloadEnd
          omega
        · rw [hacc _ hge hb] at hna
          cases hna
      · obtain ⟨hxs, hxp⟩ := onStream_fill h hx
        have hle : min x.blk.cursor.bitsLeft.val need ≤ x.blk.cursor.bitsLeft.val := by omega
        obtain ⟨hys, hyp, _⟩ := onStream_drop hxs hle
        simp only at hr
        have hcfg : x.cfg = s.cfg ∧ ∃ c, x = s.setCursor c := by
          rcases fillPool_ok hx with ⟨_, rfl⟩ | ⟨_, _, _, rfl⟩
          · exact ⟨rfl, x.blk.cursor, by simp⟩
          · exact ⟨rfl, _, rfl⟩
        obtain ⟨_, c, rfl⟩ := hcfg
        obtain ⟨hb, d, hd, hd0, rfl⟩ := ih _ _ hys hacc hr
        refine ⟨?_, d, hd, hd0, rfl⟩
        change 8 * s.blk.hb < _ at hb
        omega

/-- 40_bit_reader.md R123, R126. -/
theorem readBits_fails {n : Nat} {s t : State} (h : CursorOnStream s) (hacc : PayloadAccessible s)
    (hr : readBits n s = .raised t) :
    8 * s.blk.hb < s.blk.bitsConsumed + n ∧
    ∃ c : Cursor, c.offset.toNat = s.blk.segStart + 15 ∧ c.bitsLeft = 0 ∧
      t = raise .sourceUnderflow (s.blk.segStart + 15) (s.setCursor c) :=
  readBitsLoop_fails n n 0 h hacc hr

/-- On the stream the bit reader is the list of unread bits: both deliver the same value and go on
with the same bits, or both fail. -/
theorem readBits_unreadBits (n : Nat) {s : State} (h : CursorOnStream s) (hacc : PayloadAccessible s) :
    (∃ v t, readBits n s = .ok v t ∧ CursorOnStream t ∧ (∃ c, t = s.setCursor c) ∧
      listBits n (unreadBits s) = .ok v (unreadBits t)) ∨
    (∃ c, readBits n s = .raised (raise .sourceUnderflow (s.blk.segStart + 15) (s.setCursor c)) ∧
      listBits n (unreadBits s) = .raised (unreadBits s)) := by
  cases hr : readBits n s with
  | ok v t =>
    left
    obtain ⟨ht, hp, hv⟩ := readBits_onStream h hr
    have hf := readBits_ok_frame hr
    refine ⟨v, t, rfl, ht, ⟨_, hf⟩, ?_⟩
    have hle := onStream_le ht
    have hb : t.blk.hb = s.blk.hb := by rw [hf]; rfl
    have hsplit : unreadBits s = streamBits s s.blk.bitsConsumed n ++ unreadBits t := by
      unfold unreadBits
      rw [show 8 * s.blk.hb - s.blk.bitsConsumed = n + (8 * t.blk.hb - t.blk.bitsConsumed) by omega,
        streamBits_add, hp]
      congr 1
      exact (streamBits_congr (by rw [hf]; rfl) (by rw [hf]; rfl) _ _).symm
    have e := listBits_append (streamBits s s.blk.bitsConsumed n) (unreadBits t)
    rwa [streamBits_length, ← hsplit, ← hv] at e
  | raised t =>
    right
    obtain ⟨hlt, c, _, _, rfl⟩ := readBits_fails h hacc hr
    refine ⟨c, rfl, ?_⟩
    have hle := onStream_le h
    unfold listBits
    rw [if_pos]
    simp only [unreadBits, streamBits_length]
    omega

end Sys2Proof.Machine
end

