-- ==== Sys2Proof/Laws/Decode.lean ====
section
/-! SUPPORT. The decoder over two sources that answer alike gives the same instruction. -/

namespace Sys2Proof

variable {σ τ α β : Type}

/-- Two results agree: the same value with related sources after it, or both raised. -/
def Agree (R Q : σ → τ → Prop) (r : Res σ α) (r' : Res τ α) : Prop :=
  match r, r' with
  | .ok a x, .ok b y => a = b ∧ R x y
  | .raised x, .raised y => Q x y
  | .ok _ _, .raised _ => False
  | .raised _, .ok _ _ => False

theorem agree_bind {R R' Q : σ → τ → Prop} {r : Res σ α} {r' : Res τ α}
    {f : α → σ → Res σ β} {g : α → τ → Res τ β} (h : Agree R Q r r')
    (hfg : ∀ a x y, r = .ok a x → r' = .ok a y → R x y → Agree R' Q (f a x) (g a y)) :
    Agree R' Q (r.bind f) (r'.bind g) := by
  cases r <;> cases r'
  · obtain ⟨rfl, hR⟩ := h
    exact hfg _ _ _ rfl rfl hR
  · exact h.elim
  · exact h.elim
  · exact h

/-- Tokens: one flag and one field (42_token_decode.md R170 to R172, 44_back_copy.md R210). -/
theorem decodeToken_agree {R Q : σ → τ → Prop} {read : BitSource σ} {read' : BitSource τ}
    (hread : ∀ n x y, R x y → Agree R Q (read n x) (read' n y)) {s : σ} {s' : τ} (h : R s s') :
    Agree R Q (decodeToken read s) (decodeToken read' s') := by
  unfold decodeToken
  refine agree_bind (hread 1 s s' h) fun f x y _ _ hxy => ?_
  split
  · exact agree_bind (hread 8 x y hxy) fun v x y _ _ hxy => ⟨rfl, hxy⟩
  · exact agree_bind (hread 13 x y hxy) fun d x y _ _ hxy => ⟨rfl, hxy⟩

/-- The tail over two sources that answer alike, with the same fuel. -/
theorem decodeTail_same {R Q : σ → τ → Prop} {read : BitSource σ} {read' : BitSource τ}
    {note : Fin 5 → Nat → σ → σ} {note' : Fin 5 → Nat → τ → τ}
    (hread : ∀ n x y, R x y → Agree R Q (read n x) (read' n y))
    (hnote : ∀ l v x y, R x y → R (note l v x) (note' l v y)) (hend : ∀ x y, R x y → Q x y)
    (fuel k : Nat) {s : σ} {s' : τ} (h : R s s') :
    Agree R Q (decodeTail read note fuel k s) (decodeTail read' note' fuel k s') := by
  induction fuel generalizing k s s' with
  | zero => exact hend _ _ h
  | succ fuel ih =>
    unfold decodeTail
    refine agree_bind (hread 8 s s' h) fun v x y _ _ hxy => ?_
    split
    · exact ih (k + 1) (hnote _ _ _ _ hxy)
    · exact ⟨rfl, hnote _ _ _ _ hxy⟩

/-- Length codes over two sources that answer alike, with the same fuel. -/
theorem decodeLength_same {R Q : σ → τ → Prop} {read : BitSource σ} {read' : BitSource τ}
    {note : Fin 5 → Nat → σ → σ} {note' : Fin 5 → Nat → τ → τ}
    (hread : ∀ n x y, R x y → Agree R Q (read n x) (read' n y))
    (hnote : ∀ l v x y, R x y → R (note l v x) (note' l v y)) (hend : ∀ x y, R x y → Q x y)
    (fuel : Nat) {s : σ} {s' : τ} (h : R s s') :
    Agree R Q (decodeLength read note fuel s) (decodeLength read' note' fuel s') := by
  unfold decodeLength
  refine agree_bind (hread 2 _ _ h) fun v x y _ _ h => ?_
  split
  · exact ⟨rfl, hnote _ _ _ _ h⟩
  refine agree_bind (hread 3 _ _ (hnote _ _ _ _ h)) fun v x y _ _ h => ?_
  split
  · exact ⟨rfl, hnote _ _ _ _ h⟩
  refine agree_bind (hread 5 _ _ (hnote _ _ _ _ h)) fun v x y _ _ h => ?_
  split
  · exact ⟨rfl, hnote _ _ _ _ h⟩
  refine agree_bind (hread 8 _ _ (hnote _ _ _ _ h)) fun v x y _ _ h => ?_
  split
  · exact ⟨rfl, hnote _ _ _ _ h⟩
  exact decodeTail_same hread hnote hend fuel 0 (hnote _ _ _ _ h)

/-- The tail against a list of bits: any fuel of at least the bits that are left does. -/
theorem decodeTail_agree {R Q : σ → List Bool → Prop} {read : BitSource σ}
    {note : Fin 5 → Nat → σ → σ} (hread : ∀ n x y, R x y → Agree R Q (read n x) (listBits n y))
    (hnote : ∀ l v x y, R x y → R (note l v x) y) (fuel fuel' k : Nat) {s : σ} {bits : List Bool}
    (h : R s bits) (hf : bits.length < 8 * fuel) (hf' : bits.length < 8 * fuel') :
    Agree R Q (decodeTail read note fuel k s) (decodeTail listBits (fun _ _ b => b) fuel' k bits) := by
  induction fuel generalizing fuel' k s bits with
  | zero => omega
  | succ fuel ih =>
    cases fuel' with
    | zero => omega
    | succ fuel' =>
      unfold decodeTail
      refine agree_bind (hread 8 s bits h) fun v x y _ hy hxy => ?_
      have hlen := listBits_length hy
      split
      · exact ih fuel' (k + 1) (hnote _ _ _ _ hxy) (by omega) (by omega)
      · exact ⟨rfl, hnote _ _ _ _ hxy⟩

/-- Length codes (43_vlc_length.md R190) against a list of bits. -/
theorem decodeLength_agree {R Q : σ → List Bool → Prop} {read : BitSource σ}
    {note : Fin 5 → Nat → σ → σ} (hread : ∀ n x y, R x y → Agree R Q (read n x) (listBits n y))
    (hnote : ∀ l v x y, R x y → R (note l v x) y) (fuel fuel' : Nat) {s : σ} {bits : List Bool}
    (h : R s bits) (hf : bits.length ≤ fuel) (hf' : bits.length ≤ fuel') :
    Agree R Q (decodeLength read note fuel s)
      (decodeLength listBits (fun _ _ b => b) fuel' bits) := by
  unfold decodeLength
  refine agree_bind (hread 2 s bits h) fun v x y _ hy hxy => ?_
  have h1 : bits.length = 2 + y.length := listBits_length hy
  split
  · exact ⟨rfl, hnote _ _ _ _ hxy⟩
  refine agree_bind (hread 3 _ y (hnote _ _ _ _ hxy)) fun v x y' _ hy hxy => ?_
  have h2 : y.length = 3 + y'.length := listBits_length hy
  split
  · exact ⟨rfl, hnote _ _ _ _ hxy⟩
  refine agree_bind (hread 5 _ y' (hnote _ _ _ _ hxy)) fun v x y'' _ hy hxy => ?_
  have h3 : y'.length = 5 + y''.length := listBits_length hy
  split
  · exact ⟨rfl, hnote _ _ _ _ hxy⟩
  refine agree_bind (hread 8 _ y'' (hnote _ _ _ _ hxy)) fun v x y''' _ hy hxy => ?_
  have h4 : y''.length = 8 + y'''.length := listBits_length hy
  split
  · exact ⟨rfl, hnote _ _ _ _ hxy⟩
  exact decodeTail_agree (bits := y''') hread hnote fuel fuel' 0 (hnote _ _ _ _ hxy)
    (by omega) (by omega)

end Sys2Proof
end

