-- ==== Sys2Proof/Laws/Ops.lean ====
section
/-! SUPPORT. One lemma for each shared operation that says once everything it can do. -/

namespace Sys2Proof.Machine

/-- SrcRead: the byte with nothing changed, or SOURCE_READ_FAILURE (00_scope.md R12). -/
theorem srcRead_cases (a : Nat) (s : State) :
    (accessible s.cfg a = true ∧ srcRead a s = .ok (s.mem.read a) s) ∨
    (accessible s.cfg a = false ∧ srcRead a s = .raised (raise .sourceReadFailure a s)) := by
  unfold srcRead
  cases h : accessible s.cfg a <;> simp

/-- OutRead (00_scope.md R12). -/
theorem outRead_cases (i : Nat) (s : State) :
    (accessible s.cfg (s.blk.outAddr i) = true ∧
      outRead i s = .ok (s.mem.read (s.blk.outAddr i)) s) ∨
    (accessible s.cfg (s.blk.outAddr i) = false ∧
      outRead i s = .raised (raise .outputAccessFailure (s.blk.outAddr i) s)) := by
  unfold outRead
  cases h : accessible s.cfg (s.blk.outAddr i) <;> simp

/-- OutWrite (00_scope.md R12). -/
theorem outWrite_cases (i : Nat) (v : Byte) (s : State) :
    (accessible s.cfg (s.blk.outAddr i) = true ∧
      outWrite i v s = .ok () (s.setMem (s.mem.write (s.blk.outAddr i) v))) ∨
    (accessible s.cfg (s.blk.outAddr i) = false ∧
      outWrite i v s = .raised (raise .outputAccessFailure (s.blk.outAddr i) s)) := by
  unfold outWrite
  cases h : accessible s.cfg (s.blk.outAddr i) <;> simp

/-- Reading n bytes up from a: all of them with nothing changed, or the first bus error. -/
theorem srcReads_cases (n a : Nat) (s : State) :
    ((∀ i, i < n → accessible s.cfg (a + i) = true) ∧
      srcReads n a s = .ok ((List.range n).map fun i => s.mem.read (a + i)) s) ∨
    (∃ i, i < n ∧ (∀ j, j < i → accessible s.cfg (a + j) = true) ∧
      accessible s.cfg (a + i) = false ∧
      srcReads n a s = .raised (raise .sourceReadFailure (a + i) s)) := by
  induction n generalizing a with
  | zero => exact .inl ⟨fun i hi => by omega, rfl⟩
  | succ n ih =>
    unfold srcReads
    rcases srcRead_cases a s with ⟨ha, hr⟩ | ⟨ha, hr⟩
    · rw [hr, bind_ok]
      rcases ih (a + 1) with ⟨hall, h⟩ | ⟨i, hi, hj, hna, h⟩
      · refine .inl ⟨fun i hi => ?_, ?_⟩
        · cases i with
          | zero => exact ha
          | succ i => have := hall i (by omega); rwa [Nat.add_assoc, Nat.add_comm 1] at this
        · rw [h, bind_ok, List.range_succ_eq_map, List.map_cons, List.map_map]
          congr 2
          apply List.map_congr_left
          intro j _
          simp [Nat.add_assoc, Nat.add_comm 1]
      · refine .inr ⟨i + 1, by omega, fun j hj' => ?_, ?_, ?_⟩
        · cases j with
          | zero => exact ha
          | succ j => have := hj j (by omega); rwa [Nat.add_assoc, Nat.add_comm 1] at this
        · rwa [Nat.add_assoc, Nat.add_comm 1] at hna
        · rw [h, bind_raised, Nat.add_assoc, Nat.add_comm 1]
    · exact .inr ⟨0, by omega, fun j hj => by omega, ha, by rw [hr, bind_raised]; rfl⟩

/-- A reader's error is an error entry over the cursor alone. -/
theorem ReaderError.blk {s t : State} (h : ReaderError s t) :
    t.mem = s.mem ∧ t.cfg = s.cfg ∧ t.parked = s.parked ∧ t.inbox = s.inbox ∧
    t.hostData = s.hostData ∧ t.draws = s.draws ∧ t.blk.phase = .error ∧
    (t.blk.errCode = .sourceUnderflow ∨ t.blk.errCode = .sourceReadFailure) ∧
    t.blk = { s.blk with
      cursor := t.blk.cursor, errCode := t.blk.errCode, errInfo := t.blk.errInfo,
      phase := .error } := by
  obtain ⟨c, e, he, rfl⟩ := h
  exact ⟨rfl, rfl, rfl, rfl, rfl, rfl, rfl, he, rfl⟩

/-- A token was read: the cursor moved past it, and it is a LIT or a BREF. -/
structure TokenRead (s : State) (i : Instr) (c : Cursor) : Prop where
  position : i.position = .token
  wellFormed : i.wellFormed = true
  forward : CursorInRange s.blk → CursorInRange (s.setCursor c).blk ∧
    (s.setCursor c).blk.bitsConsumed = s.blk.bitsConsumed + i.width ∧
    c.offset.toNat ≤ s.blk.cursor.offset.toNat
  onStream : CursorOnStream s → CursorOnStream (s.setCursor c)

/-- How reading a token fails: the reader's error, with the cursor no further back than it was. -/
structure TokenFailed (s t : State) : Prop where
  error : ReaderError s t
  forward : CursorInRange s.blk → CursorInRange t.blk ∧ s.blk.bitsConsumed ≤ t.blk.bitsConsumed ∧
    t.blk.cursor.offset.toNat ≤ s.blk.cursor.offset.toNat
  onStream : CursorOnStream s → CursorOnStream t

theorem readBits_raised_tokenFailed {s t : State} {n : Nat} (h : readBits n s = .raised t) :
    TokenFailed s t :=
  ⟨readBits_raised_frame h, fun hs => readBits_raised_inRange hs h,
    fun hs => readBits_raised_onStream hs h⟩

/-- The operand fails after the flag was read. -/
theorem readBits_then_tokenFailed {s x t : State} {n m v : Nat} (h : readBits n s = .ok v x)
    (h' : readBits m x = .raised t) : TokenFailed s t := by
  have hx := readBits_ok_frame h
  refine ⟨?_, fun hs => ?_, fun hs => readBits_raised_onStream (readBits_onStream hs h).1 h'⟩
  · have := readBits_raised_frame h'
    rw [hx] at this
    exact this.of_setCursor
  · obtain ⟨a, b, c⟩ := readBits_inRange hs h
    obtain ⟨a', b', c'⟩ := readBits_raised_inRange a h'
    exact ⟨a', by omega, by omega⟩

/-- Flag and operand are read. -/
theorem readBits_then_tokenRead {s x y : State} {m f v : Nat} (h : readBits 1 s = .ok f x)
    (h' : readBits m x = .ok v y) {i : Instr} (hp : i.position = .token) (hw : i.wellFormed = true)
    (hm : i.width = 1 + m) : y = s.setCursor y.blk.cursor ∧ TokenRead s i y.blk.cursor := by
  have hx := readBits_ok_frame h
  have hy := readBits_ok_frame h'
  rw [hx, setCursor_setCursor] at hy
  refine ⟨hy, hp, hw, fun hs => ?_, fun hs => hy ▸ (readBits_onStream (readBits_onStream hs h).1 h').1⟩
  obtain ⟨a, b, c⟩ := readBits_inRange hs h
  obtain ⟨a', b', c'⟩ := readBits_inRange a h'
  rw [← hy]
  exact ⟨a', by omega, by omega⟩

/-- What fetching a token does (42_token_decode.md R171, R172, 44_back_copy.md R210): a LIT or a
BREF is read and the cursor moves, or the reader's error is taken. -/
theorem fetchToken_cases (s : State) :
    (∃ i c, fetchToken s = .ok i (s.setCursor c) ∧ TokenRead s i c) ∨
    (∃ t, fetchToken s = .raised t ∧ TokenFailed s t) := by
  unfold fetchToken decodeToken
  cases h1 : readBits 1 s with
  | raised t => exact .inr ⟨t, rfl, readBits_raised_tokenFailed h1⟩
  | ok f x =>
    rw [bind_ok]
    split
    · cases h2 : readBits 8 x with
      | raised t => exact .inr ⟨t, rfl, readBits_then_tokenFailed h1 h2⟩
      | ok v y =>
        obtain ⟨hy, ht⟩ := readBits_then_tokenRead h1 h2 (i := .lit (BitVec.ofNat 8 v)) rfl rfl rfl
        exact .inl ⟨_, y.blk.cursor, by rw [bind_ok, ← hy], ht⟩
    · cases h2 : readBits 13 x with
      | raised t => exact .inr ⟨t, rfl, readBits_then_tokenFailed h1 h2⟩
      | ok v y =>
        obtain ⟨hy, ht⟩ := readBits_then_tokenRead h1 h2 (i := .bref (BitVec.ofNat 13 v)) rfl rfl rfl
        exact .inl ⟨_, y.blk.cursor, by rw [bind_ok, ← hy], ht⟩

/-- A length code was read: the cursor moved, LEN and LVL hold the code's length and level, and the
code is one the decoder can give. -/
structure LengthRead (s : State) (i : Instr) (t : State) : Prop where
  state : ∃ c l, t = (s.setCursor c).setLatches l
  dist : t.blk.latches.dist = s.blk.latches.dist
  brIdx : t.blk.latches.brIdx = s.blk.latches.brIdx
  position : i.position = .length
  wellFormed : i.wellFormed = true
  length : codeLength i = some t.blk.latches.len
  level : t.blk.latches.lvl = codeLevel i
  remaining : t.blk.bitsRemaining + i.width = s.blk.bitsRemaining
  forward : CursorInRange s.blk → CursorInRange t.blk ∧
    t.blk.bitsConsumed = s.blk.bitsConsumed + i.width ∧
    t.blk.cursor.offset.toNat ≤ s.blk.cursor.offset.toNat
  onStream : CursorOnStream s → CursorOnStream t

/-- What reading part of a length code leaves: `n` bits gone, `len` in LEN. -/
structure GroupsRead (s : State) (n len : Nat) (t : State) : Prop where
  state : ∃ c l, t = (s.setCursor c).setLatches l
  dist : t.blk.latches.dist = s.blk.latches.dist
  brIdx : t.blk.latches.brIdx = s.blk.latches.brIdx
  len : t.blk.latches.len = len
  remaining : t.blk.bitsRemaining + n = s.blk.bitsRemaining
  forward : CursorInRange s.blk → CursorInRange t.blk ∧
    t.blk.bitsConsumed = s.blk.bitsConsumed + n ∧
    t.blk.cursor.offset.toNat ≤ s.blk.cursor.offset.toNat
  onStream : CursorOnStream s → CursorOnStream t

theorem groupsRead_init (s : State) : GroupsRead s 0 3 (initLength s) :=
  ⟨⟨s.blk.cursor, _, rfl⟩, rfl, rfl, rfl, rfl, fun h => ⟨⟨h.above, h.below, h.fetched⟩, rfl, le_rfl⟩,
    fun h => ⟨⟨h.inRange.above, h.inRange.below, h.inRange.fetched⟩, h.pool⟩⟩

/-- One more group. -/
theorem GroupsRead.group {s x y : State} {n len w v : Nat} (h : GroupsRead s n len x) (lvl : Fin 5)
    (hr : readBits w x = .ok v y) : GroupsRead s (n + w) (len + v) (noteGroup lvl v y) := by
  have hy := readBits_ok_frame hr
  obtain ⟨c, l, rfl⟩ := h.state
  refine ⟨⟨y.blk.cursor, _, by rw [hy]; rfl⟩, ?_, ?_, ?_, ?_, fun hs => ?_, fun hs => ?_⟩
  · rw [hy]; exact h.dist
  · rw [hy]; exact h.brIdx
  · rw [hy]; exact congrArg (· + v) h.len
  · have h1 := readBits_remaining hr
    have h2 := h.remaining
    change y.blk.bitsRemaining + _ = _
    omega
  · obtain ⟨a, b, c⟩ := h.forward hs
    obtain ⟨a', b', c'⟩ := readBits_inRange a hr
    refine ⟨⟨a'.above, a'.below, a'.fetched⟩, ?_, ?_⟩
    · change y.blk.bitsConsumed = _
      omega
    · change y.blk.cursor.offset.toNat ≤ _
      omega
  · obtain ⟨a, b⟩ := (readBits_onStream (h.onStream hs) hr).1
    exact ⟨⟨a.above, a.below, a.fetched⟩, b⟩

/-- How reading a length code fails: LEN and LVL may have changed, then the reader's error. -/
def LengthFailed (s t : State) : Prop :=
  ∃ l : Latches, l.dist = s.blk.latches.dist ∧ l.brIdx = s.blk.latches.brIdx ∧
    ReaderError (s.setLatches l) t ∧
    (CursorInRange s.blk → CursorInRange t.blk ∧ s.blk.bitsConsumed ≤ t.blk.bitsConsumed ∧
      t.blk.cursor.offset.toNat ≤ s.blk.cursor.offset.toNat) ∧
    (CursorOnStream s → CursorOnStream t)

theorem GroupsRead.failed {s x t : State} {n len w : Nat} (h : GroupsRead s n len x)
    (hr : readBits w x = .raised t) : LengthFailed s t := by
  obtain ⟨c, l, rfl⟩ := h.state
  refine ⟨l, h.dist, h.brIdx, ?_, fun hs => ?_, fun hs => readBits_raised_onStream (h.onStream hs) hr⟩
  · obtain ⟨d, e, he, ht⟩ := readBits_raised_frame hr
    exact ⟨d, e, he, ht⟩
  · obtain ⟨a, b, c⟩ := h.forward hs
    obtain ⟨a', b', c'⟩ := readBits_raised_inRange a hr
    exact ⟨a', by omega, by omega⟩

/-- A code that ends here. -/
theorem GroupsRead.ends {s t : State} {n len : Nat} (h : GroupsRead s n len t) {i : Instr}
    (hp : i.position = .length) (hw : i.wellFormed = true) (hl : codeLength i = some len)
    (hlvl : t.blk.latches.lvl = codeLevel i) (hn : i.width = n) : LengthRead s i t :=
  ⟨h.state, h.dist, h.brIdx, hp, hw, by rw [hl, h.len], hlvl, by rw [hn]; exact h.remaining,
    by rw [hn]; exact h.forward, h.onStream⟩

theorem ofNat_toNat_of_lt {w v : Nat} (h : v < 2 ^ w) : (BitVec.ofNat w v).toNat = v := by
  rw [BitVec.toNat_ofNat, Nat.mod_eq_of_lt h]

theorem ofNat_bne {w v m : Nat} (h : v < 2 ^ w) (hm : m < 2 ^ w) (hv : v ≠ m) :
    (BitVec.ofNat w v != BitVec.ofNat w m) = true := by
  rw [bne_iff_ne]
  intro he
  have := congrArg BitVec.toNat he
  rw [ofNat_toNat_of_lt h, ofNat_toNat_of_lt hm] at this
  exact hv this

/-- The tail (43_vlc_length.md R192): it ends, or the bits do; the fuel does not. -/
theorem decodeTail_cases {s : State} (fuel k : Nat) {x : State}
    (h : GroupsRead s (18 + 8 * k) (299 + 255 * k) x) (hf : x.blk.bitsRemaining < 8 * fuel) :
    (∃ i t, decodeTail readBits noteGroup fuel k x = .ok i t ∧ LengthRead s i t) ∨
    (∃ t, decodeTail readBits noteGroup fuel k x = .raised t ∧ LengthFailed s t) := by
  induction fuel generalizing k x with
  | zero => omega
  | succ fuel ih =>
    unfold decodeTail
    cases hr : readBits 8 x with
    | raised t => exact .inr ⟨t, rfl, h.failed hr⟩
    | ok v y =>
      have hv := readBits_lt hr
      have hg := h.group 4 hr
      rw [bind_ok]
      split
      · rename_i h255
        subst h255
        refine ih (k + 1) ?_ ?_
        · convert hg using 1 <;> ring
        · have := readBits_remaining hr
          change y.blk.bitsRemaining < _
          omega
      · refine .inl ⟨_, _, rfl, hg.ends rfl (ofNat_bne hv (by norm_num) ‹_›) ?_ rfl ?_⟩
        · rw [codeLength, lenTail, ofNat_toNat_of_lt hv]
        · simp only [Instr.width]; ring

/-- What fetching a length code does (43_vlc_length.md R190): a code is read, or the reader's error
is taken. -/
theorem fetchLength_cases (s : State) :
    (∃ i t, fetchLength s = .ok i t ∧ LengthRead s i t) ∨
    (∃ t, fetchLength s = .raised t ∧ LengthFailed s t) := by
  unfold fetchLength decodeLength
  have h0 := groupsRead_init s
  cases h1 : readBits 2 (initLength s) with
  | raised t => exact .inr ⟨t, rfl, h0.failed h1⟩
  | ok v x =>
    have hv := readBits_lt h1
    have hx := h0.group 1 h1
    rw [bind_ok]
    split
    · exact .inl ⟨_, _, rfl, hx.ends rfl (ofNat_bne hv (by norm_num) ‹_›)
        (by rw [codeLength, lenG2, ofNat_toNat_of_lt hv]) rfl rfl⟩
    rename_i hv3
    cases h2 : readBits 3 (noteGroup 1 v x) with
    | raised t => exact .inr ⟨t, rfl, hx.failed h2⟩
    | ok v' y =>
      have hv' := readBits_lt h2
      have hy := hx.group 2 h2
      rw [bind_ok]
      obtain rfl : v = 3 := by omega
      split
      · exact .inl ⟨_, _, rfl, hy.ends rfl (ofNat_bne hv' (by norm_num) ‹_›)
          (by rw [codeLength, lenG3, ofNat_toNat_of_lt hv']) rfl rfl⟩
      rename_i hv7
      cases h3 : readBits 5 (noteGroup 2 v' y) with
      | raised t => exact .inr ⟨t, rfl, hy.failed h3⟩
      | ok v'' z =>
        have hv'' := readBits_lt h3
        have hz := hy.group 3 h3
        rw [bind_ok]
        obtain rfl : v' = 7 := by omega
        split
        · exact .inl ⟨_, _, rfl, hz.ends rfl (ofNat_bne hv'' (by norm_num) ‹_›)
            (by rw [codeLength, lenG5, ofNat_toNat_of_lt hv'']) rfl rfl⟩
        rename_i hv31
        cases h4 : readBits 8 (noteGroup 3 v'' z) with
        | raised t => exact .inr ⟨t, rfl, hz.failed h4⟩
        | ok v₃ u =>
          have hv₃ := readBits_lt h4
          have hu := hz.group 4 h4
          rw [bind_ok]
          obtain rfl : v'' = 31 := by omega
          split
          · exact .inl ⟨_, _, rfl, hu.ends rfl (ofNat_bne hv₃ (by norm_num) ‹_›)
              (by rw [codeLength, lenG8, ofNat_toNat_of_lt hv₃]) rfl rfl⟩
          rename_i hv255
          obtain rfl : v₃ = 255 := by omega
          refine decodeTail_cases s.blk.bitsRemaining 0 hu ?_
          have := hu.remaining
          omega

/-- With no bus error, all n bytes are read. -/
theorem srcReads_all {n a : Nat} {s : State} (h : ∀ i, i < n → accessible s.cfg (a + i) = true) :
    srcReads n a s = .ok ((List.range n).map fun i => s.mem.read (a + i)) s := by
  rcases srcReads_cases n a s with ⟨_, h⟩ | ⟨i, hi, _, hna, _⟩
  · exact h
  · rw [h i hi] at hna
    cases hna

/-- The first bus error is the one reported. -/
theorem srcReads_first {n a i : Nat} {s : State} (hi : i < n)
    (h : ∀ j, j < i → accessible s.cfg (a + j) = true) (hn : accessible s.cfg (a + i) = false) :
    srcReads n a s = .raised (raise .sourceReadFailure (a + i) s) := by
  rcases srcReads_cases n a s with ⟨h, _⟩ | ⟨k, hk, hbefore, hna, hr⟩
  · rw [h i hi] at hn
    cases hn
  · rcases Nat.lt_trichotomy i k with hlt | rfl | hlt
    · rw [hbefore i hlt] at hn
      cases hn
    · exact hr
    · rw [h k hlt] at hna
      cases hna

end Sys2Proof.Machine
end

