-- ==== Sys2Proof/Laws/Turn.lean ====
section
/-! SUPPORT. Everything one turn of the block can do, said once: the invariants and frames of turns
are read off these cases. -/

namespace Sys2Proof.Machine

/-- The errors a phase can take without reading a bit (60_exceptions.md R231), their information
aside. -/
def Phase.canRaise : Phase → ErrCode → Prop
  | .busy .pre, e => e = .framingMismatch ∨ e = .sourceReadFailure
  | .busy .sig, e => e = .badSignature ∨ e = .sourceReadFailure
  | .busy .sizes, e => e = .sourceReadFailure
  | .busy .frame, e => e = .framingMismatch
  | .busy .alloc, e => e = .allocationFailure ∨ e = .outputAliasesSource
  | .busy (.hdr _), e => e = .sourceReadFailure ∨ e = .outputAccessFailure
  | .busy .copy, e => e = .outputAccessFailure
  | .busy .init, _ => False
  | .busy .token, _ => False
  | .busy .bref, _ => False
  | .idle, _ => False
  | .done, _ => False
  | .error, _ => False

/-- One turn from `s` to `t`. -/
inductive Turn (s : State) : State → Prop where
  | stay (h : s.blk.isBusy = false) : Turn s s
  /-- An error of a phase that reads no bits. -/
  | error (e : ErrCode) (info : Nat) (h : s.blk.phase.canRaise e) : Turn s (raise e info s)
  | pre (h : s.blk.phase = .busy .pre) (hc : Prechecked s.cfg s.blk) : Turn s (s.setPhase (.busy .sig))
  | sig (h : s.blk.phase = .busy .sig) : Turn s (s.setPhase (.busy .sizes))
  | sizes (h : s.blk.phase = .busy .sizes) (us hb : BitVec 32) :
    Turn s ((s.setSizes us hb).setPhase (.busy .frame))
  | frame (h : s.blk.phase = .busy .frame) (hc : 16 + s.blk.hb + 0x100 = s.blk.segSize) :
    Turn s (s.setPhase (.busy .alloc))
  | alloc (h : s.blk.phase = .busy .alloc) (hc : s.blk.outSize ≤ s.blk.dstCap.toNat)
    (hr : s.blk.dstBase.toNat + s.blk.outSize ≤ 2 ^ s.cfg.addrW)
    (ha : s.blk.segStart + s.blk.segSize ≤ s.blk.dstBase.toNat ∨
      s.blk.dstBase.toNat + s.blk.outSize ≤ s.blk.segStart) :
    Turn s (s.setPhase (.busy (.hdr 0)))
  | hdr (i : Fin 256) (h : s.blk.phase = .busy (.hdr i))
    (hs : accessible s.cfg (s.blk.headerAddr i.val) = true)
    (hd : accessible s.cfg (s.blk.outAddr i.val) = true) :
    Turn s ((s.setMem (s.mem.write (s.blk.outAddr i.val) (s.mem.read (s.blk.headerAddr i.val)))).setPhase
      (.busy (afterHdr i)))
  | init (h : s.blk.phase = .busy .init) : Turn s (stepInit s)
  | done (h : s.blk.phase = .busy .token) (hu : s.blk.us ≤ s.blk.bytesOut.toNat) : Turn s (complete s)
  /-- A token or a length code could not be read; before that LEN and LVL may have changed. -/
  | fetchError (h : s.blk.phase = .busy .token ∨ s.blk.phase = .busy .bref) (t : State)
    (ht : LengthFailed s t) : Turn s t
  | lit (h : s.blk.phase = .busy .token) (hu : s.blk.bytesOut.toNat < s.blk.us) (v : BitVec 8)
    (c : Cursor) (hf : fetchToken s = .ok (.lit v) (s.setCursor c)) (hc : TokenRead s (.lit v) c)
    (hd : accessible s.cfg (s.blk.outAddr s.blk.dst) = true) :
    Turn s (endToken (countByte ((s.setCursor c).setMem (s.mem.write (s.blk.outAddr s.blk.dst) v))))
  | litError (h : s.blk.phase = .busy .token) (hu : s.blk.bytesOut.toNat < s.blk.us) (v : BitVec 8)
    (c : Cursor) (hf : fetchToken s = .ok (.lit v) (s.setCursor c)) (hc : TokenRead s (.lit v) c)
    (hd : accessible s.cfg (s.blk.outAddr s.blk.dst) = false) :
    Turn s (raise .outputAccessFailure (s.blk.outAddr s.blk.dst) (s.setCursor c))
  | bref (h : s.blk.phase = .busy .token) (hu : s.blk.bytesOut.toNat < s.blk.us) (d : BitVec 13)
    (c : Cursor) (hf : fetchToken s = .ok (.bref d) (s.setCursor c)) (hc : TokenRead s (.bref d) c)
    (hr : s.blk.brIdxOf d ≤ s.blk.top) :
    Turn s (((s.setCursor c).setLatches { s.blk.latches with dist := d, brIdx := s.blk.brIdxOf d }
      ).setPhase (.busy .bref))
  | brefError (h : s.blk.phase = .busy .token) (hu : s.blk.bytesOut.toNat < s.blk.us) (d : BitVec 13)
    (c : Cursor) (hf : fetchToken s = .ok (.bref d) (s.setCursor c)) (hc : TokenRead s (.bref d) c)
    (hr : s.blk.top < s.blk.brIdxOf d) :
    Turn s (raise .backrefOutOfRange (s.blk.brIdxOf d)
      ((s.setCursor c).setLatches { s.blk.latches with dist := d, brIdx := s.blk.brIdxOf d }))
  | length (h : s.blk.phase = .busy .bref) (i : Instr) (x : State) (hf : fetchLength s = .ok i x)
    (hx : LengthRead s i x) (hl : x.blk.latches.len ≤ s.blk.remaining) :
    Turn s (x.setPhase (.busy .copy))
  | lengthError (h : s.blk.phase = .busy .bref) (i : Instr) (x : State) (hf : fetchLength s = .ok i x)
    (hx : LengthRead s i x) (hl : s.blk.remaining < x.blk.latches.len) (info : Nat) :
    Turn s (raise .outputOverrun info x)
  /-- A copy of length 0, which no run reaches (43_vlc_length.md R193). -/
  | copyNone (h : s.blk.phase = .busy .copy) (hl : s.blk.latches.len = 0) : Turn s (endToken s)
  | copy (h : s.blk.phase = .busy .copy) (hl : s.blk.latches.len ≠ 0)
    (hs : accessible s.cfg (s.blk.outAddr s.blk.latches.brIdx) = true)
    (hd : accessible s.cfg (s.blk.outAddr s.blk.dst) = true) (t : State)
    (ht : t = advanceCopy (s.setMem (s.mem.write (s.blk.outAddr s.blk.dst)
      (s.mem.read (s.blk.outAddr s.blk.latches.brIdx))))) :
    Turn s (if t.blk.latches.len = 0 then endToken t else t)

/-- A length code in LEN and LVL is what its instruction puts there. -/
theorem LengthRead.setLatches {s x : State} {i : Instr} (h : LengthRead s i x) :
    x.setLatches { x.blk.latches with len := x.blk.latches.len, lvl := codeLevel i } = x := by
  rw [← h.level]
  rfl

/-- Every length code runs as its length and its level say. -/
theorem exec_of_codeLength {i : Instr} {n : Nat} (h : codeLength i = some n) (s : State) :
    exec i s = .next (lengthDone n (codeLevel i) s) := by
  cases i <;> first | (cases h; rfl) | cases h

/-- What an error before LIT and BREF run is, as one of a length code. -/
theorem TokenFailed.lengthFailed {s t : State} (h : TokenFailed s t) : LengthFailed s t :=
  ⟨s.blk.latches, rfl, rfl, h.error, h.forward, h.onStream⟩

theorem accessible_eq_false {c : Config} {a : Nat} (h : ¬ accessible c a = true) :
    accessible c a = false := by simpa using h

/-- A turn of the block is one of the cases of `Turn`. -/
theorem turn_of_blockTurn {s t : State} (h : blockTurn s = .next t) : Turn s t := by
  unfold blockTurn at h
  split at h
  · cases h
    exact .stay (by simp [Block.isBusy, Phase.isBusy, *])
  · cases h
    exact .stay (by simp [Block.isBusy, Phase.isBusy, *])
  · cases h
    exact .stay (by simp [Block.isBusy, Phase.isBusy, *])
  · rename_i hp
    cases h
    unfold stepPre
    split
    · exact .error _ _ (by rw [hp]; exact .inl rfl)
    · split
      · exact .error _ _ (by rw [hp]; exact .inr rfl)
      · exact .pre hp ⟨by omega, by omega⟩
  · rename_i hp
    cases h
    unfold stepSig
    rcases srcReads_cases 8 s.blk.segStart s with ⟨_, h⟩ | ⟨i, _, _, _, h⟩
    · rw [h, bind_ok]
      split
      · exact .sig hp
      · exact .error _ _ (by rw [hp]; exact .inl rfl)
    · rw [h]
      exact .error _ _ (by rw [hp]; exact .inr rfl)
  · rename_i hp
    cases h
    unfold stepSizes
    rcases srcReads_cases 4 (s.blk.segStart + 8) s with ⟨_, h⟩ | ⟨i, _, _, _, h⟩
    · rw [h, bind_ok]
      rcases srcReads_cases 4 (s.blk.segStart + 12) s with ⟨_, h⟩ | ⟨i, _, _, _, h⟩
      · rw [h]
        exact .sizes hp _ _
      · rw [h]
        exact .error _ _ (by rw [hp]; exact rfl)
    · rw [h]
      exact .error _ _ (by rw [hp]; exact rfl)
  · rename_i hp
    cases h
    unfold stepFrame
    split
    · exact .error _ _ (by rw [hp]; exact rfl)
    · exact .frame hp (not_not.1 ‹¬ _›)
  · rename_i hp
    cases h
    unfold stepAlloc
    split
    · exact .error _ _ (by rw [hp]; exact .inl rfl)
    · split
      · exact .error _ _ (by rw [hp]; exact .inl rfl)
      · split
        · exact .error _ _ (by rw [hp]; exact .inr rfl)
        · exact .alloc hp (by omega) (by omega) (by omega)
  · rename_i i hp
    cases h
    unfold stepHdr
    rcases srcRead_cases (s.blk.headerAddr i.val) s with ⟨hs, h⟩ | ⟨_, h⟩
    · rw [h, bind_ok]
      rcases outWrite_cases i.val (s.mem.read (s.blk.headerAddr i.val)) s with ⟨hd, h⟩ | ⟨_, h⟩
      · rw [h]
        exact .hdr i hp hs hd
      · rw [h]
        exact .error _ _ (by rw [hp]; exact .inr rfl)
    · rw [h]
      exact .error _ _ (by rw [hp]; exact .inl rfl)
  · cases h
    exact .init ‹_›
  · rename_i hp
    unfold tokenTurn at h
    split at h
    · rename_i hu
      rcases fetchToken_cases s with ⟨i, c, hf, hc⟩ | ⟨x, hf, hx⟩
      · rw [hf] at h
        change exec i (s.setCursor c) = _ at h
        cases i with
        | lit v =>
          rcases outWrite_cases (s.setCursor c).blk.dst v (s.setCursor c) with ⟨hd, hw⟩ | ⟨hd, hw⟩
          · simp only [exec, execLit, hw] at h
            cases h
            exact .lit hp hu v c hf hc hd
          · simp only [exec, execLit, hw] at h
            cases h
            exact .litError hp hu v c hf hc hd
        | bref d =>
          simp only [exec, execBref] at h
          split at h
          · rename_i hr
            cases h
            exact .brefError hp hu d c hf hc hr
          · rename_i hr
            cases h
            exact .bref hp hu d c hf hc (Nat.le_of_not_lt hr)
        | g2 g => exact absurd hc.position (by simp [Instr.position])
        | g3 g => exact absurd hc.position (by simp [Instr.position])
        | g5 g => exact absurd hc.position (by simp [Instr.position])
        | g8 g => exact absurd hc.position (by simp [Instr.position])
        | tail k g => exact absurd hc.position (by simp [Instr.position])
        | start => exact absurd hc.position (by simp [Instr.position])
      · rw [hf] at h
        cases h
        exact .fetchError (.inl hp) _ hx.lengthFailed
    · cases h
      exact .done hp (by omega)
  · rename_i hp
    rcases fetchLength_cases s with ⟨i, x, hf, hx⟩ | ⟨x, hf, hx⟩
    · rw [hf] at h
      change exec i x = _ at h
      rw [exec_of_codeLength hx.length] at h
      cases h
      have hrem : x.blk.remaining = s.blk.remaining := by
        obtain ⟨c, l, rfl⟩ := hx.state
        rfl
      unfold lengthDone
      simp only [hx.setLatches]
      split
      · exact .lengthError hp i x hf hx (by omega) _
      · exact .length hp i x hf hx (by omega)
    · rw [hf] at h
      cases h
      exact .fetchError (.inr hp) _ hx
  · rename_i hp
    cases h
    unfold copyStep
    split
    · exact .copyNone hp ‹_›
    · rename_i hl
      rcases outRead_cases s.blk.latches.brIdx s with ⟨hs, h⟩ | ⟨_, h⟩
      · rw [h, bind_ok]
        rcases outWrite_cases s.blk.dst (s.mem.read (s.blk.outAddr s.blk.latches.brIdx)) s with
          ⟨hd, h⟩ | ⟨_, h⟩
        · rw [h]
          exact .copy hp hl hs hd _ rfl
        · rw [h]
          exact .error _ _ (by rw [hp]; exact rfl)
      · rw [h]
        exact .error _ _ (by rw [hp]; exact rfl)

/-- A failed fetch as an error entry over the cursor and the latches. -/
theorem LengthFailed.state {s t : State} (h : LengthFailed s t) :
    ∃ c l e info, (e = .sourceUnderflow ∨ e = .sourceReadFailure) ∧
      t = raise e info ((s.setCursor c).setLatches l) := by
  obtain ⟨l, _, _, ⟨c, e, he, rfl⟩, _⟩ := h
  exact ⟨c, l, e, _, he, rfl⟩

/-- A turn touches nothing outside the selected instance and memory, and in the instance neither
REG_BASE nor the memory remembered from the START. -/
theorem Turn.rest {s t : State} (T : Turn s t) :
    t.cfg = s.cfg ∧ t.parked = s.parked ∧ t.inbox = s.inbox ∧ t.hostData = s.hostData ∧
      t.blk.regBase = s.blk.regBase ∧ t.blk.before = s.blk.before := by
  cases T with
  | fetchError h _ ht =>
    obtain ⟨c, l, e, info, _, rfl⟩ := ht.state
    exact ⟨rfl, rfl, rfl, rfl, rfl, rfl⟩
  | length h i x hf hx =>
    obtain ⟨c, l, rfl⟩ := hx.state
    exact ⟨rfl, rfl, rfl, rfl, rfl, rfl⟩
  | lengthError h i x hf hx =>
    obtain ⟨c, l, rfl⟩ := hx.state
    exact ⟨rfl, rfl, rfl, rfl, rfl, rfl⟩
  | copy _ _ _ _ t ht => subst ht; split <;> exact ⟨rfl, rfl, rfl, rfl, rfl, rfl⟩
  | _ => exact ⟨rfl, rfl, rfl, rfl, rfl, rfl⟩

/-- A turn keeps memory in its canonical form. -/
theorem Turn.wf {s t : State} (T : Turn s t) (h : s.mem.wf) : t.mem.wf := by
  cases T with
  | fetchError _ _ ht =>
    obtain ⟨c, l, e, info, _, rfl⟩ := ht.state
    exact h
  | length _ i x hf hx =>
    obtain ⟨c, l, rfl⟩ := hx.state
    exact h
  | lengthError _ i x hf hx =>
    obtain ⟨c, l, rfl⟩ := hx.state
    exact h
  | copy _ _ _ _ t ht => subst ht; split <;> exact write_wf _ _ h
  | hdr => exact write_wf _ _ h
  | lit => exact write_wf _ _ h
  | _ => exact h

/-- Turns in a row. -/
theorem turns_add (m n : Nat) (s : State) : turns (m + n) s = match turns m s with
    | .next t => turns n t
    | .fault r => .fault r
    | .refused r => .refused r := by
  induction m generalizing s with
  | zero => simp [turns]
  | succ m ih =>
    rw [Nat.add_right_comm]
    simp only [turns]
    cases blockTurn s <;> simp [ih]

/-- One more turn. -/
theorem turns_succ {k : Nat} {s t u : State} (h : turns k s = .next t) (hu : blockTurn t = .next u) :
    turns (k + 1) s = .next u := by
  rw [turns_add, h]
  simp only [turns, hu]

end Sys2Proof.Machine
end

