-- ==== Sys2Proof/Laws/HostPort.lean ====
section
/-! SUPPORT. The host's side, said once: slots, accesses to memory, and that whatever happens memory
keeps its canonical form. -/

namespace Sys2Proof.Machine

@[simp] theorem slotAt_base (b : Block) : slotAt b b.regBase = some .ctrl := by
  simp [slotAt, slotNumber]

@[simp] theorem slotAt_mul (b : Block) (k : Nat) :
    slotAt b (b.regBase + 8 * k) = some (slotNumber k) := by
  simp [slotAt]

theorem slotAt_offset (b : Block) {off : Nat} (h : off % 8 = 0) :
    slotAt b (b.regBase + off) = some (slotNumber (off / 8)) := by
  simp [slotAt, h]

theorem slotNumber_reserved {k : Nat} (h : 13 ≤ k) : slotNumber k = .reserved := by
  unfold slotNumber
  split <;> first | omega | rfl

/-- The bits a cut value keeps. -/
@[simp] theorem lowBits_getLsbD (w : Nat) (v : Word) (i : Nat) :
    (lowBits w v).getLsbD i = (decide (i < w) && v.getLsbD i) := by
  rw [lowBits, BitVec.getLsbD_ofNat, Nat.testBit_mod_two_pow]
  change (decide (i < 64) && (decide (i < w) && v.getLsbD i)) = _
  cases h : decide (i < 64) with
  | true => rfl
  | false => rw [BitVec.getLsbD_of_ge v i (by simpa using h)]; simp

/-- A host memory write: a fault, a refusal, or the write and nothing else. -/
theorem hostMemWrite_cases (a : Nat) (v : Byte) (s : State) :
    hostMemWrite a v s = .fault .noSuchAddress ∨ hostMemWrite a v s = .refused .hostDuty ∨
      hostMemWrite a v s = .next (s.setMem (s.mem.write a v)) := by
  unfold hostMemWrite
  split
  · exact .inl rfl
  · split
    · exact .inr (.inl rfl)
    · exact .inr (.inr rfl)

/-- A host memory read changes the host's data and the draws, nothing else. -/
theorem hostMemRead_cases (a : Nat) (s : State) :
    hostMemRead a s = .fault .noSuchAddress ∨
      ∃ v n, hostMemRead a s = .next { s with hostData := v, draws := n } := by
  unfold hostMemRead
  split
  · exact .inl rfl
  · split <;> exact .inr ⟨_, _, rfl⟩

/-- A slot write: START, one configuration register, or nothing. -/
theorem writeSlot_cases (slot : Slot) (v : Word) (s : State) :
    writeSlot slot v s = exec .start s ∨ writeSlot slot v s = .next s ∨
      ∃ b : Block, writeSlot slot v s = .next (configWrite b s) ∧
        b = { s.blk with
          srcBase := b.srcBase, segLen := b.segLen, dstBase := b.dstBase, dstCap := b.dstCap } := by
  cases slot with
  | ctrl =>
    unfold writeSlot
    simp only [decodeCommand]
    cases v.getLsbD 0
    · exact .inr (.inl rfl)
    · exact .inl rfl
  | srcBase => exact .inr (.inr ⟨_, rfl, rfl⟩)
  | segLen => exact .inr (.inr ⟨_, rfl, rfl⟩)
  | dstBase => exact .inr (.inr ⟨_, rfl, rfl⟩)
  | dstCap => exact .inr (.inr ⟨_, rfl, rfl⟩)
  | _ => exact .inr (.inl rfl)

/-- Selecting the k-th parked instance exchanges it with the selected one. -/
theorem selectInstance_of_getElem? {s : State} {k : Nat} {b : Block} (h : s.parked[k]? = some b) :
    selectInstance k s = { s with blk := b, parked := s.parked.set k s.blk } := by
  simp only [selectInstance, h]

theorem selectInstance_of_none {s : State} {k : Nat} (h : s.parked[k]? = none) :
    selectInstance k s = s := by
  simp only [selectInstance, h]

@[simp] theorem selectInstance_cfg (k : Nat) (s : State) : (selectInstance k s).cfg = s.cfg := by
  unfold selectInstance; split <;> rfl
@[simp] theorem selectInstance_mem (k : Nat) (s : State) : (selectInstance k s).mem = s.mem := by
  unfold selectInstance; split <;> rfl
@[simp] theorem selectInstance_inbox (k : Nat) (s : State) : (selectInstance k s).inbox = s.inbox := by
  unfold selectInstance; split <;> rfl
@[simp] theorem selectInstance_hostData (k : Nat) (s : State) :
    (selectInstance k s).hostData = s.hostData := by
  unfold selectInstance; split <;> rfl
@[simp] theorem selectInstance_draws (k : Nat) (s : State) : (selectInstance k s).draws = s.draws := by
  unfold selectInstance; split <;> rfl

/-- What an access did to the k-th parked instance, seen with the former selection. -/
theorem selectInstance_back {s t : State} {k : Nat} {b : Block} (h : s.parked[k]? = some b)
    (ht : t.parked = s.parked.set k s.blk) :
    selectInstance k t = { t with blk := s.blk, parked := s.parked.set k t.blk } := by
  have hlt : k < s.parked.length := (List.getElem?_eq_some_iff.1 h).1
  have e : t.parked[k]? = some s.blk := by rw [ht]; simp [hlt]
  rw [selectInstance_of_getElem? e, ht, List.set_set]

/-- Selecting the same index twice is no change. -/
@[simp] theorem selectInstance_selectInstance (k : Nat) (s : State) :
    selectInstance k (selectInstance k s) = s := by
  cases h : s.parked[k]? with
  | none => rw [selectInstance_of_none h, selectInstance_of_none h]
  | some b =>
    rw [selectInstance_of_getElem? h, selectInstance_back h rfl]
    obtain ⟨hlt, rfl⟩ := List.getElem?_eq_some_iff.1 h
    simp

/-- Selecting permutes the instances. -/
theorem selectInstance_perm (k : Nat) (s : State) :
    (selectInstance k s).instances.Perm s.instances := by
  cases h : s.parked[k]? with
  | none => rw [selectInstance_of_none h]
  | some b =>
    rw [selectInstance_of_getElem? h]
    obtain ⟨hlt, rfl⟩ := List.getElem?_eq_some_iff.1 h
    obtain ⟨ps, c, qs, hps, hk⟩ : ∃ ps c qs, s.parked = ps ++ c :: qs ∧ ps.length = k :=
      ⟨s.parked.take k, s.parked[k], s.parked.drop (k + 1), by simp, by simp; omega⟩
    subst hk
    simp only [State.instances, hps, List.set_append_right _ _ (Nat.le_refl _), Nat.sub_self,
      List.set_cons_zero, List.getElem_append_right (Nat.le_refl _), List.getElem_cons_zero]
    exact (List.Perm.cons c List.perm_middle).trans
      ((List.Perm.swap s.blk c _).trans (List.Perm.cons s.blk List.perm_middle.symm))

/-- An address among the selected instance's named slots reaches it. -/
theorem reached_selected {s : State} {addr : Nat} (h : s.blk.holdsAddr addr = true) :
    reached addr s = none := by
  simp [reached, h]

/-- An address among the named slots of the k-th parked instance alone reaches that one. -/
theorem reached_parked {s : State} {addr k : Nat} {b : Block} (hb : s.parked[k]? = some b)
    (h : b.holdsAddr addr = true) (hs : s.blk.holdsAddr addr = false)
    (hp : ∀ j c, j < k → s.parked[j]? = some c → c.holdsAddr addr = false) :
    reached addr s = some k := by
  obtain ⟨hlt, rfl⟩ := List.getElem?_eq_some_iff.1 hb
  have e : s.parked.findIdx? (fun b => b.holdsAddr addr) = some k :=
    List.findIdx?_eq_some_iff_getElem.2 ⟨hlt, h, fun j hj => by
      simpa using hp j _ hj (List.getElem?_eq_getElem (by omega))⟩
  simp [reached, hs, e]

/-- A whole slot of the selected instance that no parked instance names reaches the selected one. -/
theorem reached_unclaimed {s : State} {addr : Nat} (h : (slotAt s.blk addr).isSome = true)
    (hp : ∀ b ∈ s.parked, b.holdsAddr addr = false) : reached addr s = none := by
  have e : s.parked.findIdx? (fun b => b.holdsAddr addr) = none := by
    simpa [List.findIdx?_eq_none_iff] using hp
  simp [reached, e, h]

/-- Where an access reaches a parked instance, that instance exists, and either its named slots hold
the address or the address is a reserved slot of it. -/
theorem reached_some {s : State} {addr k : Nat} (h : reached addr s = some k) :
    ∃ b, s.parked[k]? = some b ∧
      (b.holdsAddr addr = true ∨ slotAt b addr = some .reserved) := by
  unfold reached at h
  split at h
  · cases h
  · split at h
    · rename_i j hj
      cases h
      obtain ⟨hlt, hb, _⟩ := List.findIdx?_eq_some_iff_getElem.1 hj
      exact ⟨_, List.getElem?_eq_getElem hlt, .inl hb⟩
    · rename_i hnone
      split at h
      · cases h
      · obtain ⟨hlt, hb, _⟩ := List.findIdx?_eq_some_iff_getElem.1 h
        refine ⟨_, List.getElem?_eq_getElem hlt, .inr ?_⟩
        have hout := List.findIdx?_eq_none_iff.1 hnone _ (List.getElem_mem hlt)
        unfold slotAt at hb ⊢
        split at hb
        · cases hb
        · rename_i ha
          rw [if_neg ha]
          simp only [Block.holdsAddr, Bool.and_eq_false_iff, decide_eq_false_iff_not] at hout
          rw [slotNumber_reserved (by omega)]

/-- A register access at the selected instance. -/
theorem regAccess_selected {s : State} {addr : Nat} (h : reached addr s = none)
    (f : Slot → State → Host.Outcome State Fault Refusal) :
    regAccess addr f s = slotAccess addr f s := by
  simp only [regAccess, h]

/-- A register access at a parked instance. -/
theorem regAccess_parked {s : State} {addr k : Nat} (h : reached addr s = some k)
    (f : Slot → State → Host.Outcome State Fault Refusal) :
    regAccess addr f s = onInstance k (slotAccess addr f) s := by
  simp only [regAccess, h]

/-- An access at a named slot, by its offset: it reaches the selected instance. -/
theorem regAccess_offset (s : State) {off : Nat} (h : off % 8 = 0) (hlt : off < 0x68)
    (f : Slot → State → Host.Outcome State Fault Refusal) :
    regAccess (s.blk.regBase + off) f s = f (slotNumber (off / 8)) s := by
  rw [regAccess_selected (reached_selected (by simp [Block.holdsAddr]; omega))]
  simp only [slotAccess, slotAt_offset _ h]

/-- An access at REG_BASE itself, CTRL. -/
@[simp] theorem regAccess_base (s : State) (f : Slot → State → Host.Outcome State Fault Refusal) :
    regAccess s.blk.regBase f s = f .ctrl s :=
  regAccess_offset s (off := 0) rfl (by decide) f

/-- An access at a slot from 13 up that no parked instance names. -/
theorem regAccess_reserved {s : State} {k : Nat} (hk : 13 ≤ k)
    (hp : ∀ b ∈ s.parked, b.holdsAddr (s.blk.regBase + 8 * k) = false)
    (f : Slot → State → Host.Outcome State Fault Refusal) :
    regAccess (s.blk.regBase + 8 * k) f s = f .reserved s := by
  rw [regAccess_selected (reached_unclaimed (by simp) hp)]
  simp only [slotAccess, slotAt_mul, slotNumber_reserved hk]

/-- A register access that goes on: at the selected instance, or at a parked one with the selection
given back. -/
theorem regAccess_cases {addr : Nat} {f : Slot → State → Host.Outcome State Fault Refusal}
    {s t : State} (h : regAccess addr f s = .next t) :
    (∃ slot, reached addr s = none ∧ slotAt s.blk addr = some slot ∧ f slot s = .next t) ∨
    (∃ k b slot u, reached addr s = some k ∧ s.parked[k]? = some b ∧
      (b.holdsAddr addr = true ∨ slotAt b addr = some .reserved) ∧
      slotAt b addr = some slot ∧ f slot (selectInstance k s) = .next u ∧ t = selectInstance k u) := by
  cases hr : reached addr s with
  | none =>
    rw [regAccess_selected hr] at h
    unfold slotAccess at h
    split at h
    · exact .inl ⟨_, rfl, ‹_›, h⟩
    · cases h
  | some k =>
    rw [regAccess_parked hr] at h
    obtain ⟨b, hb, hslot⟩ := reached_some hr
    unfold onInstance slotAccess at h
    rw [show (selectInstance k s).blk = b by rw [selectInstance_of_getElem? hb]] at h
    split at h
    · rename_i u hu
      cases h
      split at hu
      · exact .inr ⟨k, b, _, u, rfl, hb, hslot, ‹_›, hu, rfl⟩
      · cases hu
    · cases h
    · cases h

/-- A slot read changes the host's data and the draws, nothing else. -/
theorem readSlot_eq (slot : Slot) (s : State) :
    ∃ v n, readSlot slot s = { s with hostData := v, draws := n } := by
  unfold readSlot
  split <;> exact ⟨_, _, rfl⟩

/-- So does a register access that reads, whichever instance it reaches. -/
theorem regRead_eq {a : Nat} {s t : State} (h : hostEvent (.regRead a) s = .next t) :
    ∃ v n, t = { s with hostData := v, draws := n } := by
  rcases regAccess_cases h with ⟨slot, _, _, hf⟩ | ⟨k, b, slot, u, _, hb, _, _, hf, rfl⟩
  · cases hf
    exact readSlot_eq slot s
  · cases hf
    obtain ⟨v, n, e⟩ := readSlot_eq slot (selectInstance k s)
    rw [e, selectInstance_of_getElem? hb, selectInstance_back hb rfl]
    obtain ⟨hlt, rfl⟩ := List.getElem?_eq_some_iff.1 hb
    exact ⟨v, n, by simp⟩

/-- What a step keeps: whatever each kind of event keeps. -/
theorem step_keeps {P : State → Prop}
    (inbox : ∀ s l, P s → P { s with inbox := l })
    (turn : ∀ s t, P s → blockTurn s = .next t → P t)
    (slot : ∀ slot v s t, P s → writeSlot slot v s = .next t → P t)
    (read : ∀ s v n, P s → P { s with hostData := v, draws := n })
    (write : ∀ a v s t, P s → hostMemWrite a v s = .next t → P t)
    (reset : ∀ s, P s → P (resetInstance s))
    (select : ∀ k s, P s → P (selectInstance k s))
    {s t : State} (hs : P s) (h : step s = .next t) : P t := by
  unfold step at h
  split at h
  · exact turn _ _ hs h
  · rename_i e rest _
    have hs := inbox s rest hs
    cases e with
    | turn => exact turn _ _ hs h
    | regWrite a v =>
      rcases regAccess_cases h with ⟨_, _, _, hf⟩ | ⟨k, _, _, u, _, _, _, _, hf, rfl⟩
      · exact slot _ _ _ _ hs hf
      · exact select _ _ (slot _ _ _ _ (select _ _ hs) hf)
    | regRead a =>
      obtain ⟨v, n, rfl⟩ := regRead_eq h
      exact read _ _ _ hs
    | memWrite a v => exact write _ _ _ _ hs h
    | memRead a =>
      rcases hostMemRead_cases a { s with inbox := rest } with e | ⟨v, n, e⟩
      · rw [hostEvent, e] at h
        cases h
      · rw [hostEvent, e] at h
        cases h
        exact read _ _ _ hs
    | reset => cases h; exact reset _ hs
    | select k => cases h; exact select _ _ hs

/-! ## The regions of the host duties -/

theorem overlap_comm (p q : Nat × Nat) : overlap p q = overlap q p := by
  rw [Bool.eq_iff_iff]
  simp only [overlap, Bool.and_eq_true, decide_eq_true_eq]
  tauto

/-- Clashing is symmetric. -/
theorem regionsClash_comm (s : State) (b c : Block) : regionsClash s b c = regionsClash s c b := by
  unfold regionsClash
  rw [overlap_comm (outputRange s b) (outputRange s c), overlap_comm (outputRange s b) (segmentRange c),
    overlap_comm (segmentRange b) (outputRange s c), Bool.or_assoc, Bool.or_assoc,
    Bool.or_comm (overlap (segmentRange c) (outputRange s b))]

/-- An address in two ranges makes them overlap. -/
theorem overlap_of_mem {p q : Nat × Nat} {a : Nat} (hp : p.1 ≤ a ∧ a < p.1 + p.2)
    (hq : q.1 ≤ a ∧ a < q.1 + q.2) : overlap p q = true := by
  simp only [overlap, Bool.and_eq_true, decide_eq_true_eq]
  omega

/-- Where two instances' regions do not clash, an output byte of one lies in no region of the other. -/
theorem outside_of_not_regionsClash {s : State} {b c : Block} (h : regionsClash s b c = false) {a : Nat}
    (ha : inOutput s b a = true) : inSegment c a = false ∧ inOutput s c a = false := by
  simp only [regionsClash, Bool.or_eq_false_iff] at h
  simp only [inOutput, Bool.and_eq_true, decide_eq_true_eq] at ha
  constructor
  · rw [Bool.eq_false_iff]
    intro hc
    simp only [inSegment, Bool.and_eq_true, decide_eq_true_eq] at hc
    exact Bool.eq_false_iff.1 h.1.2 (overlap_of_mem ha hc)
  · rw [Bool.eq_false_iff]
    intro hc
    simp only [inOutput, Bool.and_eq_true, decide_eq_true_eq] at hc
    exact Bool.eq_false_iff.1 h.1.1 (overlap_of_mem ha hc)

/-- The size of an output region depends on the segment's bytes only. -/
theorem declaredOutSize_congr {s t : State} {b c : Block} (hc : t.cfg = s.cfg)
    (hs : c.srcBase = b.srcBase) (hl : c.segLen = b.segLen)
    (hm : ∀ a, inSegment b a = true → t.mem.read a = s.mem.read a) :
    declaredOutSize t c = declaredOutSize s b := by
  have e1 : c.segStart = b.segStart := by simp only [Block.segStart, hs]
  have e2 : c.segSize = b.segSize := by simp only [Block.segSize, hl]
  unfold declaredOutSize hasSizeField
  rw [hc, e1, e2]
  split
  · rename_i h
    simp only [Bool.and_eq_true, decide_eq_true_eq] at h
    have hb (k : Nat) (hk : k < 12) : t.mem.read (b.segStart + k) = s.mem.read (b.segStart + k) :=
      hm _ (by simp only [inSegment, Bool.and_eq_true, decide_eq_true_eq]; omega)
    unfold declaredUs
    rw [e1, hb 8 (by omega), hb 9 (by omega), hb 10 (by omega), hb 11 (by omega)]
  · rfl

/-- Whether two instances clash depends on where their regions lie only. -/
theorem regionsClash_congr {s t : State} {b b' c c' : Block} (hb : segmentRange b' = segmentRange b)
    (hb' : outputRange t b' = outputRange s b) (hc : segmentRange c' = segmentRange c)
    (hc' : outputRange t c' = outputRange s c) : regionsClash t b' c' = regionsClash s b c := by
  unfold regionsClash
  rw [hb, hb', hc, hc']

/-- START writes no memory. -/
theorem execStart_mem {s t : State} (h : execStart s = .next t) : t.mem = s.mem := by
  unfold execStart at h
  split at h
  · cases h; rfl
  · split at h
    · cases h
    · cases h; rfl

theorem undoWrites_wf (b : Block) {m : Memory} (w n : Nat) (h : m.wf) : (undoWrites b m w n).wf := by
  induction n with
  | zero => exact h
  | succ n ih => exact write_wf _ _ ih

theorem runWrites_wf (fuel target : Nat) {s : State} (h : s.mem.wf) :
    (runWrites fuel target s).mem.wf := by
  induction fuel generalizing s with
  | zero => exact h
  | succ fuel ih =>
    unfold runWrites
    split
    · split
      · exact ih ((turn_of_blockTurn ‹_›).wf h)
      · exact h
      · exact h
    · exact h

theorem memAfterReset_wf (m : Nat) {s : State} (h : s.mem.wf) : (memAfterReset m s).wf := by
  unfold memAfterReset
  split
  · split
    · exact undoWrites_wf _ _ _ h
    · exact runWrites_wf _ _ h
  · exact h

end Sys2Proof.Machine
end

