-- ==== Sys2Proof/Laws/PerInstr.lean ====
section
/-! SUPPORT. What is said of every instruction by its constructor. -/

namespace Sys2Proof.Laws.EncodedWidth

/-- The encoder writes as many bits as the opcode table gives the instruction (30_encoding.md R97 to
R99, R107). -/
def Statement (i : Instr) : Prop := (encode i).length = i.width

theorem lit (v : BitVec 8) : Statement (.lit v) := by
  simp [Statement, encode, Instr.width]

theorem bref (d : BitVec 13) : Statement (.bref d) := by
  simp [Statement, encode, Instr.width]

theorem g2 (g : BitVec 2) : Statement (.g2 g) := by
  simp [Statement, encode, Instr.width]

theorem g3 (g : BitVec 3) : Statement (.g3 g) := by
  simp [Statement, encode, Instr.width]

theorem g5 (g : BitVec 5) : Statement (.g5 g) := by
  simp [Statement, encode, Instr.width]

theorem g8 (g : BitVec 8) : Statement (.g8 g) := by
  simp [Statement, encode, Instr.width]

theorem tail (k : Nat) (g : BitVec 8) : Statement (.tail k g) := by
  simp [Statement, encode, Instr.width]
  omega

theorem start : Statement .start := by
  simp [Statement, encode, Instr.width]

end Sys2Proof.Laws.EncodedWidth
end

