-- ==== Sys2Proof/Tests/Slice0.lean ====
section
/-! SUPPORT. Tests of the model against the spec's encodings and vectors (95_test_vectors.md), and for
each statement of Certificates/Slice0 with hypotheses a state and operands that meet them. -/

namespace Sys2Proof.Machine.Tests

/-! ## WellFormed refuses each ill-formed term -/

theorem test_wellFormed_refuses_g2 : (Instr.g2 3).wellFormed = false := by decide
theorem test_wellFormed_refuses_g3 : (Instr.g3 7).wellFormed = false := by decide
theorem test_wellFormed_refuses_g5 : (Instr.g5 31).wellFormed = false := by decide
theorem test_wellFormed_refuses_g8 : (Instr.g8 255).wellFormed = false := by decide
theorem test_wellFormed_refuses_tail : (Instr.tail 2 255).wellFormed = false := by decide

/-! ## Decoding, words written out from 30_encoding.md and 95_test_vectors.md T2, T3 -/

/-- LIT 0x41 = `0 01000001` (T2). -/
theorem test_decode_lit :
    decodeAt .token [false, false, true, false, false, false, false, false, true] =
      .ok (.lit 0x41, []) := by decide

/-- BREF 2 is `1 0000000000010` (P4), and the length code is left. -/
theorem test_decode_bref :
    decodeAt .token [true, false, false, false, false, false, false, false, false, false, false, false,
      true, false, true, true] = .ok (.bref 2, [true, true]) := by decide

/-- LEN 5 = `10` (T3). -/
theorem test_decode_g2 : decodeAt .length [true, false] = .ok (.g2 2, []) := by decide

/-- LEN 12 = `11 110` (T3). -/
theorem test_decode_g3 :
    decodeAt .length [true, true, true, true, false] = .ok (.g3 6, []) := by decide

/-- LEN 43 = `11 111 11110` (T3). -/
theorem test_decode_g5 :
    decodeAt .length [true, true, true, true, true, true, true, true, true, false] =
      .ok (.g5 30, []) := by decide

/-- LEN 44 = `11 111 11111 00000000` (T3). -/
theorem test_decode_g8 :
    decodeAt .length (List.replicate 10 true ++ List.replicate 8 false) = .ok (.g8 0, []) := by decide

/-- LEN 808 = `11 111 11111 11111111 11111111 11111110` (T3). -/
theorem test_decode_tail :
    decodeAt .length (List.replicate 33 true ++ [false]) = .ok (.tail 1 254, []) := by decide

/-- 30_encoding.md R107: bit 0 alone makes the command. -/
theorem test_decode_start :
    decodeCommand 1 = some .start ∧ decodeCommand 0xFFFFFFFFFFFFFFFE = none := by decide

/-- The lengths of T3. -/
theorem test_lengths :
    [Instr.g2 0, .g2 2, .g3 0, .g3 6, .g5 0, .g5 30, .g8 0, .g8 254, .tail 0 0, .tail 0 254,
      .tail 1 0, .tail 1 254, .tail 2 0].map codeLength =
      [3, 5, 6, 12, 13, 43, 44, 298, 299, 553, 554, 808, 809].map some := by decide

/-- 30_encoding.md R102 on the lengths of T3. -/
theorem test_encLength :
    encLength 12 = [true, true, true, true, false] ∧
      encLength 298 = List.replicate 17 true ++ [false] ∧
      encLength 554 = List.replicate 26 true ++ List.replicate 8 false := by decide

/-- The opcode table's bit 0 is the first stream bit: LIT 0x41 is bits 2 and 8, BREF 1 is bits 0 and
13, `11 001` is G3, ten ones and a zero group G8, CTRL = 1 START. -/
theorem test_decodeTableWord :
    decodeTableWord 16 0x104 = some (.lit 0x41) ∧ decodeTableWord 16 0x2001 = some (.bref 1) ∧
      decodeTableWord 8 0x13 = some (.g3 1) ∧ decodeTableWord 16 0x1F = some (.g5 0) ∧
      decodeTableWord 24 0x3FF = some (.g8 0) ∧ decodeTableWord 24 0x3FFFF = some (.tail 0 0) ∧
      decodeTableWord 64 1 = some .start := by decide +kernel

/-! ## A machine in the middle of program P2 -/

/-- P2 (95_test_vectors.md): its prologue and payload at 0x1000, a header block of zeros, and the four
literals already at the top of the output. -/
def memP2 : Memory :=
  [(0x1008, 0x08), (0x100C, 0x07), (0x1010, 0x10), (0x1012, 0x48), (0x1013, 0x64), (0x1014, 0x88),
    (0x1015, 0x90), (0x1016, 0x20), (0x8104, 0x44), (0x8105, 0x43), (0x8106, 0x42), (0x8107, 0x41)]

/-- P2's registers with the given sub-phase, BYTES_OUT, cursor and latches. -/
def blkP2 (sub : Sub) (out : BitVec 32) (c : Cursor) (l : Latches) : Block :=
  { Block.reset with
    phase := .busy sub, srcBase := 0x1000, segLen := 0x117, dstBase := 0x8000, dstCap := 0x10000
    uncompSize := 8, hbRelOff := 7, bytesOut := out, cursor := c, latches := l }

/-- The machine around it: every address below 2^32 is accessible. -/
def onP2 (sub : Sub) (out : BitVec 32) (c : Cursor) (l : Latches) : State :=
  { State.reset with blk := blkP2 sub out c l, mem := memP2 }

/-- `s` where the addresses lo ≤ a < hi are not accessible. -/
def holed (s : State) (lo hi : Nat) : State := { s with cfg := { s.cfg with holes := [(lo, hi)] } }

/-- The cursor after INIT. -/
def cursorInit : Cursor := { offset := 0x1016, pool := 0, bitsLeft := 0 }
/-- After the four literals: P = 36. -/
def cursorLits : Cursor := { offset := 0x1011, pool := 0x48, bitsLeft := 4 }
/-- After BREF's distance: P = 50. -/
def cursorDist : Cursor := { offset := 0x100F, pool := 0x10, bitsLeft := 6 }
/-- After its length code: P = 52. -/
def cursorEnd : Cursor := { offset := 0x100F, pool := 0x10, bitsLeft := 4 }
/-- No value in the latches. -/
def noLatches : Latches := { dist := 0, brIdx := 0, len := 0, lvl := 0 }
/-- BREF 0, 4 after its distance. -/
def distLatches : Latches := { dist := 0, brIdx := 0x106, len := 0, lvl := 0 }
/-- BREF 0, 4 before its first copied byte. -/
def copyLatches : Latches := { dist := 0, brIdx := 0x106, len := 4, lvl := 1 }

/-- About to copy header byte i. -/
def atHdr (i : Fin 256) : State := onP2 (.hdr i) 0 { offset := 0, pool := 0, bitsLeft := 0 } noLatches
/-- At INIT. -/
def atInit : State := onP2 .init 0 { offset := 0, pool := 0, bitsLeft := 0 } noLatches
/-- At the first token. -/
def atFirst : State := onP2 .token 0 cursorInit noLatches
/-- At the BREF, four literals produced. -/
def atBref : State := onP2 .token 4 cursorLits noLatches
/-- At its length code. -/
def atLength : State := onP2 .bref 4 cursorDist distLatches
/-- At its first copied byte. -/
def atCopy : State := onP2 .copy 4 cursorEnd copyLatches
/-- All eight bytes produced. -/
def atEnd : State := onP2 .token 8 cursorEnd noLatches
/-- Right after an accepted START. -/
def atStart : State :=
  acceptStart { onP2 .pre 0 cursorInit noLatches with
    blk := { blkP2 .pre 0 cursorInit noLatches with phase := .done } }
/-- P2 started, in the sub-phase given, its two sizes latched or not. -/
def frontEnd (sub : Sub) (us hb : BitVec 32) : State :=
  (atStart.setSizes us hb).setPhase (.busy sub)

/-- A second instance at REG_BASE 0x100 that decodes the same segment to 0x30000. -/
def twin : Block := { atStart.blk with regBase := 0x100, dstBase := 0x30000 }
/-- P2 at its copy, and the second instance running beside it. -/
def twoRunning : State := { atCopy with parked := [twin] }
/-- P2 done, and the second instance at rest. -/
def twoResting : State := { atEnd.setPhase .done with parked := [{ twin with phase := .idle }] }

/-- What a step leaves, or none where it stops. -/
def after {α : Type} (r : Host.Outcome State Fault Refusal) (f : State → α) : Option α :=
  match r with
  | .next s => some (f s)
  | .fault _ => none
  | .refused _ => none

/-! ## One step of each instruction, from 95_test_vectors.md -/

/-- T2, first row with P2's us = 8: Out[TOP] = 0x41, and 9 bits are consumed. -/
theorem test_lit :
    after (step atFirst) (fun t => (t.mem.read 0x8107, t.blk.bytesOut, t.blk.cursor.offset,
      t.blk.cursor.bitsLeft, t.blk.phase)) = some (0x41, 1, 0x1014, 7, .busy .token) := by decide

/-- X13b: a write bus error leaves BYTES_OUT and reports the address. -/
theorem test_lit_bus_error :
    after (exec (.lit 0x43) (holed atBref 0x8103 0x8104))
      (fun t => (t.blk.phase, t.blk.errCode, t.blk.errInfo, t.blk.bytesOut)) =
      some (.error, .outputAccessFailure, 0x8103, 4) := by decide

/-- P2's trace: BR_IDX = 0x106. -/
theorem test_bref :
    after (step atBref) (fun t => (t.blk.latches.dist, t.blk.latches.brIdx, t.blk.cursor, t.blk.phase)) =
      some (0, 0x106, cursorDist, .busy .bref) := by decide

/-- X9b, with four bytes produced and o = 5: one too far. -/
theorem test_bref_out_of_range :
    after (exec (.bref 2) atBref) (fun t => (t.blk.phase, t.blk.errCode, t.blk.errInfo)) =
      some (.error, .backrefOutOfRange, 0x108) := by decide

/-- P2's trace: LEN = 4 from `01`. -/
theorem test_g2 :
    after (step atLength) (fun t => (t.blk.latches.len, t.blk.latches.lvl, t.blk.cursor, t.blk.phase)) =
      some (4, 1, cursorEnd, .busy .copy) := by decide

/-- X8: LEN 5 with 4 remaining. -/
theorem test_g2_overrun :
    after (exec (.g2 2) atLength) (fun t => (t.blk.phase, t.blk.errCode, t.blk.errInfo, t.blk.bytesOut)) =
      some (.error, .outputOverrun, 5, 4) := by decide

/-- T3 rows 6, 43, 44 and 554, each beyond the 4 bytes that remain. -/
theorem test_longer_codes :
    ([Instr.g3 0, .g5 30, .g8 0, .tail 1 0].map fun i =>
      after (exec i atLength) fun t => (t.blk.latches.len, t.blk.latches.lvl, t.blk.errInfo)) =
      [some (6, 2, 6), some (43, 3, 43), some (44, 4, 44), some (554, 4, 554)] := by decide

/-- P2's trace: the first copied byte is Out[0x103] ← Out[0x106] = 0x42. -/
theorem test_copy :
    after (step atCopy) (fun t => (t.mem.read 0x8103, t.blk.bytesOut, t.blk.latches)) =
      some (0x42, 5, { copyLatches with brIdx := 0x105, len := 3 }) := by decide

/-- START clears the results and begins at PRE. -/
theorem test_start :
    after (exec .start { atEnd with blk := { atEnd.blk with phase := .done } })
      (fun t => (t.blk.phase, t.blk.bytesOut, t.blk.uncompSize, t.blk.cursor.offset)) =
      some (.busy .pre, 0, 0, 0) := by decide

/-- 41_segment_framing.md R141. -/
theorem test_start_while_busy : exec .start atCopy = .next atCopy := by rfl

/-- T1, last block: the third request finds one bit and no byte. -/
theorem test_readBits_underflow :
    (match readBits 7 atLength with
      | .ok _ _ => none
      | .raised t => some (t.blk.errCode, t.blk.errInfo, t.blk.cursor)) =
      some (.sourceUnderflow, 0x100F, { cursorDist with bitsLeft := 0 }) := by decide

/-! ## Register accesses at another instance's REG_BASE, 10_state.md R42 -/

/-- SRC_BASE of the second instance is read, and its DST_CAP written, with the first one selected. -/
theorem test_access_by_address :
    after (hostEvent (.regRead 0x120) twoRunning) (fun t => (t.hostData, t.blk.regBase)) =
        some (0x1000, 0) ∧
      after (hostEvent (.regWrite 0x138 5) twoResting) (fun t => t.parked.map Block.dstCap) =
        some [5] := by decide

/-- 0x167 is no whole slot of either instance, and 0x168 a reserved one. -/
theorem test_access_reserved :
    hostEvent (.regRead 0x167) twoResting = .refused .notASlot ∧
      hostEvent (.regWrite 0x168 5) twoResting = .next twoResting := ⟨rfl, rfl⟩

/-- The map of 10_state.md R23: how many bits each slot uses, ADDR_W being 32. -/
theorem test_usedBits :
    (List.range 14).map (fun k => usedBits Config.default (slotNumber k)) =
      [1, 3, 4, 64, 32, 64, 32, 64, 32, 32, 32, 32, 12, 0] := by decide

/-- BYTES_OUT while BUSY: bits 63:32 are reserved. -/
theorem test_busy_read_cuts :
    after (hostEvent (.regRead 0x50) atCopy) (fun t => t.hostData) =
      some (lowBits 32 (Config.freeSlot 0)) := rfl

/-! ## The front end, T5 -/

/-- X2. -/
theorem test_x2 :
    after (blockTurn (atStart.setBlk { atStart.blk with segLen := 15 }))
      (fun t => (t.blk.errCode, t.blk.errInfo)) = some (.framingMismatch, 0) := by decide

/-- X14. -/
theorem test_x14 :
    after (blockTurn (atStart.setBlk { atStart.blk with srcBase := 0xFFFFFF00, segLen := 0x118 }))
      (fun t => (t.blk.errCode, t.blk.errInfo)) = some (.sourceReadFailure, 0x100000018) := by decide

/-- X1: the signature 43 52 49 4C 00 00 00 00. -/
theorem test_x1 :
    after (blockTurn { frontEnd .sig 0 0 with
        mem := [(0x1000, 0x43), (0x1001, 0x52), (0x1002, 0x49), (0x1003, 0x4C)] })
      (fun t => (t.blk.errCode, t.blk.errInfo)) = some (.badSignature, 0x4352494C00000000) := by decide

/-- The sizes of P2's prologue. -/
theorem test_sizes :
    after (blockTurn (frontEnd .sizes 0 0)) (fun t => (t.blk.uncompSize, t.blk.hbRelOff, t.blk.phase)) =
      some (8, 7, .busy .frame) := by decide

/-- X3, with L = 0x117 and an hb field of 8. -/
theorem test_x3 :
    after (blockTurn (frontEnd .frame 8 8)) (fun t => (t.blk.errCode, t.blk.errInfo)) =
      some (.framingMismatch, 8) := by decide

/-- X5: DST_BASE inside the segment. -/
theorem test_x5 :
    after (blockTurn ((frontEnd .alloc 8 7).setBlk { (frontEnd .alloc 8 7).blk with dstBase := 0x1100 }))
      (fun t => (t.blk.errCode, t.blk.errInfo)) = some (.outputAliasesSource, 0x1100) := by decide

/-! ## A word of the opcode table is placed where the next step runs it -/

/-- From reset, TOP = 0x100 with the one byte us is raised to. -/
theorem test_withFetchWord_lit :
    after (step (State.reset.withFetchWord 16 0x104)) (fun t => (t.mem.read 0x100, t.blk.bytesOut)) =
      some (0x41, 1) := by decide +kernel

theorem test_withFetchWord_start :
    after (step (State.reset.withFetchWord 64 1)) (fun t => t.blk.phase) = some (.busy .pre) := by decide

/-! ## The invariant holds in the middle of P2 -/

theorem accessible_default {a : Nat} (h : a < 2 ^ 32) : accessible Config.default a = true := by
  simp only [accessible, Config.default, List.all_nil, Bool.and_true]
  exact decide_eq_true h

theorem allocated_P2 (sub : Sub) (out : BitVec 32) (c : Cursor) (l : Latches) :
    Allocated Config.default (blkP2 sub out c l) where
  long := by change 16 ≤ (0x117 : Word).toNat; decide
  fits := by change (0x1000 : Word).toNat + (0x117 : Word).toNat ≤ 2 ^ 32; decide
  framing := by change 16 + (7 : BitVec 32).toNat + 0x100 = (0x117 : Word).toNat; decide
  capacity := by change 0x100 + (8 : BitVec 32).toNat ≤ (0x10000 : Word).toNat; decide
  range := by change (0x8000 : Word).toNat + (0x100 + (8 : BitVec 32).toNat) ≤ 2 ^ 32; decide
  apart := .inl (by change (0x1000 : Word).toNat + (0x117 : Word).toNat ≤ (0x8000 : Word).toNat; decide)

theorem inv_onP2 {sub : Sub} {out : BitVec 32} {c : Cursor} {l : Latches} (hc : c.offset.toNat < 2 ^ 32)
    (h : SubInv Config.default (blkP2 sub out c l) sub) : (onP2 sub out c l).Inv where
  legal := by change Config.default.Legal; decide
  blk :=
    { srcFits := by change (0x1000 : Word).toNat < 2 ^ 32; decide
      dstFits := by change (0x8000 : Word).toNat < 2 ^ 32; decide
      offsetFits := hc
      errIff := ⟨fun h => (by cases h), fun h => absurd rfl h⟩
      noInfo := fun _ => rfl
      idle := fun h => by cases h
      done := fun h => by cases h
      busy := fun sub' h => by cases h; assumption
      before := ⟨.nil, fun _ h => by cases h⟩ }
  parked := fun b h => by cases h
  mem := by change Memory.wf memP2; decide

theorem inLoop_P2 {sub : Sub} {out : BitVec 32} {c : Cursor} {l : Latches}
    (hc : CursorInRange (blkP2 sub out c l)) (ho : out.toNat ≤ 8) :
    InLoop Config.default (blkP2 sub out c l) :=
  { allocated_P2 sub out c l with cursor := hc, count := ho }

/-- At INIT with no payload at all. -/
def atInitEmpty (us : BitVec 32) : State :=
  { atInit with blk := { atInit.blk with segLen := 0x110, uncompSize := us, hbRelOff := 0 } }

theorem inv_atInitEmpty {us : BitVec 32} (h : us.toNat ≤ 8) : (atInitEmpty us).Inv where
  legal := by change Config.default.Legal; decide
  blk :=
    { srcFits := by change (0x1000 : Word).toNat < 2 ^ 32; decide
      dstFits := by change (0x8000 : Word).toNat < 2 ^ 32; decide
      offsetFits := by change (0 : Word).toNat < 2 ^ 32; decide
      errIff := ⟨fun h => (by cases h), fun h => absurd rfl h⟩
      noInfo := fun _ => rfl
      idle := fun h => by cases h
      done := fun h => by cases h
      busy := fun sub hs => by
        cases hs
        exact ⟨⟨⟨⟨by change 16 ≤ (0x110 : Word).toNat; decide,
          by change (0x1000 : Word).toNat + (0x110 : Word).toNat ≤ 2 ^ 32; decide⟩, rfl⟩,
          by change 0x100 + us.toNat ≤ 0x10000; omega, by change 0x8000 + (0x100 + us.toNat) ≤ 2 ^ 32; omega,
          .inl (by change (0x1000 : Word).toNat + (0x110 : Word).toNat ≤ (0x8000 : Word).toNat; decide)⟩,
          rfl, rfl⟩
      before := ⟨.nil, fun _ h => by cases h⟩ }
  parked := fun b h => by cases h
  mem := by change Memory.wf memP2; decide

theorem onStream_atFirst : CursorOnStream atFirst := ⟨⟨by decide, by decide, by decide⟩, by decide⟩
theorem onStream_atBref : CursorOnStream atBref := ⟨⟨by decide, by decide, by decide⟩, by decide⟩
theorem onStream_atLength : CursorOnStream atLength := ⟨⟨by decide, by decide, by decide⟩, by decide⟩
theorem onStream_atCopy : CursorOnStream atCopy := ⟨⟨by decide, by decide, by decide⟩, by decide⟩
theorem onStream_atEnd : CursorOnStream atEnd := ⟨⟨by decide, by decide, by decide⟩, by decide⟩

theorem inv_atHdr (i : Fin 256) : (atHdr i).Inv := inv_onP2 (by decide) ⟨allocated_P2 _ _ _ _, rfl, rfl⟩
theorem inv_atInit : atInit.Inv := inv_onP2 (by decide) ⟨allocated_P2 _ _ _ _, rfl, rfl⟩
theorem inv_atFirst : atFirst.Inv :=
  inv_onP2 (by decide) (inLoop_P2 onStream_atFirst.inRange (by decide))
theorem inv_atBref : atBref.Inv :=
  inv_onP2 (by decide) (inLoop_P2 onStream_atBref.inRange (by decide))
theorem inv_atLength : atLength.Inv :=
  inv_onP2 (by decide)
    ⟨inLoop_P2 onStream_atLength.inRange (by decide), by decide, by decide, by decide⟩
theorem inv_atCopy : atCopy.Inv :=
  inv_onP2 (by decide)
    ⟨inLoop_P2 onStream_atCopy.inRange (by decide), by decide, by decide, by decide, by decide⟩
theorem inv_atEnd : atEnd.Inv :=
  inv_onP2 (by decide) (inLoop_P2 onStream_atEnd.inRange (by decide))

theorem inv_twoRunning : twoRunning.Inv where
  legal := by change Config.default.Legal; decide
  blk := inv_atCopy.blk
  parked := fun b h => by
    obtain rfl : b = twin := by simpa [twoRunning] using h
    exact
      { srcFits := by decide
        dstFits := by decide
        offsetFits := by decide
        errIff := ⟨fun h => (by cases h), fun h => absurd rfl h⟩
        noInfo := fun _ => rfl
        idle := fun h => by cases h
        done := fun h => by cases h
        busy := fun sub h => by cases h; exact ⟨rfl, rfl, rfl, rfl⟩
        before := by change Memory.wf memP2; decide }
  mem := by change Memory.wf memP2; decide

/-- Every payload byte and every output byte of P2 is accessible. -/
theorem payload_accessible (sub : Sub) (out : BitVec 32) (c : Cursor) (l : Latches) :
    PayloadAccessible (onP2 sub out c l) := by
  intro a _ h
  have h : a ≤ 0x1016 := h
  exact accessible_default (by omega)

theorem output_accessible (sub : Sub) (out : BitVec 32) (c : Cursor) (l : Latches) :
    OutputAccessible (onP2 sub out c l) := by
  intro i h
  have h : i < 0x108 := h
  have e : (onP2 sub out c l).blk.outAddr i = 0x8000 + i := rfl
  rw [e]
  exact accessible_default (by omega)

/-! ## Each statement's hypotheses are met

`test_witness_<Name>` meets the hypotheses of Obligations.<Name>, clause by clause where the clauses have
hypotheses of their own, at a boundary of their range where there is one. -/

theorem test_witness_DecodeOfEncode :
    ∀ i ∈ [Instr.lit 255, .bref 8191, .g2 2, .g3 6, .g5 30, .g8 254, .tail 3 254, .start],
      i.wellFormed = true := by decide

theorem test_witness_DecodedBitsAreTheEncoding :
    Position.token ≠ .command ∧ Position.length ≠ .command ∧
      decodeAt .token (List.replicate 14 true) = .ok (.bref 8191, []) ∧
      decodeAt .length [true, true, true, true, false, true] = .ok (.g3 6, [true]) := by decide

theorem test_witness_EveryBitStringBeginsAToken :
    decodeAt .token (List.replicate 13 true) = .error .outOfBits ∧
      decodeAt .length (List.replicate 18 true) = .error .outOfBits := by decide

theorem test_witness_EachLengthHasOneCode :
    3 ≤ 3 ∧ (Instr.g2 0).wellFormed = true ∧ codeLength (.g2 0) = some 3 ∧
      encode (.bref 1) ++ encLength 298 = encode (.bref 1) ++ encLength 298 := by decide

theorem test_witness_LengthCodeForms :
    (Instr.g8 254).position = .length ∧ (Instr.g8 254).wellFormed = true ∧
      codeLength (.g8 254) = codeLength (.g8 254) := by decide

theorem test_witness_ReadBitsDeliversTheStream :
    CursorOnStream atLength ∧
      readBits 6 atLength = .ok 0x10 (atLength.setCursor { cursorDist with bitsLeft := 0 }) :=
  ⟨onStream_atLength, rfl⟩

/-- 6 bits are left at the length code, so 6 succeeds and 7 does not. -/
theorem test_witness_ReadBitsSucceedsExactly :
    CursorOnStream atLength ∧ atLength.blk.cursor.bitsLeft.val < 8 ∧
      atLength.blk.bitsConsumed + 6 ≤ 8 * atLength.blk.hb ∧ PayloadAccessible atLength ∧
      8 * atLength.blk.hb < atLength.blk.bitsConsumed + 7 :=
  ⟨onStream_atLength, by decide, by decide, payload_accessible _ _ _ _, by decide⟩

theorem test_witness_ReadBitsWritesOnlyTheCursor :
    (∃ v t, readBits 6 atLength = .ok v t) ∧ ∃ t, readBits 7 atLength = .raised t :=
  ⟨⟨_, _, rfl⟩, _, rfl⟩

theorem test_witness_LazyFetch :
    CursorOnStream atLength ∧ atLength.blk.cursor.bitsLeft.val < 8 ∧
      (∃ v t, readBits 6 atLength = .ok v t) ∧ 6 ≤ atLength.blk.cursor.bitsLeft.val :=
  ⟨onStream_atLength, by decide, ⟨_, _, rfl⟩, by decide⟩

/-- An underflow after a fetch, with an empty pool at the request, and a bus error at the first payload
byte read. -/
theorem test_witness_FetchErrorsArePrecise :
    let under := onP2 .token 0 { cursorEnd with bitsLeft := 0 } noLatches
    let bus := holed atFirst 0x1016 0x1017
    (under.blk.cursor.bitsLeft = 0 ∧ under.blk.cursor.offset.toNat + 1 = under.blk.payloadStart ∧
      (∃ t, fillPool under = .raised t) ∧ ∃ t, readBits 1 under = .raised t) ∧
    (bus.blk.cursor.bitsLeft = 0 ∧ bus.blk.payloadStart ≤ bus.blk.cursor.offset.toNat ∧
      accessible bus.cfg bus.blk.cursor.offset.toNat = false ∧ (∃ t, fillPool bus = .raised t) ∧
      ∃ t, readBits 1 bus = .raised t ∧ bus.blk.payloadStart ≤ t.blk.cursor.offset.toNat) ∧
    (∃ t, readBits 7 atLength = .raised t ∧ t.blk.cursor.offset.toNat < atLength.blk.payloadStart ∧
      CursorOnStream atLength) :=
  ⟨⟨rfl, by decide, ⟨_, rfl⟩, _, rfl⟩, ⟨rfl, by decide, by decide, ⟨_, rfl⟩, _, rfl, by decide⟩,
    _, rfl, by decide, onStream_atLength⟩

/-- The last byte, Out[0x100], reached and not reached. -/
theorem test_witness_LitWritesItsByte :
    let s := onP2 .token 7 cursorLits noLatches
    s.mem.wf ∧ s.blk.bytesOut.toNat < s.blk.us ∧ s.blk.outAddr s.blk.dst = 0x8100 ∧
      accessible s.cfg 0x8100 = true ∧ accessible (holed s 0x8100 0x8101).cfg 0x8100 = false := by
  decide

/-- With 4 bytes produced, distance 1 is the last in range. -/
theorem test_witness_BrefRangeCheck :
    atBref.blk.bytesOut.toNat ≤ atBref.blk.us ∧ (1 : BitVec 13).toNat + 3 ≤ atBref.blk.bytesOut.toNat ∧
      atBref.blk.bytesOut.toNat < (2 : BitVec 13).toNat + 3 := by decide

/-- Every form at exactly the bytes that are left, on a state with us = LEN. -/
theorem test_witness_LengthCodesGoOnToCopy :
    let left (us : BitVec 32) : Nat :=
      let s := atFirst.setSizes us 7
      s.blk.us - s.blk.bytesOut.toNat
    3 + (2 : BitVec 2).toNat ≤ left 5 ∧ 6 + (6 : BitVec 3).toNat ≤ left 12 ∧
      13 + (30 : BitVec 5).toNat ≤ left 43 ∧ 44 + (254 : BitVec 8).toNat ≤ left 298 ∧
      299 + 255 * 1 + (254 : BitVec 8).toNat ≤ left 808 := by decide

/-- 4 bytes are left: 5 overruns and 4 does not. -/
theorem test_witness_OverrunRefusesTheWholeToken :
    codeLength (.g2 2) = some 5 ∧ atLength.blk.us - atLength.blk.bytesOut.toNat < 5 ∧
      codeLength (.g2 1) = some 4 ∧ 4 = atLength.blk.us - atLength.blk.bytesOut.toNat := by decide

theorem test_witness_CopyStepMovesOneByte :
    let last := atCopy.setLatches { copyLatches with len := 1 }
    (atCopy.mem.wf ∧ atCopy.blk.phase = .busy .copy ∧ 1 < atCopy.blk.latches.len ∧
      atCopy.blk.bytesOut.toNat < atCopy.blk.us ∧ atCopy.blk.outAddr atCopy.blk.latches.brIdx = 0x8106 ∧
      atCopy.blk.outAddr (atCopy.blk.top - atCopy.blk.bytesOut.toNat) = 0x8103 ∧
      accessible atCopy.cfg 0x8106 = true ∧ accessible atCopy.cfg 0x8103 = true) ∧
    (last.blk.phase = .busy .copy ∧ last.blk.latches.len = 1) ∧
    accessible (holed atCopy 0x8106 0x8107).cfg 0x8106 = false ∧
    accessible (holed atCopy 0x8103 0x8104).cfg 0x8106 = true ∧
    accessible (holed atCopy 0x8103 0x8104).cfg 0x8103 = false := by decide

/-- P2's copy: n = 4 at offset 3, so the last byte is one the copy wrote. -/
theorem test_witness_CopyRepeatsWithItsOffset :
    atCopy.Inv ∧ atCopy.blk.phase = .busy .copy ∧ OutputAccessible atCopy ∧
      atCopy.blk.latches.dist.toNat + 3 < atCopy.blk.latches.len :=
  ⟨inv_atCopy, rfl, output_accessible _ _ _ _, by decide⟩

theorem test_witness_StartBeginsADecode :
    State.reset.blk.isBusy = false ∧ startClashes State.reset = false ∧
      (let s := { State.reset with parked := [{ Block.reset with regBase := 0x100 }] }
       ∀ b ∈ s.parked, b.isBusy = false) ∧
      (0xFFFFFFFFFFFFFFFF : Word).getLsbD 0 = true := by decide

theorem test_witness_StartIgnored :
    atCopy.blk.isBusy = true ∧ (0xFFFFFFFFFFFFFFFE : Word).getLsbD 0 = false := by decide

/-- L = 15 and 16; S + L = 2^32 + 1 and 2^32. -/
theorem test_witness_PrechecksComeFirst :
    let s (l : Word) : State := atStart.setBlk { atStart.blk with srcBase := 0xFFFFFFF0, segLen := l }
    (∀ l, (s l).blk.phase = .busy .pre) ∧ (s 15).blk.segLen.toNat < 16 ∧
      (16 ≤ (s 17).blk.segLen.toNat ∧
        2 ^ (s 17).cfg.addrW < (s 17).blk.srcBase.toNat + (s 17).blk.segLen.toNat) ∧
      16 ≤ (s 16).blk.segLen.toNat ∧
        (s 16).blk.srcBase.toNat + (s 16).blk.segLen.toNat ≤ 2 ^ (s 16).cfg.addrW :=
  ⟨fun _ => rfl, by decide, by decide, by decide, by decide⟩

/-- Eight zero bytes, MAGIC, another value; a bus error at the first and at the eighth byte. -/
theorem test_witness_SignatureCheck :
    let s := frontEnd .sig 0 0
    let magic : Memory := [(0x1000, 0x43), (0x1001, 0x52), (0x1002, 0x49), (0x1003, 0x4C),
      (0x1004, 0x41), (0x1005, 0x59), (0x1006, 0x4C), (0x1007, 0x41)]
    let v (m : Memory) : Nat :=
      ∑ i ∈ Finset.range 8, (m.read (s.blk.segStart + i)).toNat * 2 ^ (8 * (7 - i))
    s.blk.phase = .busy .sig ∧ (∀ i, i < 8 → accessible s.cfg (s.blk.segStart + i) = true) ∧
      v s.mem = 0 ∧ v magic = s.cfg.magic.toNat ∧ v [(0x1007, 1)] = 1 ∧
      accessible (holed s 0x1000 0x1001).cfg 0x1000 = false ∧
      (∀ j, j < 7 → accessible (holed s 0x1007 0x1008).cfg (s.blk.segStart + j) = true) ∧
      accessible (holed s 0x1007 0x1008).cfg (s.blk.segStart + 7) = false := by
  refine ⟨rfl, by decide, ?_, ?_, ?_, by decide, by decide, by decide⟩ <;>
    simp only [Finset.sum_range_succ, Finset.sum_range_zero] <;> decide

theorem test_witness_SizesAreLatched :
    let s := frontEnd .sizes 0 0
    s.blk.phase = .busy .sizes ∧ (∀ i, i < 8 → accessible s.cfg (s.blk.segStart + 8 + i) = true) ∧
      accessible (holed s 0x1008 0x1009).cfg (s.blk.segStart + 8 + 0) = false ∧
      (∀ j, j < 7 → accessible (holed s 0x100F 0x1010).cfg (s.blk.segStart + 8 + j) = true) ∧
      accessible (holed s 0x100F 0x1010).cfg (s.blk.segStart + 8 + 7) = false := by decide

theorem test_witness_FramingEquation :
    let s := frontEnd .frame 8 7
    let t := frontEnd .frame 8 8
    s.blk.phase = .busy .frame ∧ 16 + s.blk.hbRelOff.toNat + 0x100 = s.blk.segLen.toNat ∧
      t.blk.phase = .busy .frame ∧ 16 + t.blk.hbRelOff.toNat + 0x100 ≠ t.blk.segLen.toNat := by decide

/-- DST_CAP one short and just enough; the region one past 2^32; touching the segment and one inside. -/
theorem test_witness_OutputChecksInOrder :
    let s (dst cap : Word) : State :=
      (frontEnd .alloc 8 7).setBlk { (frontEnd .alloc 8 7).blk with dstBase := dst, dstCap := cap }
    let need := 0x108
    (∀ d c, (s d c).blk.phase = .busy .alloc ∧ 0x100 + (s d c).blk.uncompSize.toNat = need) ∧
      (s 0x8000 0x107).blk.dstCap.toNat < need ∧ need ≤ (s 0x8000 0x108).blk.dstCap.toNat ∧
      2 ^ 32 < (s 0xFFFFFEF9 0x108).blk.dstBase.toNat + need ∧
      (let t := s 0x1116 0x108
       t.blk.dstBase.toNat < t.blk.srcBase.toNat + t.blk.segLen.toNat ∧
         t.blk.srcBase.toNat < t.blk.dstBase.toNat + need) ∧
      (let t := s 0x1117 0x108
       t.blk.dstBase.toNat + need ≤ 2 ^ 32 ∧
         ¬ t.blk.dstBase.toNat < t.blk.srcBase.toNat + t.blk.segLen.toNat) :=
  ⟨fun _ _ => ⟨rfl, rfl⟩, by decide, by decide, by decide, by decide, by decide⟩

/-- Header bytes 0 and 255, with and without a bus error. -/
theorem test_witness_HeaderByteCopied :
    (∀ i, (atHdr i).blk.phase = .busy (.hdr i)) ∧
      (atHdr 255).blk.segStart + 16 + (atHdr 255).blk.hb + 255 = 0x1116 ∧
      accessible (atHdr 255).cfg 0x1116 = true ∧ accessible (atHdr 255).cfg 0x80FF = true ∧
      accessible (holed (atHdr 255) 0x1116 0x1117).cfg 0x1116 = false ∧
      accessible (holed (atHdr 255) 0x80FF 0x8100).cfg 0x1116 = true ∧
      accessible (holed (atHdr 255) 0x80FF 0x8100).cfg 0x80FF = false :=
  ⟨fun _ => rfl, by decide, by decide, by decide, by decide, by decide, by decide⟩

theorem test_witness_HeaderBlockCopied :
    (atHdr 0).Inv ∧ (atHdr 0).blk.phase = .busy (.hdr 0) ∧
      ∀ i, i < 0x100 → accessible (atHdr 0).cfg ((atHdr 0).blk.headerAddr i) = true ∧
        accessible (atHdr 0).cfg ((atHdr 0).blk.outAddr i) = true := by
  refine ⟨inv_atHdr 0, rfl, fun i h => ⟨?_, ?_⟩⟩
  · have e : (atHdr 0).blk.headerAddr i = 0x1017 + i := rfl
    rw [e]
    exact accessible_default (by omega)
  · have e : (atHdr 0).blk.outAddr i = 0x8000 + i := rfl
    rw [e]
    exact accessible_default (by omega)

/-- hb = 7, and hb = 0 with nothing and with one byte to produce. -/
theorem test_witness_InitSetsTheCursor :
    (atInit.Inv ∧ atInit.blk.phase = .busy .init) ∧
      ∀ us ∈ [(0 : BitVec 32), 1], (atInitEmpty us).Inv ∧ (atInitEmpty us).blk.phase = .busy .init ∧
        (atInitEmpty us).blk.hb = 0 ∧ (atInitEmpty us).blk.us = us.toNat := by
  refine ⟨⟨inv_atInit, rfl⟩, fun us h => ⟨inv_atInitEmpty ?_, rfl, rfl, rfl⟩⟩
  simp only [List.mem_cons, List.not_mem_nil, or_false] at h
  rcases h with rfl | rfl <;> decide

theorem test_witness_DoneExactlyAtUs :
    atEnd.Inv ∧ atEnd.blk.isBusy = true ∧ atEnd.blk.bytesOut = atEnd.blk.uncompSize ∧
      ∃ t, blockTurn atEnd = .next t ∧ t.blk.phase = .done :=
  ⟨inv_atEnd, rfl, rfl, _, rfl, rfl⟩

/-- The memory of the last clause may differ from the segment's 17th byte on. -/
theorem test_witness_NothingWrittenBeforeAlloc :
    (∀ sub, (frontEnd sub 8 7).blk.phase = .busy sub) ∧ (∃ t, blockTurn (frontEnd .sizes 0 0) = .next t) ∧
      (∀ a, (frontEnd .sizes 0 0).blk.segStart ≤ a → a < (frontEnd .sizes 0 0).blk.segStart + 16 →
        Memory.read [(0x1008, 8), (0x100C, 7)] a = (frontEnd .sizes 0 0).mem.read a) := by
  refine ⟨fun _ => rfl, ⟨_, rfl⟩, fun a h h' => ?_⟩
  have h : 0x1000 ≤ a := h
  have h' : a < 0x1010 := h'
  change _ = Memory.read memP2 a
  have n (x : Nat) (hx : 0x1010 ≤ x) : a ≠ x := by omega
  simp only [memP2, Memory.read, if_neg (n 0x1010 (by decide)), if_neg (n 0x1012 (by decide)),
    if_neg (n 0x1013 (by decide)), if_neg (n 0x1014 (by decide)), if_neg (n 0x1015 (by decide)),
    if_neg (n 0x1016 (by decide)), if_neg (n 0x8104 (by decide)), if_neg (n 0x8105 (by decide)),
    if_neg (n 0x8106 (by decide)), if_neg (n 0x8107 (by decide))]

theorem test_witness_ErrorEntryKeepsTheRest :
    let s := frontEnd .frame 8 8
    s.blk.isBusy = true ∧ ∃ t, blockTurn s = .next t ∧ t.blk.phase = .error :=
  ⟨rfl, _, rfl, rfl⟩

/-- One error of each clause. -/
theorem test_witness_WhichTokenRaisesWhich :
    (∃ t, readBits 1 (onP2 .token 0 { cursorEnd with bitsLeft := 0 } noLatches) = .raised t) ∧
      (∃ t, fetchToken (onP2 .token 0 cursorEnd noLatches) = .raised t) ∧
      (∃ t, fetchLength (onP2 .bref 4 { cursorEnd with bitsLeft := 1 } distLatches) = .raised t) ∧
      (∃ t, exec (.lit 0) (holed atFirst 0x8107 0x8108) = .next t ∧ t.blk.phase = .error) ∧
      (∃ t, exec (.bref 2) atBref = .next t ∧ t.blk.phase = .error) ∧
      ((Instr.g2 2).position = .length ∧ ∃ t, exec (.g2 2) atLength = .next t ∧ t.blk.phase = .error) ∧
      (∃ t, blockTurn (holed atCopy 0x8106 0x8107) = .next t ∧ t.blk.phase = .error) ∧
      ∃ t, blockTurn (frontEnd .frame 8 8) = .next t ∧ t.blk.phase = .error :=
  ⟨⟨_, rfl⟩, ⟨_, rfl⟩, ⟨_, rfl⟩, ⟨_, rfl, rfl⟩, ⟨_, rfl, rfl⟩, ⟨rfl, _, rfl, rfl⟩, ⟨_, rfl, rfl⟩,
    _, rfl, rfl⟩

/-- A machine at rest in the phase given, with P2's registers and memory. -/
def resting (p : Phase) : State := atEnd.setPhase p

theorem test_witness_WaitingPhasesHold :
    (resting .idle).blk.phase = .idle ∧ (resting .done).blk.phase = .done ∧
      (resting .error).blk.phase = .error ∧ (resting .error).inbox = [] ∧
      ∃ t, hostEvent (.regWrite 0x20 5) (resting .error) = .next t :=
  ⟨rfl, rfl, rfl, rfl, _, rfl⟩

theorem test_witness_StatusShowsThePhase :
    (resting .idle).blk.phase = .idle ∧ atCopy.blk.phase = .busy .copy ∧
      (resting .done).blk.phase = .done ∧ (resting .error).blk.phase = .error := by decide

theorem test_witness_SlotsReadTheirRegisters :
    (resting .done).blk.isBusy = false ∧ atCopy.blk.isBusy = true ∧ 13 ≤ 13 ∧
      ∀ c ∈ twoResting.parked, c.holdsAddr (twoResting.blk.regBase + 8 * 13) = false := by decide

theorem test_witness_ReadsHaveNoSideEffect :
    (∃ t, hostEvent (.regRead 0x60) atCopy = .next t) ∧
      ∃ t, hostEvent (.memRead 0x1010) (resting .done) = .next t := ⟨⟨_, rfl⟩, _, rfl⟩

theorem test_witness_SlotWrites :
    twoResting.blk.isBusy = false ∧ 13 ≤ 13 ∧
      ∀ c ∈ twoResting.parked, c.holdsAddr (twoResting.blk.regBase + 8 * 13) = false := by decide

theorem test_witness_WritesWhileBusyAreHarmless :
    (∀ a ∈ [0x20, 0x120, 0x68],
      (∀ b ∈ twoRunning.instances, b.holdsAddr a = true → b.isBusy = true) ∧
        ∃ t, hostEvent (.regWrite a 5) twoRunning = .next t) ∧
      ∃ t, blockTurn atCopy = .next t := by
  refine ⟨fun a h => ?_, _, rfl⟩
  simp only [List.mem_cons, List.not_mem_nil, or_false] at h
  rcases h with rfl | rfl | rfl <;> exact ⟨by decide, _, rfl⟩

/-- The first and the last address kept, those next to them not kept, segments of 12 and of 11 bytes, and
a second instance whose output region would meet a running one's. -/
theorem test_witness_HostKeepsOffRunningDecodes :
    let s := { resting .done with parked := [atCopy.blk] }
    atCopy.mem.wf ∧ 0x8107 < 2 ^ atCopy.cfg.addrW ∧
      (∀ a ∈ [0x1000, 0x1116, 0x8000, 0x8107],
        (inSegment atCopy.blk a || inOutput atCopy atCopy.blk a) = true) ∧
      (∀ a ∈ [0xFFF, 0x1117, 0x7FFF, 0x8108],
        (inSegment atCopy.blk a || inOutput atCopy atCopy.blk a) = false) ∧
      inOutput atCopy { atCopy.blk with segLen := 12 } 0x8107 = true ∧
      inOutput atCopy { atCopy.blk with segLen := 11 } 0x8107 = false ∧
      s.blk.isBusy = false ∧ startClashes s = true := by decide

theorem test_witness_HostSeesBeforeOrNow :
    0x8107 < 2 ^ atCopy.cfg.addrW ∧ (∀ b ∈ (resting .done).instances, b.isBusy = false) ∧
      atCopy.blk ∈ atCopy.instances ∧ atCopy.blk.isBusy = true ∧
      inOutput atCopy atCopy.blk 0x8107 = true := by decide

theorem test_witness_ResetGivesTheTable : (resting .error).blk.isBusy = false := by decide

/-- 0x104 writes made: m below, equal and above. -/
theorem test_witness_ResetCutsTheWrites :
    atCopy.Inv ∧ atCopy.blk.isBusy = true ∧ 0x103 ≤ writesMade atCopy.blk ∧
      0x104 ≤ writesMade atCopy.blk ∧ writesMade atCopy.blk < 0x105 :=
  ⟨inv_atCopy, rfl, by decide, by decide, by decide⟩

theorem test_witness_InstancesAreIndependent :
    (∀ k, HostEvent.reset ≠ .select k) ∧ (∃ t, hostEvent .reset atCopy = .next t) ∧
      (∃ t, hostEvent (.regWrite 0x138 5) twoResting = .next t) ∧
      ∃ t, blockTurn atCopy = .next t := ⟨fun _ h => (by cases h), ⟨_, rfl⟩, ⟨_, rfl⟩, _, rfl⟩

theorem test_witness_StepRunsTheDecodedInstruction :
    (atBref.inbox = [] ∧ atBref.blk.phase = .busy .token ∧ atBref.blk.bytesOut.toNat < atBref.blk.us ∧
      ∃ t, fetchToken atBref = .ok (.bref 0) t) ∧
    (∃ t, fetchToken (onP2 .token 0 cursorEnd noLatches) = .raised t) ∧
    (atLength.inbox = [] ∧ atLength.blk.phase = .busy .bref ∧ ∃ t, fetchLength atLength = .ok (.g2 1) t) ∧
    (∃ t, fetchLength (onP2 .bref 4 { cursorEnd with bitsLeft := 1 } distLatches) = .raised t) ∧
    decodeCommand 3 = some .start :=
  ⟨⟨rfl, rfl, by decide, _, rfl⟩, ⟨_, rfl⟩, ⟨rfl, rfl, _, rfl⟩, ⟨_, rfl⟩, by decide⟩

/-- P2's BREF, and a token that begins with the last four bits. -/
theorem test_witness_TokenFetchFollowsTheDecoder :
    let s := onP2 .token 4 cursorEnd noLatches
    (atBref.inbox = [] ∧ atBref.blk.phase = .busy .token ∧ atBref.blk.bytesOut.toNat < atBref.blk.us ∧
      CursorOnStream atBref ∧ PayloadAccessible atBref ∧
      decodeAt .token (unreadBits atBref) = .ok (.bref 0, [false, true, false, false, false, false])) ∧
    (s.inbox = [] ∧ s.blk.phase = .busy .token ∧ s.blk.bytesOut.toNat < s.blk.us ∧ CursorOnStream s ∧
      PayloadAccessible s ∧ decodeAt .token (unreadBits s) = .error .outOfBits) :=
  ⟨⟨rfl, rfl, by decide, onStream_atBref, payload_accessible _ _ _ _, by decide⟩,
    rfl, rfl, by decide, ⟨⟨by decide, by decide, by decide⟩, by decide⟩, payload_accessible _ _ _ _, by decide⟩

/-- P2's length code, and one that has a single bit. -/
theorem test_witness_LengthFetchFollowsTheDecoder :
    let s := onP2 .bref 4 { cursorEnd with bitsLeft := 1 } distLatches
    (atLength.inbox = [] ∧ atLength.blk.phase = .busy .bref ∧ CursorOnStream atLength ∧
      PayloadAccessible atLength ∧
      decodeAt .length (unreadBits atLength) = .ok (.g2 1, [false, false, false, false])) ∧
    (s.inbox = [] ∧ s.blk.phase = .busy .bref ∧ CursorOnStream s ∧ PayloadAccessible s ∧
      decodeAt .length (unreadBits s) = .error .outOfBits) :=
  ⟨⟨rfl, rfl, onStream_atLength, payload_accessible _ _ _ _, by decide⟩,
    rfl, rfl, ⟨⟨by decide, by decide, by decide⟩, by decide⟩, payload_accessible _ _ _ _, by decide⟩

theorem test_witness_InvariantKept : atCopy.Inv ∧ ∃ t, step atCopy = .next t := ⟨inv_atCopy, _, rfl⟩

theorem test_witness_EveryDecodeEnds : (atHdr 0).Inv ∧ (atHdr 0).blk.isBusy = true :=
  ⟨inv_atHdr 0, rfl⟩

theorem test_witness_WritesStayInTheOutput :
    atFirst.Inv ∧ atFirst.blk.isBusy = true ∧ ∃ t, blockTurn atFirst = .next t :=
  ⟨inv_atFirst, rfl, _, rfl⟩

/-- The step selects the other instance. -/
theorem test_witness_ParametersNeverChange :
    ∃ t, step { atCopy with parked := [{ Block.reset with regBase := 0x100 }], inbox := [.select 0] } =
      .next t ∧ t.blk.regBase = 0x100 := ⟨_, rfl, rfl⟩

/-- Within the bound in the copy; INIT; and the turn to DONE. -/
theorem test_witness_WorkStaysBounded :
    (atCopy.Inv ∧ (∀ b ∈ atCopy.instances, WithinWork b) ∧ ∃ t, step atCopy = .next t) ∧
      (atInit.Inv ∧ atInit.blk.phase = .busy .init ∧ ∃ t, blockTurn atInit = .next t) ∧
      (atEnd.Inv ∧ atEnd.blk.isBusy = true ∧ WithinWork atEnd.blk ∧
        ∃ t, blockTurn atEnd = .next t ∧ t.blk.phase = .done) := by
  refine ⟨⟨inv_atCopy, fun b h => ?_, _, rfl⟩, ⟨inv_atInit, rfl, _, rfl⟩, inv_atEnd, rfl, ?_, _, rfl, rfl⟩
  · have e : b = atCopy.blk := by simpa [State.instances, atCopy, onP2, State.reset] using h
    subst e
    change atCopy.blk.bitsConsumed ≤ 14 * (atCopy.blk.bytesOut.toNat + atCopy.blk.latches.len)
    decide
  · change atEnd.blk.bitsConsumed ≤ 14 * atEnd.blk.bytesOut.toNat
    decide

theorem test_witness_CursorOnlyMovesForward :
    (atBref.Inv ∧ atBref.blk.phase = .busy .token ∧ ∃ t, blockTurn atBref = .next t) ∧
      (atLength.Inv ∧ atLength.blk.phase = .busy .bref ∧ ∃ t, blockTurn atLength = .next t) ∧
      atCopy.Inv ∧ atCopy.blk.phase = .busy .copy ∧ ∃ t, blockTurn atCopy = .next t :=
  ⟨⟨inv_atBref, rfl, _, rfl⟩, ⟨inv_atLength, rfl, _, rfl⟩, inv_atCopy, rfl, _, rfl⟩

theorem test_witness_PoolHoldsTheLastByte :
    (atInit.Inv ∧ atInit.blk.phase = .busy .init ∧ ∃ t, blockTurn atInit = .next t) ∧
      atLength.Inv ∧ atLength.blk.phase = .busy .bref ∧ CursorOnStream atLength ∧
      ∃ t, blockTurn atLength = .next t :=
  ⟨⟨inv_atInit, rfl, _, rfl⟩, inv_atLength, rfl, onStream_atLength, _, rfl⟩

/-- The second machine holds another byte at Out[0x100], which the copy has not written yet. -/
theorem test_witness_OldOutputNeverMatters :
    let s := atCopy.setMem (memP2.write 0x8100 0x99)
    atCopy.Inv ∧ s.Inv ∧ SameButStale atCopy s ∧ s.mem.read 0x8100 ≠ atCopy.mem.read 0x8100 ∧
      atCopy.blk.phase = .busy .copy ∧ (∃ t, blockTurn atCopy = .next t) ∧ ∃ t, blockTurn s = .next t := by
  refine ⟨inv_atCopy, ⟨inv_atCopy.legal, inv_atCopy.blk, inv_atCopy.parked, ?_⟩,
    ⟨rfl, rfl, rfl, fun a h => ?_⟩, by decide, rfl, ⟨_, rfl⟩, _, rfl⟩
  · change Memory.wf (memP2.write 0x8100 0x99)
    decide
  · have hne : a ≠ 0x8100 := h 0x100 (by decide) ⟨by decide, by decide⟩
    change (memP2.write 0x8100 0x99).read a = memP2.read a
    have e : memP2.write 0x8100 0x99 =
        [(0x1008, 0x08), (0x100C, 0x07), (0x1010, 0x10), (0x1012, 0x48), (0x1013, 0x64), (0x1014, 0x88),
          (0x1015, 0x90), (0x1016, 0x20), (0x8100, 0x99), (0x8104, 0x44), (0x8105, 0x43), (0x8106, 0x42),
          (0x8107, 0x41)] := by decide
    rw [e]
    simp only [memP2, Memory.read, if_neg hne]

/-- P2 decodes from its first token (the bytes in production order are its T4 row); with us = 9 the
bits run out. -/
theorem test_witness_DecodeIsTheReferenceFunction :
    (atFirst.Inv ∧ atFirst.blk.phase = .busy .token ∧ CursorOnStream atFirst ∧
      PayloadAccessible atFirst ∧ OutputAccessible atFirst) ∧
    refLoop 8 9 (unreadBits atFirst) [] = some [0x41, 0x42, 0x43, 0x44, 0x42, 0x43, 0x44, 0x42] ∧
    refLoop 9 10 (unreadBits atFirst) [] = none :=
  ⟨⟨inv_atFirst, rfl, onStream_atFirst, payload_accessible _ _ _ _, output_accessible _ _ _ _⟩,
    by decide +kernel, by decide +kernel⟩

/-- P2 before its START, in IDLE. -/
def ready : State :=
  { State.reset with
    blk := { Block.reset with srcBase := 0x1000, segLen := 0x117, dstBase := 0x8000, dstCap := 0x108 }
    mem := memP2 }

theorem test_witness_DecodeFromStart :
    let m (k : Nat) : Byte := ready.mem.read (ready.blk.segStart + k)
    let us := le32 (m 8) (m 9) (m 10) (m 11)
    let hb := le32 (m 12) (m 13) (m 14) (m 15)
    ready.Inv ∧ ready.blk.isBusy = false ∧ startClashes ready = false ∧
      beBytes ((List.range 8).map m) = 0 ∧ us = 8 ∧ 16 + hb + 0x100 = ready.blk.segSize ∧
      ready.blk.segStart + ready.blk.segSize ≤ 2 ^ ready.cfg.addrW ∧ 0x100 + us ≤ ready.blk.dstCap.toNat ∧
      ready.blk.dstBase.toNat + 0x100 + us ≤ 2 ^ ready.cfg.addrW ∧
      ready.blk.segStart + ready.blk.segSize ≤ ready.blk.dstBase.toNat ∧
      (∀ a, ready.blk.segStart ≤ a → a < ready.blk.segStart + ready.blk.segSize →
        accessible ready.cfg a = true) ∧
      (∀ a, ready.blk.dstBase.toNat ≤ a → a < ready.blk.dstBase.toNat + 0x100 + us →
        accessible ready.cfg a = true) ∧
      refLoop us (us + 1) ((List.range (8 * hb)).map fun k =>
        (m (16 + hb - 1 - k / 8)).getLsbD (7 - k % 8)) [] =
        some [0x41, 0x42, 0x43, 0x44, 0x42, 0x43, 0x44, 0x42] := by
  refine ⟨⟨by decide, ⟨by decide, by decide, by decide, by decide, by decide, fun _ => ⟨rfl, rfl, rfl, rfl⟩,
    fun h => (by cases h), fun _ h => (by cases h), ⟨.nil, fun _ h => by cases h⟩⟩, fun _ h => (by cases h),
    by decide⟩, rfl, by decide, by decide +kernel, by decide +kernel, by decide +kernel, by decide,
    by decide +kernel, by decide +kernel, by decide,
    fun a _ h => accessible_default (lt_trans (show a < 0x1117 from h) (by decide)),
    fun a _ h => accessible_default (lt_trans (show a < 0x8108 from h) (by decide)), by decide +kernel⟩

/-- The first and the last byte of the second instance's named slots, a read that goes on, a write that
is refused, and a START. -/
theorem test_witness_AccessesReachTheirInstance :
    let b : Block := { twin with phase := .idle }
    twoResting.parked[0]? = some b ∧
      (∀ off ∈ [0, 0x20, 0x38, 0x67], off < 0x68 ∧
        twoResting.blk.holdsAddr (b.regBase + off) = false) ∧
      (∀ j c, j ≠ 0 → twoResting.parked[j]? = some c → c.holdsAddr 0x100 = false) ∧
      (∃ t, hostEvent (.regRead 0x120) (selectInstance 0 twoResting) = .next t) ∧
      (∃ r, hostEvent (.regWrite 0x167 5) (selectInstance 0 twoResting) = .refused r) ∧
      b.isBusy = false ∧ startClashes (selectInstance 0 twoResting) = false ∧
      (1 : Word).getLsbD 0 = true :=
  ⟨rfl, by decide, fun j c hj h => (by cases j with
    | zero => exact absurd rfl hj
    | succ j => cases h), ⟨_, rfl⟩, ⟨_, rfl⟩, rfl, by decide, by decide⟩

/-- Two running decodes of one segment: the second one's last source and output byte. -/
theorem test_witness_RunningDecodesStayApart :
    twoRunning.Inv ∧ RunningApart twoRunning ∧ (∃ t, step twoRunning = .next t) ∧
      twoRunning.blk.isBusy = true ∧ (∃ t, blockTurn twoRunning = .next t) ∧ twin ∈ twoRunning.parked ∧
      twin.isBusy = true ∧ inSegment twin 0x1116 = true ∧ inOutput twoRunning twin 0x30107 = true := by
  refine ⟨inv_twoRunning, ⟨?_, fun b h => ?_⟩, ⟨_, rfl⟩, rfl, ⟨_, rfl⟩, by simp [twoRunning], rfl,
    by decide, by decide⟩
  · have e : twoRunning.instances = [atCopy.blk, twin] := rfl
    simp only [e, List.pairwise_cons, List.mem_singleton, forall_eq, List.not_mem_nil, false_implies,
      implies_true, List.Pairwise.nil, and_true]
    exact fun _ _ => by decide
  · have h : b ∈ [atCopy.blk, twin] := h
    simp only [List.mem_cons, List.not_mem_nil, or_false] at h
    rcases h with rfl | rfl
    · change atCopy.blk.us = declaredUs memP2 atCopy.blk
      decide
    · trivial

theorem test_witness_ReservedBitsReadZero : atCopy.Inv ∧ atEnd.Inv := ⟨inv_atCopy, inv_atEnd⟩

end Sys2Proof.Machine.Tests
end

section
/-! PROOF. The parameters, the instances and their REG_BASEs outlast every step (00_scope.md R6,
10_state.md R42). -/

namespace Sys2Proof.Machine

/-- From `s` to `t` no parameter changed, and the instances kept their REG_BASEs in some order. -/
structure SameParameters (s t : State) : Prop where
  cfg : t.cfg = s.cfg
  regBases : (t.instances.map Block.regBase).Perm (s.instances.map Block.regBase)

theorem SameParameters.refl (s : State) : SameParameters s s := ⟨rfl, .rfl⟩

theorem SameParameters.trans {s t u : State} (h : SameParameters s t) (k : SameParameters t u) :
    SameParameters s u :=
  ⟨k.cfg.trans h.cfg, k.regBases.trans h.regBases⟩

/-- A change that leaves the parked instances and the selected one's REG_BASE alone. -/
theorem SameParameters.of_selected {s t : State} (hcfg : t.cfg = s.cfg) (hparked : t.parked = s.parked)
    (hbase : t.blk.regBase = s.blk.regBase) : SameParameters s t :=
  ⟨hcfg, by simp only [State.instances, List.map_cons, hparked, hbase, List.Perm.refl]⟩

theorem blockTurn_sameParameters {s t : State} (h : blockTurn s = .next t) : SameParameters s t := by
  obtain ⟨hcfg, hparked, _, _, hbase, _⟩ := (turn_of_blockTurn h).rest
  exact .of_selected hcfg hparked hbase

theorem execStart_sameParameters {s t : State} (h : execStart s = .next t) : SameParameters s t := by
  unfold execStart at h
  split at h
  · cases h; exact .refl s
  · split at h
    · cases h
    · cases h; exact .of_selected rfl rfl rfl

theorem configWrite_sameParameters {b : Block} {s : State} (h : b.regBase = s.blk.regBase) :
    SameParameters s (configWrite b s) := by
  unfold configWrite
  split
  · exact .refl s
  · exact .of_selected rfl rfl h

theorem writeSlot_sameParameters {slot : Slot} {v : Word} {s t : State}
    (h : writeSlot slot v s = .next t) : SameParameters s t := by
  rcases writeSlot_cases slot v s with e | e | ⟨b, e, hb⟩
  · exact execStart_sameParameters (e.symm.trans h)
  · cases e.symm.trans h; exact .refl s
  · cases e.symm.trans h
    exact configWrite_sameParameters (by rw [hb])

theorem hostMemWrite_sameParameters {a : Nat} {v : Byte} {s t : State}
    (h : hostMemWrite a v s = .next t) : SameParameters s t := by
  rcases hostMemWrite_cases a v s with e | e | e
  · cases e.symm.trans h
  · cases e.symm.trans h
  · cases e.symm.trans h; exact .of_selected rfl rfl rfl

theorem resetInstance_sameParameters (s : State) : SameParameters s (resetInstance s) :=
  .of_selected rfl rfl rfl

theorem selectInstance_sameParameters (k : Nat) (s : State) : SameParameters s (selectInstance k s) :=
  ⟨selectInstance_cfg k s, (selectInstance_perm k s).map Block.regBase⟩

/-- Whatever the event, a step that goes on keeps the parameters. -/
theorem step_sameParameters {s t : State} (h : step s = .next t) : SameParameters s t :=
  step_keeps (P := SameParameters s)
    (inbox := fun _ _ hs => hs.trans (.of_selected rfl rfl rfl))
    (turn := fun _ _ hs hu => hs.trans (blockTurn_sameParameters hu))
    (slot := fun _ _ _ _ hs hu => hs.trans (writeSlot_sameParameters hu))
    (read := fun _ _ _ hs => hs.trans (.of_selected rfl rfl rfl))
    (write := fun _ _ _ _ hs hu => hs.trans (hostMemWrite_sameParameters hu))
    (reset := fun u hs => hs.trans (resetInstance_sameParameters u))
    (select := fun k u hs => hs.trans (selectInstance_sameParameters k u))
    (.refl s) h

/-- Settles O56: each kind of event keeps the parameters, and changing the selected block only permutes
the list of instances. -/
theorem parametersNeverChange : Obligations.ParametersNeverChange := by
  intro s t h
  exact ⟨(step_sameParameters h).cfg, (step_sameParameters h).regBases⟩

end Sys2Proof.Machine
end

section
/-! PROOF. What a turn leaves of the selected instance's registers, and how it moves the bit cursor
(10_state.md R21, R28, R32). -/

namespace Sys2Proof.Machine

/-- What no turn changes of an instance: REG_BASE, the configuration, and the memory remembered from
its START. -/
structure SameSetup (b b' : Block) : Prop where
  regBase : b'.regBase = b.regBase
  srcBase : b'.srcBase = b.srcBase
  segLen : b'.segLen = b.segLen
  dstBase : b'.dstBase = b.dstBase
  dstCap : b'.dstCap = b.dstCap
  before : b'.before = b.before

/-- UNCOMP_SIZE and HB_REL_OFF are the same. -/
structure SameSizes (b b' : Block) : Prop where
  us : b'.uncompSize = b.uncompSize
  hb : b'.hbRelOff = b.hbRelOff

theorem Turn.sameSetup {s t : State} (T : Turn s t) : SameSetup s.blk t.blk := by
  cases T with
  | fetchError _ _ ht =>
    obtain ⟨c, l, e, info, _, rfl⟩ := ht.state
    exact ⟨rfl, rfl, rfl, rfl, rfl, rfl⟩
  | length _ _ _ _ hx =>
    obtain ⟨c, l, rfl⟩ := hx.state
    exact ⟨rfl, rfl, rfl, rfl, rfl, rfl⟩
  | lengthError _ _ _ _ hx =>
    obtain ⟨c, l, rfl⟩ := hx.state
    exact ⟨rfl, rfl, rfl, rfl, rfl, rfl⟩
  | copy _ _ _ _ t ht => subst ht; split <;> exact ⟨rfl, rfl, rfl, rfl, rfl, rfl⟩
  | _ => exact ⟨rfl, rfl, rfl, rfl, rfl, rfl⟩

theorem Prechecked.congr {c : Config} {b b' : Block} (h : Prechecked c b) (k : SameSetup b b') :
    Prechecked c b' := by
  obtain ⟨hl, hf⟩ := h
  constructor <;> simpa only [Block.segSize, Block.segStart, k.srcBase, k.segLen]

theorem Framed.congr {c : Config} {b b' : Block} (h : Framed c b) (k : SameSetup b b')
    (z : SameSizes b b') : Framed c b' where
  toPrechecked := h.toPrechecked.congr k
  framing := by simpa only [Block.segSize, Block.hb, k.segLen, z.hb] using h.framing

/-- What ALLOC has checked rests on the configuration and the two sizes. -/
theorem Allocated.congr {c : Config} {b b' : Block} (h : Allocated c b) (k : SameSetup b b')
    (z : SameSizes b b') : Allocated c b' where
  toFramed := h.toFramed.congr k z
  capacity := by simpa only [Block.outSize, Block.us, k.dstCap, z.us] using h.capacity
  range := by simpa only [Block.outSize, Block.us, k.dstBase, z.us] using h.range
  apart := by
    simpa only [Block.outSize, Block.us, Block.segStart, Block.segSize, k.dstBase, k.srcBase, k.segLen,
      z.us] using h.apart

/-- The payload's end lies in the segment, so it is an address. -/
theorem Framed.payloadEnd_lt {c : Config} {b : Block} (h : Framed c b) : b.payloadEnd < 2 ^ c.addrW := by
  have hfits := h.fits
  have hframing := h.framing
  unfold Block.payloadEnd
  omega

theorem two_pow_addrW_le {c : Config} (h : c.Legal) : 2 ^ c.addrW ≤ 2 ^ 64 :=
  Nat.pow_le_pow_right (by norm_num) h.2

/-- OFFSET after INIT is E, not cut (41_segment_framing.md R152). -/
theorem stepInit_offset {s : State} (hc : s.cfg.Legal) (h : Framed s.cfg s.blk) :
    (stepInit s).blk.cursor.offset.toNat = s.blk.payloadEnd :=
  ofNat_toNat_of_lt (lt_of_lt_of_le h.payloadEnd_lt (two_pow_addrW_le hc))

/-- INIT puts the cursor at the stream's start. -/
theorem stepInit_onStream {s : State} (hc : s.cfg.Legal) (h : Framed s.cfg s.blk) :
    CursorOnStream (stepInit s) := by
  have ho := stepInit_offset hc h
  have he : (stepInit s).blk.payloadEnd = s.blk.payloadEnd := rfl
  refine ⟨⟨?_, by omega, Nat.zero_le _⟩, fun hlt => by omega⟩
  rw [ho]
  change s.blk.segStart + 15 ≤ s.blk.segStart + 16 + s.blk.hb - 1
  omega

/-- The sub-phases of the token loop (42_token_decode.md R170). -/
def Block.inLoop (b : Block) : Prop :=
  b.phase = .busy .token ∨ b.phase = .busy .bref ∨ b.phase = .busy .copy

/-- In the token loop a turn keeps the cursor in range and never moves it back (10_state.md R21). -/
theorem Turn.cursor_forward {s t : State} (T : Turn s t) (hl : s.blk.inLoop)
    (hr : CursorInRange s.blk) :
    CursorInRange t.blk ∧ s.blk.bitsConsumed ≤ t.blk.bitsConsumed ∧
      t.blk.cursor.offset.toNat ≤ s.blk.cursor.offset.toNat := by
  have same : CursorInRange s.blk ∧ s.blk.bitsConsumed ≤ s.blk.bitsConsumed ∧
    s.blk.cursor.offset.toNat ≤ s.blk.cursor.offset.toNat := ⟨hr, le_rfl, le_rfl⟩
  cases T with
  | stay => exact same
  | error | done | copyNone =>
    exact ⟨⟨hr.above, hr.below, hr.fetched⟩, le_rfl, le_rfl⟩
  | copy _ _ _ _ t ht =>
    subst ht
    split <;> exact ⟨⟨hr.above, hr.below, hr.fetched⟩, le_rfl, le_rfl⟩
  | fetchError _ _ ht =>
    obtain ⟨_, _, _, _, hforward, _⟩ := ht
    exact hforward hr
  | lit _ _ _ _ _ hc | litError _ _ _ _ _ hc | bref _ _ _ _ _ hc | brefError _ _ _ _ _ hc =>
    obtain ⟨h, hp, ho⟩ := hc.forward hr
    exact ⟨⟨h.above, h.below, h.fetched⟩, by exact hp ▸ Nat.le_add_right _ _, ho⟩
  | length _ _ _ _ hx | lengthError _ _ _ _ hx =>
    obtain ⟨h, hp, ho⟩ := hx.forward hr
    exact ⟨⟨h.above, h.below, h.fetched⟩, by exact hp ▸ Nat.le_add_right _ _, ho⟩
  | _ => simp_all [Block.inLoop] -- the front end is no part of the loop

end Sys2Proof.Machine
end

section
/-! PROOF. Every step keeps the invariant of the machine. -/

namespace Sys2Proof.Machine

/-- The errors a phase takes are errors. -/
theorem Phase.canRaise_ne_noError {p : Phase} {e : ErrCode} (h : p.canRaise e) : e ≠ .noError := by
  rintro rfl
  cases p with
  | busy sub => cases sub <;> simp [Phase.canRaise] at h
  | _ => exact h

/-- Only in BUSY can a phase raise. -/
theorem Phase.isBusy_of_canRaise {p : Phase} {e : ErrCode} (h : p.canRaise e) : p.isBusy = true := by
  cases p with
  | busy sub => rfl
  | _ => exact h.elim

/-! ## How one instance's invariant outlasts a change -/

/-- An error entry leaves a code that is no `noError`, and OFFSET an address (60_exceptions.md R236). -/
theorem BlockInv.raised {c : Config} {b b' : Block} (h : BlockInv c b) (k : SameSetup b b')
    (ho : b'.cursor.offset.toNat < 2 ^ c.addrW) (hp : b'.phase = .error) (he : b'.errCode ≠ .noError) :
    BlockInv c b' where
  srcFits := by simpa only [Block.segStart, k.srcBase] using h.srcFits
  dstFits := by simpa only [k.dstBase] using h.dstFits
  offsetFits := ho
  errIff := ⟨fun _ => he, fun _ => hp⟩
  noInfo hn := absurd hp hn
  idle hi := by rw [hp] at hi; cases hi
  done hd := by rw [hp] at hd; cases hd
  busy sub hs := by rw [hp] at hs; cases hs
  before := k.before ▸ h.before

/-- A change of a running decode to DONE or to a sub-phase that leaves the error registers as they were. -/
theorem BlockInv.goesOn {c : Config} {b b' : Block} (h : BlockInv c b) (k : SameSetup b b')
    (hb : b.isBusy = true) (ho : b'.cursor.offset.toNat < 2 ^ c.addrW) (he : b'.errCode = b.errCode)
    (hi : b'.errInfo = b.errInfo)
    (hend : (b'.phase = .done ∧ b'.bytesOut.toNat = b'.us) ∨
      ∃ sub, b'.phase = .busy sub ∧ SubInv c b' sub) : BlockInv c b' := by
  have hne : b.phase ≠ .error := fun hp => by rw [Block.isBusy, hp] at hb; cases hb
  have hcode : b'.errCode = .noError := he.trans (not_not.1 fun hn => hne (h.errIff.2 hn))
  have hinfo : b'.errInfo = 0 := hi.trans (h.noInfo hne)
  have hsrc : b'.segStart < 2 ^ c.addrW := by simpa only [Block.segStart, k.srcBase] using h.srcFits
  have hdst : b'.dstBase.toNat < 2 ^ c.addrW := by simpa only [k.dstBase] using h.dstFits
  have hbefore : b'.before.wf := k.before ▸ h.before
  obtain ⟨hp, hus⟩ | ⟨sub, hp, hs⟩ := hend
  · exact ⟨hsrc, hdst, ho, by simp [hp, hcode], fun _ => hinfo, by simp [hp], fun _ => hus, by simp [hp],
      hbefore⟩
  · exact ⟨hsrc, hdst, ho, by simp [hp, hcode], fun _ => hinfo, by simp [hp], by simp [hp],
      fun _ h => Phase.busy.inj (hp.symm.trans h) ▸ hs, hbefore⟩

theorem BlockInv.inLoop {c : Config} {b : Block} (h : BlockInv c b) (hl : b.inLoop) : InLoop c b := by
  rcases hl with hp | hp | hp
  · exact h.busy _ hp
  · exact (h.busy _ hp).1
  · exact (h.busy _ hp).1

/-- The invariant of the token loop after a turn, once the new cursor and BYTES_OUT are in range. -/
theorem InLoop.congr {c : Config} {b b' : Block} (h : InLoop c b) (k : SameSetup b b')
    (z : SameSizes b b') (hr : CursorInRange b') (hn : b'.bytesOut.toNat ≤ b.us) : InLoop c b' where
  toAllocated := h.toAllocated.congr k z
  cursor := hr
  count := by rwa [Block.us, z.us]

/-! ## The counters of the token loop -/

/-- BYTES_OUT + 1 is not cut while BYTES_OUT is below us. -/
theorem bytesOut_succ {b : Block} (h : b.bytesOut.toNat < b.us) :
    (b.bytesOut + 1).toNat = b.bytesOut.toNat + 1 := by
  have hus : b.us < 2 ^ 32 := b.uncompSize.isLt
  rw [BitVec.toNat_add, show (1 : BitVec 32).toNat = 1 from rfl]
  omega

/-- While a payload byte is still to come, dst is an output index. -/
theorem dst_lt_outSize {b : Block} (h : b.bytesOut.toNat < b.us) : b.dst < b.outSize := by
  unfold Block.dst Block.top Block.outSize
  omega

/-- A byte produced moves dst down by one. -/
theorem dst_of_succ {b b' : Block} (h : b.bytesOut.toNat < b.us) (hu : b'.uncompSize = b.uncompSize)
    (hn : b'.bytesOut = b.bytesOut + 1) : b'.dst + 1 = b.dst := by
  have hsucc := bytesOut_succ h
  unfold Block.dst Block.top Block.us at *
  rw [hu, hn]
  omega

/-- Every length code gives a length of at least 3 (43_vlc_length.md R193). -/
theorem three_le_of_codeLength {i : Instr} {n : Nat} (h : codeLength i = some n) : 3 ≤ n := by
  cases i with
  | g2 g => cases h; unfold lenG2; omega
  | g3 g => cases h; unfold lenG3; omega
  | g5 g => cases h; unfold lenG5; omega
  | g8 g => cases h; unfold lenG8; omega
  | tail k g => cases h; unfold lenTail; omega
  | _ => cases h

/-- The counters after one pass of the copy: BR_IDX stays DIST + 3 above dst (44_back_copy.md R215), and
LEN within what is still to come. -/
theorem subInv_advanceCopy {s : State} (h : SubInv s.cfg s.blk .copy) (m : Memory) :
    InLoop s.cfg (advanceCopy (s.setMem m)).blk ∧
      ((advanceCopy (s.setMem m)).blk.latches.len ≠ 0 →
        SubInv s.cfg (advanceCopy (s.setMem m)).blk .copy) := by
  obtain ⟨hloop, hidx, htop, hpos, hlen⟩ := h
  have hlt : s.blk.bytesOut.toNat < s.blk.us := by unfold Block.remaining at hlen; omega
  have hsucc : (advanceCopy (s.setMem m)).blk.bytesOut.toNat = s.blk.bytesOut.toNat + 1 :=
    bytesOut_succ hlt
  have hdst : (advanceCopy (s.setMem m)).blk.dst + 1 = s.blk.dst := dst_of_succ hlt rfl rfl
  have hloop' : InLoop s.cfg (advanceCopy (s.setMem m)).blk :=
    hloop.congr ⟨rfl, rfl, rfl, rfl, rfl, rfl⟩ ⟨rfl, rfl⟩
      ⟨hloop.cursor.above, hloop.cursor.below, hloop.cursor.fetched⟩ (by omega)
  refine ⟨hloop', fun hne => ⟨hloop', ?_, ?_, Nat.pos_of_ne_zero hne, ?_⟩⟩
  · change s.blk.latches.brIdx - 1 = (advanceCopy (s.setMem m)).blk.dst + s.blk.latches.dist.toNat + 3
    unfold Block.brIdxOf at hidx
    omega
  · exact le_trans (Nat.sub_le _ 1) htop
  · change s.blk.latches.len - 1 ≤ s.blk.us - (advanceCopy (s.setMem m)).blk.bytesOut.toNat
    unfold Block.remaining at hlen
    omega

/-- After each header byte, the last included, what ALLOC has checked still holds. -/
theorem subInv_afterHdr {c : Config} {b : Block} {i : Fin 256} : SubInv c b (afterHdr i) ↔
    Allocated c b ∧ b.bytesOut = 0 ∧ b.cursor = { offset := 0, pool := 0, bitsLeft := 0 } := by
  unfold afterHdr
  split <;> exact Iff.rfl

/-! ## One turn -/

/-- What a turn that goes on finds in the sub-phase it comes to. -/
theorem Turn.subInv {s t : State} (T : Turn s t) (hc : s.cfg.Legal) (h : BlockInv s.cfg s.blk) {sub : Sub}
    (hsub : t.blk.phase = .busy sub) : SubInv s.cfg t.blk sub := by
  have k := T.sameSetup
  cases T with
  | stay hn => exact h.busy sub hsub
  | error => cases hsub
  | done => cases hsub
  | litError => cases hsub
  | brefError => cases hsub
  | fetchError _ _ ht =>
    obtain ⟨c, l, e, info, _, rfl⟩ := ht.state
    cases hsub
  | lengthError => cases hsub
  | pre hp hpre =>
    cases hsub
    obtain ⟨hu, hb, ho, hcur⟩ := h.busy _ hp
    exact ⟨⟨hu, hb, ho, hcur⟩, hpre.congr k⟩
  | sig hp =>
    cases hsub
    obtain ⟨⟨hu, hb, ho, hcur⟩, hpre⟩ := h.busy _ hp
    exact ⟨⟨hu, hb, ho, hcur⟩, hpre.congr k⟩
  | sizes hp us hb =>
    cases hsub
    obtain ⟨⟨_, _, ho, hcur⟩, hpre⟩ := h.busy _ hp
    exact ⟨hpre.congr k, ho, hcur⟩
  | frame hp hframing =>
    cases hsub
    obtain ⟨hpre, ho, hcur⟩ := h.busy _ hp
    exact ⟨⟨hpre.congr k, hframing⟩, ho, hcur⟩
  | alloc hp hcap hrange hapart =>
    cases hsub
    obtain ⟨hframed, ho, hcur⟩ := h.busy _ hp
    exact ⟨⟨hframed.congr k ⟨rfl, rfl⟩, hcap, hrange, hapart⟩, ho, hcur⟩
  | hdr i hp =>
    cases hsub
    obtain ⟨halloc, ho, hcur⟩ := h.busy _ hp
    exact subInv_afterHdr.2 ⟨halloc.congr k ⟨rfl, rfl⟩, ho, hcur⟩
  | init hp =>
    cases hsub
    obtain ⟨halloc, _, _⟩ := h.busy _ hp
    exact { halloc.congr k ⟨rfl, rfl⟩ with
      cursor := (stepInit_onStream hc halloc.toFramed).inRange
      count := Nat.zero_le _ }
  | lit hp hlt v c _ hcur =>
    cases hsub
    have hloop := h.inLoop (.inl hp)
    obtain ⟨hr, _, _⟩ := hcur.forward hloop.cursor
    refine hloop.congr k ⟨rfl, rfl⟩ ⟨hr.above, hr.below, hr.fetched⟩ ?_
    exact (bytesOut_succ hlt).trans_le hlt
  | bref hp hlt d c _ hcur hrange =>
    cases hsub
    have hloop := h.inLoop (.inl hp)
    obtain ⟨hr, _, _⟩ := hcur.forward hloop.cursor
    exact ⟨hloop.congr k ⟨rfl, rfl⟩ ⟨hr.above, hr.below, hr.fetched⟩ hloop.count, hlt, rfl, hrange⟩
  | length hp i x _ hx hlen =>
    cases hsub
    obtain ⟨hloop, _, hidx, htop⟩ := h.busy _ hp
    obtain ⟨hr, _, _⟩ := hx.forward hloop.cursor
    have hpos := three_le_of_codeLength hx.length
    have hdist := hx.dist
    have hbr := hx.brIdx
    obtain ⟨c, l, rfl⟩ := hx.state
    refine ⟨hloop.congr k ⟨rfl, rfl⟩ ⟨hr.above, hr.below, hr.fetched⟩ hloop.count, ?_, ?_, ?_, hlen⟩
    · exact hbr.trans (hidx.trans (congrArg s.blk.brIdxOf hdist.symm))
    · exact hbr.trans_le htop
    · exact lt_of_lt_of_le (by norm_num) hpos
  | copyNone hp =>
    cases hsub
    have hloop := h.inLoop (.inr (.inr hp))
    exact hloop.congr k ⟨rfl, rfl⟩ ⟨hloop.cursor.above, hloop.cursor.below, hloop.cursor.fetched⟩
      hloop.count
  | copy hp _ _ _ t ht =>
    obtain ⟨hloop, hcopy⟩ := subInv_advanceCopy (h.busy _ hp) (s.mem.write (s.blk.outAddr s.blk.dst)
      (s.mem.read (s.blk.outAddr s.blk.latches.brIdx)))
    rw [← ht] at hloop hcopy
    by_cases hlen : t.blk.latches.len = 0
    · rw [if_pos hlen] at hsub k ⊢
      cases hsub
      exact hloop.congr ⟨rfl, rfl, rfl, rfl, rfl, rfl⟩ ⟨rfl, rfl⟩
        ⟨hloop.cursor.above, hloop.cursor.below, hloop.cursor.fetched⟩ hloop.count
    · rw [if_neg hlen] at hsub ⊢
      have hp' : t.blk.phase = .busy .copy := by rw [ht]; exact hp
      cases hp'.symm.trans hsub
      exact hcopy hlen

/-- OFFSET stays an address: INIT sets it to E, and from then on it only goes down. -/
theorem Turn.offset_lt {s t : State} (T : Turn s t) (hc : s.cfg.Legal) (h : BlockInv s.cfg s.blk) :
    t.blk.cursor.offset.toNat < 2 ^ s.cfg.addrW := by
  by_cases hl : s.blk.inLoop
  · obtain ⟨_, _, hle⟩ := T.cursor_forward hl (h.inLoop hl).cursor
    exact lt_of_le_of_lt hle h.offsetFits
  · cases T with
    | init hp =>
      obtain ⟨halloc, _, _⟩ := h.busy _ hp
      rw [stepInit_offset hc halloc.toFramed]
      exact halloc.toFramed.payloadEnd_lt
    | fetchError hp => exact absurd (hp.elim .inl fun hp => .inr (.inl hp)) hl
    | lit hp | litError hp | bref hp | brefError hp => exact absurd (.inl hp) hl
    | length hp | lengthError hp => exact absurd (.inr (.inl hp)) hl
    | copy hp => exact absurd (.inr (.inr hp)) hl
    | _ => exact h.offsetFits

/-- A turn of an instance at rest changes nothing (60_exceptions.md R247). -/
theorem Turn.eq_of_not_busy {s t : State} (T : Turn s t) (hb : s.blk.isBusy = false) : t = s := by
  cases T with
  | stay => rfl
  | error e _ he => exact absurd (Phase.isBusy_of_canRaise he) (Bool.eq_false_iff.1 hb)
  | fetchError hp => rcases hp with hp | hp <;> (rw [Block.isBusy, hp] at hb; cases hb)
  | _ => simp_all [Block.isBusy, Phase.isBusy] -- every other case is of a BUSY phase

/-- How a turn of a running decode leaves PHASE and the error registers: an error entry with a code, or
DONE at BYTES_OUT = us or a sub-phase, with both registers as they were. -/
theorem Turn.ends {s t : State} (T : Turn s t) (h : BlockInv s.cfg s.blk) (hb : s.blk.isBusy = true) :
    (t.blk.phase = .error ∧ t.blk.errCode ≠ .noError) ∨
    (t.blk.errCode = s.blk.errCode ∧ t.blk.errInfo = s.blk.errInfo ∧
      ((t.blk.phase = .done ∧ t.blk.bytesOut.toNat = t.blk.us) ∨ ∃ sub, t.blk.phase = .busy sub)) := by
  cases T with
  | stay hn => rw [hn] at hb; cases hb
  | error e info he => exact .inl ⟨rfl, Phase.canRaise_ne_noError he⟩
  | fetchError _ _ ht =>
    obtain ⟨c, l, e, info, he, rfl⟩ := ht.state
    exact .inl ⟨rfl, by rcases he with rfl | rfl <;> exact ErrCode.noConfusion⟩
  | litError | brefError | lengthError => exact .inl ⟨rfl, ErrCode.noConfusion⟩
  | done hp hu =>
    have hcount := (h.inLoop (.inl hp)).count
    exact .inr ⟨rfl, rfl, .inl ⟨rfl, le_antisymm hcount hu⟩⟩
  | length _ _ _ _ hx =>
    obtain ⟨c, l, rfl⟩ := hx.state
    exact .inr ⟨rfl, rfl, .inr ⟨_, rfl⟩⟩
  | copy hp _ _ _ t ht =>
    subst ht
    split
    · exact .inr ⟨rfl, rfl, .inr ⟨_, rfl⟩⟩
    · exact .inr ⟨rfl, rfl, .inr ⟨_, hp⟩⟩
  | _ => exact .inr ⟨rfl, rfl, .inr ⟨_, rfl⟩⟩

/-- A turn keeps the invariant of the selected instance. -/
theorem Turn.blockInv {s t : State} (T : Turn s t) (hc : s.cfg.Legal) (h : BlockInv s.cfg s.blk) :
    BlockInv s.cfg t.blk := by
  have ho := T.offset_lt hc h
  cases hb : s.blk.isBusy with
  | false => rwa [T.eq_of_not_busy hb]
  | true =>
    rcases T.ends h hb with ⟨hp, he⟩ | ⟨he, hi, hend⟩
    · exact h.raised T.sameSetup ho hp he
    · exact h.goesOn T.sameSetup hb ho he hi (hend.imp_right fun ⟨sub, hp⟩ => ⟨sub, hp, T.subInv hc h hp⟩)

theorem blockTurn_inv {s t : State} (hs : s.Inv) (h : blockTurn s = .next t) : t.Inv := by
  have T := turn_of_blockTurn h
  obtain ⟨hcfg, hparked, _⟩ := T.rest
  obtain ⟨hlegal, hblk, hpark, hmem⟩ := hs
  refine ⟨?_, ?_, ?_, T.wf hmem⟩ <;> rw [hcfg]
  · exact hlegal
  · exact T.blockInv hlegal hblk
  · rwa [hparked]

/-! ## The host's events -/

/-- A value cut to w bits is below 2^w (10_state.md R28, R35). -/
theorem lowBits_lt (w : Nat) (v : Word) : (lowBits w v).toNat < 2 ^ w := by
  rw [lowBits, BitVec.toNat_ofNat]
  exact lt_of_le_of_lt (Nat.mod_le _ _) (Nat.mod_lt _ (Nat.two_pow_pos w))

/-- An accepted START clears what the invariant of PRE asks for (41_segment_framing.md R140). -/
theorem acceptStart_blockInv {s : State} (hm : s.mem.wf) (h : BlockInv s.cfg s.blk) :
    BlockInv s.cfg (acceptStart s).blk where
  srcFits := h.srcFits
  dstFits := h.dstFits
  offsetFits := Nat.two_pow_pos _
  errIff := ⟨fun hp => (by cases hp), fun hn => absurd rfl hn⟩
  noInfo _ := rfl
  idle hp := by cases hp
  done hp := by cases hp
  busy sub hp := by cases hp; exact ⟨rfl, rfl, rfl, rfl⟩
  before := hm

/-- The registers of reset meet the invariant whatever REG_BASE and the latches are. -/
theorem reset_blockInv (c : Config) (base : Nat) (l : Latches) :
    BlockInv c { Block.reset with regBase := base, latches := l } where
  srcFits := Nat.two_pow_pos _
  dstFits := Nat.two_pow_pos _
  offsetFits := Nat.two_pow_pos _
  errIff := ⟨fun hp => (by cases hp), fun hn => absurd rfl hn⟩
  noInfo _ := rfl
  idle _ := ⟨rfl, rfl, rfl, rfl⟩
  done hp := by cases hp
  busy sub hp := by cases hp
  before := nil_wf

/-- A change of configuration registers at rest, to values within ADDR_W bits (10_state.md R28, R36). -/
theorem BlockInv.configure {c : Config} {b : Block} (h : BlockInv c b) (hb : b.isBusy = false)
    {src len dst cap : Word} (hsrc : src.toNat < 2 ^ c.addrW) (hdst : dst.toNat < 2 ^ c.addrW) :
    BlockInv c { b with srcBase := src, segLen := len, dstBase := dst, dstCap := cap } where
  srcFits := hsrc
  dstFits := hdst
  offsetFits := h.offsetFits
  errIff := h.errIff
  noInfo := h.noInfo
  idle hp := by
    obtain ⟨hu, hh, ho, hcur⟩ := h.idle hp
    exact ⟨hu, hh, ho, hcur⟩
  done := h.done
  busy sub hp := by rw [Block.isBusy, show b.phase = _ from hp] at hb; cases hb
  before := h.before

theorem State.Inv.setBlk {s : State} (hs : s.Inv) {b : Block} (hb : BlockInv s.cfg b) :
    (s.setBlk b).Inv := ⟨hs.legal, hb, hs.parked, hs.mem⟩

theorem configWrite_inv {s : State} (hs : s.Inv) {src len dst cap : Word}
    (hsrc : src.toNat < 2 ^ s.cfg.addrW) (hdst : dst.toNat < 2 ^ s.cfg.addrW) :
    (configWrite { s.blk with srcBase := src, segLen := len, dstBase := dst, dstCap := cap } s).Inv := by
  unfold configWrite
  split
  · exact hs
  · exact hs.setBlk (hs.blk.configure (Bool.eq_false_iff.2 ‹_›) hsrc hdst)

theorem execStart_inv {s t : State} (hs : s.Inv) (h : execStart s = .next t) : t.Inv := by
  unfold execStart at h
  split at h
  · cases h; exact hs
  · split at h
    · cases h
    · cases h; exact ⟨hs.legal, acceptStart_blockInv hs.mem hs.blk, hs.parked, hs.mem⟩

/-- A write of a slot: START, a configuration register, or nothing. -/
theorem writeSlot_inv {slot : Slot} {v : Word} {s t : State} (hs : s.Inv)
    (h : writeSlot slot v s = .next t) : t.Inv := by
  have hsrc := hs.blk.srcFits
  have hdst := hs.blk.dstFits
  cases slot with
  | ctrl =>
    simp only [writeSlot, decodeCommand] at h
    cases hv : v.getLsbD 0 <;> rw [hv] at h
    · cases h; exact hs
    · exact execStart_inv hs h
  | srcBase => cases h; exact configWrite_inv hs (lowBits_lt _ v) hdst
  | segLen => cases h; exact configWrite_inv hs hsrc hdst
  | dstBase => cases h; exact configWrite_inv hs hsrc (lowBits_lt _ v)
  | dstCap => cases h; exact configWrite_inv hs hsrc hdst
  | _ => cases h; exact hs

theorem hostMemWrite_inv {a : Nat} {v : Byte} {s t : State} (hs : s.Inv)
    (h : hostMemWrite a v s = .next t) : t.Inv := by
  rcases hostMemWrite_cases a v s with e | e | e
  · cases e.symm.trans h
  · cases e.symm.trans h
  · cases e.symm.trans h
    exact ⟨hs.legal, hs.blk, hs.parked, write_wf a v hs.mem⟩

theorem resetInstance_inv {s : State} (hs : s.Inv) : (resetInstance s).Inv :=
  ⟨hs.legal, reset_blockInv _ _ _, hs.parked, memAfterReset_wf _ hs.mem⟩

/-- The invariant is the same for every instance, so it does not matter which one is selected. -/
theorem State.inv_iff (s : State) :
    s.Inv ↔ s.cfg.Legal ∧ (∀ b ∈ s.instances, BlockInv s.cfg b) ∧ s.mem.wf := by
  simp only [State.instances, List.forall_mem_cons]
  exact ⟨fun ⟨hl, hb, hp, hm⟩ => ⟨hl, ⟨hb, hp⟩, hm⟩, fun ⟨hl, ⟨hb, hp⟩, hm⟩ => ⟨hl, hb, hp, hm⟩⟩

theorem selectInstance_inv (k : Nat) {s : State} (hs : s.Inv) : (selectInstance k s).Inv := by
  rw [State.inv_iff] at hs ⊢
  simpa only [selectInstance_cfg, selectInstance_mem, (selectInstance_perm k s).mem_iff] using hs

/-- Settles O47: each kind of event keeps the invariant; a turn does so case by case of `Turn`. -/
theorem invariantKept : Obligations.InvariantKept := by
  intro s t hs h
  exact step_keeps (P := State.Inv)
    (inbox := fun _ _ hs => ⟨hs.legal, hs.blk, hs.parked, hs.mem⟩)
    (turn := fun _ _ => blockTurn_inv)
    (slot := fun _ _ _ _ => writeSlot_inv)
    (read := fun _ _ _ hs => ⟨hs.legal, hs.blk, hs.parked, hs.mem⟩)
    (write := fun _ _ _ _ => hostMemWrite_inv)
    (reset := fun _ => resetInstance_inv)
    (select := fun k _ => selectInstance_inv k)
    hs h

/-- Settles O48: reset's registers meet the invariant of an instance in IDLE, and no byte is listed. -/
theorem resetMeetsInvariant : Obligations.ResetMeetsInvariant :=
  ⟨by unfold State.reset Config.Legal; decide, reset_blockInv _ 0 _, fun _ h => (by cases h), nil_wf⟩

end Sys2Proof.Machine
end

section
/-! PROOF. The bit cursor over one turn: it only moves forward, and it stays in the stream because no
output byte lies in the segment (10_state.md R21, R32). -/

namespace Sys2Proof.Machine

/-- Standing in the stream depends on the cursor, on where the payload lies, and on the payload bytes. -/
theorem CursorOnStream.congr {s t : State} (h : CursorOnStream s) (hcur : t.blk.cursor = s.blk.cursor)
    (hstart : t.blk.segStart = s.blk.segStart) (hend : t.blk.payloadEnd = s.blk.payloadEnd)
    (hmem : ∀ a, s.blk.payloadStart ≤ a → a ≤ s.blk.payloadEnd → t.mem.read a = s.mem.read a) :
    CursorOnStream t := by
  obtain ⟨⟨ha, hb, hf⟩, hp⟩ := h
  refine ⟨⟨?_, ?_, ?_⟩, fun hlt => ?_⟩ <;> rw [hcur] at * <;> simp only [hstart, hend] at *
  · exact ha
  · exact hb
  · exact hf
  · rw [hp hlt]
    exact (hmem _ (by unfold Block.payloadStart; omega) hlt).symm

/-- No payload byte is an output byte (41_segment_framing.md R150). -/
theorem payload_ne_outAddr {c : Config} {b : Block} (h : Allocated c b) {a i : Nat}
    (hge : b.payloadStart ≤ a) (hle : a ≤ b.payloadEnd) (hi : i < b.outSize) : a ≠ b.outAddr i := by
  have hapart := h.apart
  have hframing := h.framing
  unfold Block.payloadStart Block.payloadEnd Block.outAddr at *
  omega

/-- A write at an output byte leaves the cursor in the stream. -/
theorem CursorOnStream.outWrite {s t : State} (h : CursorOnStream s) (hm : s.mem.wf)
    (ha : Allocated s.cfg s.blk) {i : Nat} {v : Byte} (hi : i < s.blk.outSize)
    (hmem : t.mem = s.mem.write (s.blk.outAddr i) v) (hcur : t.blk.cursor = s.blk.cursor)
    (hstart : t.blk.segStart = s.blk.segStart) (hend : t.blk.payloadEnd = s.blk.payloadEnd) :
    CursorOnStream t :=
  h.congr hcur hstart hend fun _ hge hle => by
    rw [hmem, read_write_other hm v (payload_ne_outAddr ha hge hle hi)]

/-- Every turn of the token loop keeps the cursor in the stream. -/
theorem Turn.onStream {s t : State} (T : Turn s t) (hs : s.Inv) (hl : s.blk.inLoop)
    (h : CursorOnStream s) : CursorOnStream t := by
  have halloc := (hs.blk.inLoop hl).toAllocated
  cases T with
  | stay => exact h
  | error | done | copyNone => exact h.congr rfl rfl rfl fun _ _ _ => rfl
  | fetchError _ _ ht =>
    obtain ⟨_, _, _, _, _, honStream⟩ := ht
    exact honStream h
  | lit hp hu v c _ hc =>
    exact (hc.onStream h).outWrite hs.mem (halloc.congr ⟨rfl, rfl, rfl, rfl, rfl, rfl⟩ ⟨rfl, rfl⟩)
      (dst_lt_outSize hu) rfl rfl rfl rfl
  | litError _ _ _ _ _ hc | bref _ _ _ _ _ hc | brefError _ _ _ _ _ hc =>
    exact (hc.onStream h).congr rfl rfl rfl fun _ _ _ => rfl
  | length _ _ _ _ hx | lengthError _ _ _ _ hx =>
    exact (hx.onStream h).congr rfl rfl rfl fun _ _ _ => rfl
  | copy hp _ _ _ t ht =>
    obtain ⟨_, _, _, hpos, hlen⟩ := hs.blk.busy _ hp
    have hdst := dst_lt_outSize (b := s.blk) (by unfold Block.remaining at hlen; omega)
    subst ht
    split <;> exact h.outWrite hs.mem halloc hdst rfl rfl rfl rfl
  | _ => simp_all [Block.inLoop] -- the front end is no part of the loop

/-- The turn of INIT is `stepInit`. -/
theorem eq_stepInit_of_blockTurn {s t : State} (hp : s.blk.phase = .busy .init)
    (h : blockTurn s = .next t) : t = stepInit s := by
  simp only [blockTurn, hp] at h
  cases h
  rfl

/-- Settles O52: in the token loop the cursor is in range, and no case of a turn moves it back. -/
theorem cursorOnlyMovesForward : Obligations.CursorOnlyMovesForward := by
  intro s t hs hl h
  obtain ⟨_, hconsumed, hoffset⟩ :=
    (turn_of_blockTurn h).cursor_forward hl (hs.blk.inLoop hl).cursor
  exact ⟨hoffset, hconsumed⟩

/-- Settles O53: INIT puts the cursor at E with an empty pool, and the loop's writes, all in the output
buffer, leave the payload as it is. -/
theorem poolHoldsTheLastByte : Obligations.PoolHoldsTheLastByte := by
  intro s t hs h
  refine ⟨fun hp => ?_, fun hl => (turn_of_blockTurn h).onStream hs hl⟩
  obtain ⟨halloc, _, _⟩ := hs.blk.busy _ hp
  rw [eq_stepInit_of_blockTurn hp h]
  exact stepInit_onStream hs.legal halloc.toFramed

end Sys2Proof.Machine
end

section
/-! PROOF. The register slots as the host reads and writes them (10_state.md R23 to R37), and reset
(R41). -/

namespace Sys2Proof.Machine

/-- A host read of a named slot of the selected instance. -/
theorem regRead_offset (s : State) {off : Nat} (h : off % 8 = 0) (hlt : off < 0x68) :
    hostEvent (.regRead (s.blk.regBase + off)) s = .next (readSlot (slotNumber (off / 8)) s) :=
  regAccess_offset s h hlt _

/-- A host write of a named slot of the selected instance. -/
theorem regWrite_offset (s : State) (v : Word) {off : Nat} (h : off % 8 = 0) (hlt : off < 0x68) :
    hostEvent (.regWrite (s.blk.regBase + off) v) s = writeSlot (slotNumber (off / 8)) v s :=
  regAccess_offset s h hlt _

/-- A slot that is no result slot reads its register in every phase. -/
theorem readSlot_of_not_isResultSlot {slot : Slot} (h : isResultSlot slot = false) (s : State) :
    readSlot slot s = { s with hostData := slotValue s.blk slot } := by
  rw [readSlot, h, Bool.and_false, if_neg Bool.false_ne_true]

/-- At rest every slot reads its register. -/
theorem readSlot_of_not_isBusy (slot : Slot) {s : State} (h : s.blk.isBusy = false) :
    readSlot slot s = { s with hostData := slotValue s.blk slot } := by
  rw [readSlot, h, Bool.false_and, if_neg Bool.false_ne_true]

/-- A result slot read while BUSY gives a free value, cut to the bits it uses (10_state.md R35, R37). -/
theorem readSlot_of_isBusy {slot : Slot} {s : State} (hb : s.blk.isBusy = true)
    (h : isResultSlot slot = true) :
    readSlot slot s = { s with
      hostData := lowBits (usedBits s.cfg slot) (Config.freeSlot s.draws), draws := s.draws + 1 } := by
  rw [readSlot, hb, h, Bool.and_self, if_pos rfl]

/-- A configuration write at rest takes effect (10_state.md R36). -/
theorem configWrite_of_not_isBusy {s : State} (h : s.blk.isBusy = false) (b : Block) :
    configWrite b s = s.setBlk b := by
  rw [configWrite, h, if_neg Bool.false_ne_true]

/-- CUR_POOL's fields do not overlap (10_state.md R31). -/
theorem curPoolWord_eq_or (c : Cursor) :
    curPoolWord c = c.pool.setWidth 64 ||| (BitVec.ofNat 64 c.bitsLeft.val <<< 8) := by
  have hpool := c.pool.isLt
  have hbits := c.bitsLeft.isLt
  apply BitVec.eq_of_toNat_eq
  have hor := Nat.shiftLeft_add_eq_or_of_lt hpool c.bitsLeft.val
  simp only [curPoolWord, BitVec.toNat_or, BitVec.toNat_ofNat, BitVec.toNat_setWidth,
    BitVec.toNat_shiftLeft, Nat.shiftLeft_eq] at hor ⊢
  rw [Nat.mod_eq_of_lt (a := c.pool.toNat) (by omega), Nat.mod_eq_of_lt (a := c.bitsLeft.val) (by omega),
    Nat.mod_eq_of_lt (a := c.bitsLeft.val * 2 ^ 8) (by omega), Nat.or_comm, ← hor]
  omega

/-- Settles O34: STATUS is no result slot, so it shows the phase's three flags in every phase. -/
theorem statusShowsThePhase : Obligations.StatusShowsThePhase := by
  intro s
  have hr : hostEvent (.regRead (s.blk.regBase + 0x08)) s =
      .next { s with hostData := s.blk.phase.status } := by
    rw [regRead_offset s (by norm_num) (by norm_num)]
    exact congrArg _ (readSlot_of_not_isResultSlot rfl s)
  rw [hr]
  refine ⟨fun hp => ?_, fun sub hp => ?_, fun hp => ?_, fun hp => ?_,
    fun v => regWrite_offset s v (by norm_num) (by norm_num)⟩ <;> rw [hp] <;> rfl

/-- Settles O35: by slot, what a read gives at rest, and the free value of a result slot while BUSY. -/
theorem slotsReadTheirRegisters : Obligations.SlotsReadTheirRegisters := by
  intro s b
  have read {off : Nat} (h : off % 8 = 0) (hlt : off < 0x68) {t : State}
      (ht : readSlot (slotNumber (off / 8)) s = t) :
      hostEvent (.regRead (b.regBase + off)) s = .next t :=
    (regRead_offset s h hlt).trans (congrArg _ ht)
  refine ⟨?_, fun hb => ?_, fun hb => ?_, fun k hk hp => ?_⟩
  · simp only [List.forall_mem_cons]
    refine ⟨?_, ?_, ?_, ?_, ?_, ?_, ?_, fun _ h => (by cases h)⟩ <;>
      exact read (by norm_num) (by norm_num) (readSlot_of_not_isResultSlot rfl s)
  · simp only [List.forall_mem_cons]
    rw [← curPoolWord_eq_or]
    refine ⟨?_, ?_, ?_, ?_, ?_, fun _ h => (by cases h)⟩ <;>
      exact read (by norm_num) (by norm_num) (readSlot_of_not_isBusy _ hb)
  · simp only [List.forall_mem_cons]
    refine ⟨?_, ?_, ?_, ?_, ?_, fun _ h => (by cases h)⟩ <;>
      exact read (by norm_num) (by norm_num) (readSlot_of_isBusy hb rfl)
  · exact (regAccess_reserved hk hp _).trans (congrArg _ (readSlot_of_not_isResultSlot rfl s))

/-- Settles O37: by slot, what a write does. -/
theorem slotWrites : Obligations.SlotWrites := by
  intro s v b cut
  refine ⟨fun hb => ⟨?_, ?_, ?_, ?_⟩, ?_, fun k hk hp => regAccess_reserved hk hp _⟩
  iterate 4
    exact (regWrite_offset s v (by norm_num) (by norm_num)).trans
      (congrArg _ (configWrite_of_not_isBusy hb _))
  simp only [List.forall_mem_cons]
  refine ⟨?_, ?_, ?_, ?_, ?_, ?_, ?_, ?_, fun _ h => (by cases h)⟩ <;>
    exact regWrite_offset s v (by norm_num) (by norm_num)

/-- Settles O41: a reset writes the table's values, and at rest `memAfterReset` is memory as it is. -/
theorem resetGivesTheTable : Obligations.ResetGivesTheTable := by
  refine ⟨fun s => ⟨_, rfl, ⟨rfl, rfl, rfl, rfl⟩, rfl, fun hb => ?_⟩, rfl⟩
  change memAfterReset _ s = s.mem
  rw [memAfterReset, hb, if_neg Bool.false_ne_true]

/-- STATUS uses its three low bits (10_state.md R25). -/
theorem Phase.status_lt (p : Phase) : p.status.toNat < 2 ^ 3 := by
  have hbusy := Bool.toNat_le p.busyFlag
  have hdone := Bool.toNat_le p.doneFlag
  have herr := Bool.toNat_le p.errFlag
  rw [Phase.status, BitVec.toNat_ofNat]
  omega

/-- In the invariant the value of a slot has no bit above the slot's width (10_state.md R23, R35). -/
theorem slotValue_lt {c : Config} {b : Block} (h : BlockInv c b) (slot : Slot) :
    (slotValue b slot).toNat < 2 ^ usedBits c slot := by
  cases slot with
  | ctrl => exact Nat.two_pow_pos 1
  | status => exact b.phase.status_lt
  | srcBase => exact h.srcFits
  | dstBase => exact h.dstFits
  | curOffset => exact h.offsetFits
  | errInfo => exact b.errInfo.isLt
  | segLen => exact b.segLen.isLt
  | dstCap => exact b.dstCap.isLt
  | errCode => exact (BitVec.toNat_setWidth_of_le (by norm_num)).trans_lt b.errCode.code.isLt
  | uncompSize => exact (BitVec.toNat_setWidth_of_le (by norm_num)).trans_lt b.uncompSize.isLt
  | hbRelOff => exact (BitVec.toNat_setWidth_of_le (by norm_num)).trans_lt b.hbRelOff.isLt
  | bytesOut => exact (BitVec.toNat_setWidth_of_le (by norm_num)).trans_lt b.bytesOut.isLt
  | curPool =>
    have hpool := b.cursor.pool.isLt
    have hbits := b.cursor.bitsLeft.isLt
    refine lt_of_le_of_lt (Nat.mod_le _ _) ?_
    change _ < 2 ^ 12
    omega
  | reserved => exact Nat.two_pow_pos 0

/-- What the host reads from a slot has no bit above the slot's width, in every phase. -/
theorem readSlot_lt {s : State} (hs : s.Inv) (slot : Slot) :
    (readSlot slot s).hostData.toNat < 2 ^ usedBits s.cfg slot := by
  unfold readSlot
  split
  · exact lowBits_lt _ _
  · exact slotValue_lt hs.blk slot

/-- The bits of a word from a bound's width up are 0. -/
theorem getLsbD_of_toNat_lt {v : Word} {w : Nat} (h : v.toNat < 2 ^ w) {i : Nat} (hi : w ≤ i) :
    v.getLsbD i = false :=
  Nat.testBit_lt_two_pow (lt_of_lt_of_le h (Nat.pow_le_pow_right (by norm_num) hi))

/-- Settles O60: the value of each slot is below 2 to its width, by the invariant where that width is
ADDR_W; CTRL reads 0. -/
theorem reservedBitsReadZero : Obligations.ReservedBitsReadZero := by
  intro s hs
  have read {off w : Nat} (h : off % 8 = 0) (hlt : off < 0x68)
      (hv : (readSlot (slotNumber (off / 8)) s).hostData.toNat < 2 ^ w) :
      ∃ t, hostEvent (.regRead (s.blk.regBase + off)) s = .next t ∧
        ∀ i, w ≤ i → t.hostData.getLsbD i = false :=
    ⟨_, regRead_offset s h hlt, fun _ => getLsbD_of_toNat_lt hv⟩
  simp only [List.forall_mem_cons]
  refine ⟨read (by norm_num) (by norm_num) ?_, ?_, ?_, ?_, ?_, ?_, ?_, ?_, ?_, ?_, fun _ h => (by cases h)⟩
  · rw [show slotNumber (0x00 / 8) = .ctrl from rfl, readSlot_of_not_isResultSlot rfl]
    exact Nat.two_pow_pos 0
  all_goals exact read (by norm_num) (by norm_num) (readSlot_lt hs _)

end Sys2Proof.Machine
end

section
/-! PROOF. Register accesses by their address: what reads and writes leave alone, BUSY instances, and
accesses at a parked instance (10_state.md R35, R36, R42). -/

namespace Sys2Proof.Machine

/-- Settles O36: a register read and a memory read each set the host's data and the draws only. -/
theorem readsHaveNoSideEffect : Obligations.ReadsHaveNoSideEffect := by
  rintro s t a (h | h)
  · obtain ⟨v, n, rfl⟩ := regRead_eq h
    rfl
  · rcases hostMemRead_cases a s with e | ⟨v, n, e⟩
    · cases e.symm.trans h
    · cases e.symm.trans h
      rfl

/-- A write to a BUSY instance is ignored, a START too (10_state.md R36, 41_segment_framing.md R141). -/
theorem writeSlot_of_isBusy (slot : Slot) (v : Word) {s : State} (hb : s.blk.isBusy = true) :
    writeSlot slot v s = .next s := by
  rcases writeSlot_cases slot v s with e | e | ⟨b, e, _⟩
  · rw [e]
    exact if_pos hb
  · exact e
  · rw [e, configWrite, if_pos hb]

/-- A whole slot outside the named ones is reserved (log 13). -/
theorem slotAt_eq_reserved {b : Block} {a : Nat} {slot : Slot} (h : slotAt b a = some slot)
    (hout : b.holdsAddr a = false) : slot = .reserved := by
  unfold slotAt at h
  split at h
  · cases h
  · cases h
    simp only [Block.holdsAddr, Bool.and_eq_false_iff, decide_eq_false_iff_not] at hout
    exact slotNumber_reserved (by omega)

/-- A write of a slot changes nothing where the slot is a named one only of a BUSY instance. -/
theorem eq_of_writeSlot_of_busy {s t : State} {a : Nat} {slot : Slot} {v : Word}
    (hbusy : s.blk.holdsAddr a = true → s.blk.isBusy = true) (hslot : slotAt s.blk a = some slot)
    (h : writeSlot slot v s = .next t) : t = s := by
  cases ha : s.blk.holdsAddr a with
  | true =>
    rw [writeSlot_of_isBusy slot v (hbusy ha)] at h
    cases h
    rfl
  | false =>
    rw [slotAt_eq_reserved hslot ha] at h
    cases h
    rfl

theorem selectInstance_blk {s : State} {k : Nat} {b : Block} (h : s.parked[k]? = some b) :
    (selectInstance k s).blk = b := by
  rw [selectInstance_of_getElem? h]

/-- Settles O38: the slot is reserved, or its instance is BUSY; and no case of a turn writes the
configuration. -/
theorem writesWhileBusyAreHarmless : Obligations.WritesWhileBusyAreHarmless := by
  refine ⟨fun s t a v hall h => ?_, fun s t h => ?_⟩
  · rcases regAccess_cases h with ⟨slot, _, hslot, hf⟩ | ⟨k, b, slot, u, _, hb, _, hslot, hf, rfl⟩
    · exact eq_of_writeSlot_of_busy (hall s.blk List.mem_cons_self) hslot hf
    · have hbusy := hall b (List.mem_cons_of_mem _ (List.mem_of_getElem? hb))
      rw [← selectInstance_blk hb] at hslot hbusy
      rw [eq_of_writeSlot_of_busy hbusy hslot hf, selectInstance_selectInstance]
  · have k := (turn_of_blockTurn h).sameSetup
    exact ⟨k.srcBase, k.segLen, k.dstBase, k.dstCap, k.regBase⟩

/-- A write of a slot changes the selected instance and the draws, nothing else. -/
theorem writeSlot_frame {slot : Slot} {v : Word} {s t : State} (h : writeSlot slot v s = .next t) :
    t = { s with blk := t.blk, draws := t.draws } := by
  rcases writeSlot_cases slot v s with e | e | ⟨b, e, _⟩
  · replace h : execStart s = .next t := e.symm.trans h
    unfold execStart at h
    split at h
    · cases h; rfl
    · split at h
      · cases h
      · cases h; rfl
  · cases e.symm.trans h; rfl
  · cases e.symm.trans h
    unfold configWrite
    split <;> rfl

/-- Giving the selection back after the `k`-th parked instance and the draws changed. -/
theorem selectInstance_of_frame {s u : State} {k : Nat} {b : Block} (hb : s.parked[k]? = some b)
    (hu : u = { selectInstance k s with blk := u.blk, draws := u.draws }) :
    selectInstance k u = { s with parked := s.parked.set k u.blk, draws := u.draws } := by
  rw [selectInstance_of_getElem? hb] at hu
  rw [selectInstance_back hb (by rw [hu])]
  rw [hu]

/-- Only a register write at a parked instance's named slots changes one, and that one alone. -/
theorem hostEvent_parked {s t : State} {e : HostEvent} (he : ∀ k, e ≠ .select k)
    (h : hostEvent e s = .next t) : t.parked = s.parked ∨
      ∃ a v k b c, e = .regWrite a v ∧ s.parked[k]? = some b ∧ b.holdsAddr a = true ∧
        t = { s with parked := s.parked.set k c, draws := t.draws } := by
  cases e with
  | turn =>
    obtain ⟨_, hparked, _⟩ := (turn_of_blockTurn h).rest
    exact .inl hparked
  | regWrite a v =>
    rcases regAccess_cases h with ⟨slot, _, _, hf⟩ | ⟨k, b, slot, u, _, hb, hreach, hslot, hf, rfl⟩
    · left
      rw [writeSlot_frame hf]
    · cases ha : b.holdsAddr a with
      | true =>
        have e := selectInstance_of_frame hb (writeSlot_frame hf)
        exact .inr ⟨a, v, k, b, u.blk, rfl, hb, ha, e.trans (by rw [selectInstance_draws])⟩
      | false =>
        left
        rw [slotAt_eq_reserved hslot ha] at hf
        cases hf
        rw [selectInstance_selectInstance]
  | regRead a =>
    obtain ⟨v, n, rfl⟩ := regRead_eq h
    exact .inl rfl
  | memWrite a v =>
    rcases hostMemWrite_cases a v s with e | e | e <;> cases e.symm.trans h
    exact .inl rfl
  | memRead a =>
    rcases hostMemRead_cases a s with e | ⟨v, n, e⟩ <;> cases e.symm.trans h
    exact .inl rfl
  | reset => cases h; exact .inl rfl
  | select k => exact absurd rfl (he k)

theorem onInstance_of_next {k : Nat} {f : State → Host.Outcome State Fault Refusal} {s t : State}
    (h : f (selectInstance k s) = .next t) : onInstance k f s = .next (selectInstance k t) := by
  simp only [onInstance, h]

theorem onInstance_of_refused {k : Nat} {f : State → Host.Outcome State Fault Refusal} {s : State}
    {r : Refusal} (h : f (selectInstance k s) = .refused r) : onInstance k f s = .refused r := by
  simp only [onInstance, h]

/-- An access among the named slots of the `k`-th parked instance alone is that access with it
selected, and the selection given back. -/
theorem regAccess_eq_onInstance {s : State} {k a : Nat} {b : Block} (hb : s.parked[k]? = some b)
    (ha : b.holdsAddr a = true) (hs : s.blk.holdsAddr a = false)
    (hp : ∀ j c, j ≠ k → s.parked[j]? = some c → c.holdsAddr a = false)
    (f : Slot → State → Host.Outcome State Fault Refusal) :
    regAccess a f s = onInstance k (regAccess a f) s := by
  have hsel : reached a (selectInstance k s) = none :=
    reached_selected (by rw [selectInstance_blk hb]; exact ha)
  rw [regAccess_parked (reached_parked hb ha hs fun j c hj => hp j c (Nat.ne_of_lt hj))]
  simp only [onInstance, regAccess_selected hsel]

/-- The host's data is no part of any instance. -/
theorem selectInstance_setHostData (k : Nat) (v : Word) (s : State) :
    selectInstance k { s with hostData := v } = { selectInstance k s with hostData := v } := by
  cases h : s.parked[k]? <;> simp [selectInstance, h]

/-- Settles O58: the access is the one with that instance selected, where its offset tells the slot. -/
theorem accessesReachTheirInstance : Obligations.AccessesReachTheirInstance := by
  intro s k b off hb hoff a hs hp
  have ha : b.holdsAddr a = true := by simp [Block.holdsAddr, a, hoff]
  have hblk := selectInstance_blk hb
  have reach := regAccess_eq_onInstance hb ha hs hp
  refine ⟨?_, ?_, ?_, ?_⟩
  · rintro e v (rfl | rfl)
    · exact ⟨fun t h => (reach _).trans (onInstance_of_next h),
        fun r h => (reach _).trans (onInstance_of_refused h)⟩
    · exact ⟨fun t h => (reach _).trans (onInstance_of_next h),
        fun r h => (reach _).trans (onInstance_of_refused h)⟩
  · rintro rfl
    have h := regRead_offset (selectInstance k s) (off := 0x20) (by norm_num) (by norm_num)
    rw [hblk, readSlot_of_not_isResultSlot rfl] at h
    refine (reach _).trans ((onInstance_of_next h).trans ?_)
    rw [selectInstance_setHostData, selectInstance_selectInstance]
    simp only [slotValue, hblk]
    rfl
  · rintro rfl hrest v
    have h := regWrite_offset (selectInstance k s) v (off := 0x38) (by norm_num) (by norm_num)
    have hw : writeSlot .dstCap v (selectInstance k s) =
        .next ((selectInstance k s).setBlk { b with dstCap := v }) := by
      rw [writeSlot, configWrite_of_not_isBusy (by rwa [hblk]), hblk]
    rw [hblk] at h
    refine (reach _).trans ((onInstance_of_next (h.trans hw)).trans ?_)
    rw [selectInstance_of_frame hb rfl, setBlk_draws, selectInstance_draws, setBlk_blk]
  · rintro rfl hrest hclash v hv
    have h := regWrite_offset (selectInstance k s) v (off := 0) (by norm_num) (by norm_num)
    have hw : writeSlot .ctrl v (selectInstance k s) = .next (acceptStart (selectInstance k s)) := by
      rw [writeSlot, decodeCommand, if_pos hv]
      change execStart _ = _
      rw [execStart, hblk, hrest, hclash, if_neg Bool.false_ne_true, if_neg Bool.false_ne_true]
    rw [hblk] at h
    refine ⟨_, _, (reach _).trans ((onInstance_of_next (h.trans hw)).trans
      (congrArg _ (selectInstance_of_frame hb rfl))), rfl, rfl⟩

end Sys2Proof.Machine
end

section
/-! PROOF. A turn of the selected instance does not depend on the parked ones (10_state.md R42,
60_exceptions.md R245): two machines that differ in them answer every read alike. -/

namespace Sys2Proof.Machine

/-- `t` is `s` with other parked instances. -/
def ParkedAs (ps : List Block) (s t : State) : Prop := t = { s with parked := ps }

/-- Two readings end alike, in states that differ in the parked instances only. -/
abbrev SameReading {α : Type} (ps : List Block) (r r' : Res State α) : Prop :=
  Agree (ParkedAs ps) (ParkedAs ps) r r'

variable {ps : List Block}

theorem finalState_parked {r r' : Res State Unit} (h : SameReading ps r r') :
    finalState r' = { finalState r with parked := ps } := by
  cases r with
  | ok u x =>
    cases r' with
    | ok u' y => exact h.2
    | raised y => exact h.elim
  | raised x =>
    cases r' with
    | ok u' y => exact h.elim
    | raised y => exact h

theorem srcRead_parked (a : Nat) (s : State) :
    SameReading ps (srcRead a s) (srcRead a { s with parked := ps }) := by
  unfold srcRead
  cases accessible s.cfg a
  · exact rfl
  · exact ⟨rfl, rfl⟩

theorem outRead_parked (i : Nat) (s : State) :
    SameReading ps (outRead i s) (outRead i { s with parked := ps }) := by
  unfold outRead
  cases accessible s.cfg (s.blk.outAddr i)
  · exact rfl
  · exact ⟨rfl, rfl⟩

theorem outWrite_parked (i : Nat) (v : Byte) (s : State) :
    SameReading ps (outWrite i v s) (outWrite i v { s with parked := ps }) := by
  unfold outWrite
  cases accessible s.cfg (s.blk.outAddr i)
  · exact rfl
  · exact ⟨rfl, rfl⟩

theorem srcReads_parked (n a : Nat) (s : State) :
    SameReading ps (srcReads n a s) (srcReads n a { s with parked := ps }) := by
  induction n generalizing a s with
  | zero => exact ⟨rfl, rfl⟩
  | succ n ih =>
    unfold srcReads
    refine agree_bind (srcRead_parked a s) ?_
    rintro b x _ - - rfl
    refine agree_bind (ih (a + 1) x) ?_
    rintro bs x _ - - rfl
    exact ⟨rfl, rfl⟩

theorem fillPool_parked (s : State) :
    SameReading ps (fillPool s) (fillPool { s with parked := ps }) := by
  unfold fillPool
  split
  · split
    · exact rfl
    · refine agree_bind (srcRead_parked _ s) ?_
      rintro b x _ - - rfl
      exact ⟨rfl, rfl⟩
  · exact ⟨rfl, rfl⟩

theorem readBitsLoop_parked (fuel need acc : Nat) (s : State) :
    SameReading ps (readBitsLoop fuel need acc s) (readBitsLoop fuel need acc { s with parked := ps }) := by
  induction fuel generalizing need acc s with
  | zero => exact ⟨rfl, rfl⟩
  | succ fuel ih =>
    unfold readBitsLoop
    split
    · exact ⟨rfl, rfl⟩
    · refine agree_bind (fillPool_parked s) ?_
      rintro _ x _ - - rfl
      exact ih _ _ _

theorem readBits_parked (n : Nat) (x y : State) (h : ParkedAs ps x y) :
    SameReading ps (readBits n x) (readBits n y) := by
  subst h
  exact readBitsLoop_parked n n 0 x

theorem fetchToken_parked (s : State) :
    SameReading ps (fetchToken s) (fetchToken { s with parked := ps }) :=
  decodeToken_agree readBits_parked rfl

theorem fetchLength_parked (s : State) :
    SameReading ps (fetchLength s) (fetchLength { s with parked := ps }) :=
  decodeLength_same readBits_parked (fun _ _ _ _ h => by subst h; rfl) (fun _ _ h => h) _ rfl

/-! ## The steps -/

theorem stepPre_parked (s : State) : stepPre { s with parked := ps } = { stepPre s with parked := ps } := by
  unfold stepPre
  split
  · rfl
  · split <;> rfl

theorem stepSig_parked (s : State) : stepSig { s with parked := ps } = { stepSig s with parked := ps } := by
  refine finalState_parked (agree_bind (srcReads_parked 8 _ s) ?_)
  rintro bytes x _ - - rfl
  split
  · exact ⟨rfl, rfl⟩
  · exact rfl

theorem stepSizes_parked (s : State) :
    stepSizes { s with parked := ps } = { stepSizes s with parked := ps } := by
  refine finalState_parked (agree_bind (srcReads_parked 4 _ s) ?_)
  rintro f x _ - - rfl
  refine agree_bind (srcReads_parked 4 _ x) ?_
  rintro g x _ - - rfl
  exact ⟨rfl, rfl⟩

theorem stepFrame_parked (s : State) :
    stepFrame { s with parked := ps } = { stepFrame s with parked := ps } := by
  unfold stepFrame
  split <;> rfl

theorem stepAlloc_parked (s : State) :
    stepAlloc { s with parked := ps } = { stepAlloc s with parked := ps } := by
  unfold stepAlloc
  split
  · rfl
  · split
    · rfl
    · split <;> rfl

theorem stepHdr_parked (i : Fin 256) (s : State) :
    stepHdr i { s with parked := ps } = { stepHdr i s with parked := ps } := by
  refine finalState_parked (agree_bind (srcRead_parked _ s) ?_)
  rintro v x _ - - rfl
  refine agree_bind (outWrite_parked _ v x) ?_
  rintro _ x _ - - rfl
  exact ⟨rfl, rfl⟩

theorem copyStep_parked (s : State) :
    copyStep { s with parked := ps } = { copyStep s with parked := ps } := by
  unfold copyStep
  split
  · rfl
  · refine finalState_parked (agree_bind (outRead_parked _ s) ?_)
    rintro v x _ - - rfl
    refine agree_bind (outWrite_parked _ v x) ?_
    rintro _ x _ - - rfl
    refine ⟨rfl, ?_⟩
    by_cases hl : (advanceCopy x).blk.latches.len = 0
    · rw [if_pos hl]
      exact if_pos hl
    · rw [if_neg hl]
      exact if_neg hl

/-- A length beyond what is still to come (44_back_copy.md R212). -/
theorem lengthDone_of_lt {len : Nat} {s : State} (h : s.blk.remaining < len) (lvl : Fin 5) :
    lengthDone len lvl s = raise .outputOverrun (min len (2 ^ 64 - 1))
      (s.setLatches { s.blk.latches with len := len, lvl := lvl }) :=
  if_pos h

/-- A length that fits goes on to the copy. -/
theorem lengthDone_of_not_lt {len : Nat} {s : State} (h : ¬ s.blk.remaining < len) (lvl : Fin 5) :
    lengthDone len lvl s =
      (s.setLatches { s.blk.latches with len := len, lvl := lvl }).setPhase (.busy .copy) :=
  if_neg h

theorem lengthDone_parked (len : Nat) (lvl : Fin 5) (s : State) :
    lengthDone len lvl { s with parked := ps } = { lengthDone len lvl s with parked := ps } := by
  by_cases h : s.blk.remaining < len
  · rw [lengthDone_of_lt h]
    exact lengthDone_of_lt (s := { s with parked := ps }) h lvl
  · rw [lengthDone_of_not_lt h]
    exact lengthDone_of_not_lt (s := { s with parked := ps }) h lvl

/-- A back-reference above TOP (44_back_copy.md R211). -/
theorem execBref_of_lt {d : BitVec 13} {s : State} (h : s.blk.top < s.blk.brIdxOf d) :
    execBref d s = .next (raise .backrefOutOfRange (s.blk.brIdxOf d)
      (s.setLatches { s.blk.latches with dist := d, brIdx := s.blk.brIdxOf d })) :=
  if_pos h

/-- A back-reference within the output goes on to its length code. -/
theorem execBref_of_not_lt {d : BitVec 13} {s : State} (h : ¬ s.blk.top < s.blk.brIdxOf d) :
    execBref d s = .next ((s.setLatches { s.blk.latches with dist := d, brIdx := s.blk.brIdxOf d }
      ).setPhase (.busy .bref)) :=
  if_neg h

/-- Every instruction but START, which is held to a host duty, runs without the parked instances. -/
theorem exec_parked {i : Instr} (hi : i.position ≠ .command) {s t : State} (h : exec i s = .next t) :
    exec i { s with parked := ps } = .next { t with parked := ps } := by
  cases hl : codeLength i with
  | some n =>
    rw [exec_of_codeLength hl] at h ⊢
    cases h
    exact congrArg _ (lengthDone_parked n _ s)
  | none =>
    cases i with
    | lit v =>
      cases h
      refine congrArg _ (finalState_parked (agree_bind (outWrite_parked _ v s) ?_))
      rintro _ x _ - - rfl
      exact ⟨rfl, rfl⟩
    | bref d =>
      change execBref d _ = _ at h ⊢
      by_cases hr : s.blk.top < s.blk.brIdxOf d
      · cases (execBref_of_lt hr).symm.trans h
        exact execBref_of_lt (s := { s with parked := ps }) hr
      · cases (execBref_of_not_lt hr).symm.trans h
        exact execBref_of_not_lt (s := { s with parked := ps }) hr
    | start => exact absurd rfl hi
    | _ => cases hl

theorem runFetched_parked {r r' : Res State Instr} (hr : SameReading ps r r')
    (hi : ∀ i x, r = .ok i x → i.position ≠ .command) {t : State} (h : runFetched r = .next t) :
    runFetched r' = .next { t with parked := ps } := by
  cases r with
  | ok i x =>
    cases r' with
    | ok j y =>
      obtain ⟨rfl, rfl⟩ := hr
      exact exec_parked (hi i x rfl) h
    | raised y => exact hr.elim
  | raised x =>
    cases r' with
    | ok j y => exact hr.elim
    | raised y =>
      cases h
      exact congrArg _ hr

theorem fetchToken_position {s x : State} {i : Instr} (h : fetchToken s = .ok i x) :
    i.position ≠ .command := by
  rcases fetchToken_cases s with ⟨j, c, e, hj⟩ | ⟨y, e, _⟩ <;> cases e.symm.trans h
  rw [hj.position]
  exact Position.noConfusion

theorem fetchLength_position {s x : State} {i : Instr} (h : fetchLength s = .ok i x) :
    i.position ≠ .command := by
  rcases fetchLength_cases s with ⟨j, y, e, hj⟩ | ⟨y, e, _⟩ <;> cases e.symm.trans h
  rw [hj.position]
  exact Position.noConfusion

/-- Each step of a turn runs without the parked instances. -/
theorem blockTurn_parked {s t : State} (h : blockTurn s = .next t) :
    blockTurn { s with parked := ps } = .next { t with parked := ps } := by
  unfold blockTurn at h ⊢
  cases hp : s.blk.phase with
  | idle | done | error => simp only [hp] at h ⊢; cases h; rfl
  | busy sub =>
    cases sub <;> simp only [hp] at h ⊢
    case token =>
      unfold tokenTurn at h ⊢
      split at h
      · rename_i hu
        rw [if_pos hu]
        exact runFetched_parked (fetchToken_parked s) (fun _ _ => fetchToken_position) h
      · rename_i hu
        rw [if_neg hu]
        cases h
        rfl
    case bref => exact runFetched_parked (fetchLength_parked s) (fun _ _ => fetchLength_position) h
    all_goals obtain rfl := Host.Outcome.next.inj h
    case pre => exact congrArg _ (stepPre_parked s)
    case sig => exact congrArg _ (stepSig_parked s)
    case sizes => exact congrArg _ (stepSizes_parked s)
    case frame => exact congrArg _ (stepFrame_parked s)
    case alloc => exact congrArg _ (stepAlloc_parked s)
    case hdr i => exact congrArg _ (stepHdr_parked i s)
    case init => rfl
    case copy => exact congrArg _ (copyStep_parked s)

/-- Settles O43: event by event what changes, and step by step that a turn reads no parked instance. -/
theorem instancesAreIndependent : Obligations.InstancesAreIndependent :=
  ⟨fun _ _ _ => hostEvent_parked, fun _ _ _ => blockTurn_parked⟩

end Sys2Proof.Machine
end

section
/-! PROOF. Where a turn writes: one output byte of its own instance, once ALLOC has passed
(20_memory.md R71, 44_back_copy.md R215). -/

namespace Sys2Proof.Machine

/-- The sub-phases after ALLOC, the only ones in which a decode writes (41_segment_framing.md R155). -/
def Block.pastAlloc (b : Block) : Prop :=
  (∃ i, b.phase = .busy (.hdr i)) ∨ b.phase = .busy .init ∨ b.phase = .busy .token ∨
    b.phase = .busy .bref ∨ b.phase = .busy .copy

theorem BlockInv.allocated {c : Config} {b : Block} (h : BlockInv c b) (hp : b.pastAlloc) :
    Allocated c b := by
  rcases hp with ⟨i, hp⟩ | hp | hl
  · exact (h.busy _ hp).1
  · exact (h.busy _ hp).1
  · exact (h.inLoop hl).toAllocated

/-- In `copy` a payload byte is still to come (44_back_copy.md R212). -/
theorem BlockInv.bytesOut_lt_of_copy {c : Config} {b : Block} (h : BlockInv c b)
    (hp : b.phase = .busy .copy) : b.bytesOut.toNat < b.us := by
  obtain ⟨_, _, _, hpos, hlen⟩ := h.busy _ hp
  unfold Block.remaining at hlen
  omega

/-- No byte of the segment is an output byte (41_segment_framing.md R150). -/
theorem segment_ne_outAddr {c : Config} {b : Block} (h : Allocated c b) {a i : Nat}
    (hge : b.segStart ≤ a) (hlt : a < b.segStart + b.segSize) (hi : i < b.outSize) :
    a ≠ b.outAddr i := by
  have hapart := h.apart
  unfold Block.outAddr
  omega

/-- A turn writes nothing, or one byte of the output. -/
theorem Turn.mem_cases {s t : State} (T : Turn s t) (h : BlockInv s.cfg s.blk) :
    t.mem = s.mem ∨ (s.blk.pastAlloc ∧
      ∃ i v, i < s.blk.outSize ∧ t.mem = s.mem.write (s.blk.outAddr i) v) := by
  cases T with
  | hdr i hp =>
    exact .inr ⟨.inl ⟨i, hp⟩, i, _, by unfold Block.outSize; omega, rfl⟩
  | lit hp hu v =>
    exact .inr ⟨.inr (.inr (.inl hp)), s.blk.dst, v, dst_lt_outSize hu, rfl⟩
  | copy hp _ _ _ t ht =>
    refine .inr ⟨.inr (.inr (.inr (.inr hp))), s.blk.dst,
      s.mem.read (s.blk.outAddr s.blk.latches.brIdx), dst_lt_outSize (h.bytesOut_lt_of_copy hp), ?_⟩
    subst ht
    split <;> rfl
  | fetchError _ _ ht =>
    obtain ⟨c, l, e, info, _, rfl⟩ := ht.state
    exact .inl rfl
  | length _ _ _ _ hx | lengthError _ _ _ _ hx =>
    obtain ⟨c, l, rfl⟩ := hx.state
    exact .inl rfl
  | _ => exact .inl rfl

/-- A byte that is no output byte keeps its value. -/
theorem Turn.read_eq {s t : State} (T : Turn s t) (hs : s.Inv) {a : Nat}
    (ha : s.blk.pastAlloc → ∀ i, i < s.blk.outSize → a ≠ s.blk.outAddr i) :
    t.mem.read a = s.mem.read a := by
  rcases T.mem_cases hs.blk with e | ⟨hp, i, v, hi, e⟩
  · rw [e]
  · rw [e, read_write_other hs.mem v (ha hp i hi)]

/-- Settles O51: the one byte a turn may write is an output byte, and ALLOC has kept the output apart
from the segment. -/
theorem writesStayInTheOutput : Obligations.WritesStayInTheOutput := by
  intro s t hs _ h
  have T := turn_of_blockTurn h
  refine ⟨fun a ha => T.read_eq hs fun _ i hi => ?_, fun a hge hlt => T.read_eq hs fun hp i hi => ?_⟩
  · unfold Block.outAddr
    unfold Block.outSize at hi
    omega
  · exact segment_ne_outAddr (hs.blk.allocated hp) hge hlt hi

end Sys2Proof.Machine
end

section
/-! PROOF. The host's accesses to memory while decodes run, and the STARTs that are refused
(20_memory.md R74, R77, R80). -/

namespace Sys2Proof.Machine

theorem inSegment_iff {b : Block} {a : Nat} :
    inSegment b a = true ↔ b.segStart ≤ a ∧ a < b.segStart + b.segSize := by
  simp only [inSegment, Bool.and_eq_true, decide_eq_true_eq]

/-- The output region as arithmetic; it is empty where the segment holds no us field (log 18). -/
theorem inOutput_iff {s : State} {b : Block} {a : Nat} :
    inOutput s b a = true ↔ b.dstBase.toNat ≤ a ∧ a < b.dstBase.toNat + 0x100 + declaredUs s.mem b ∧
      12 ≤ b.segSize ∧ b.segStart + 12 ≤ 2 ^ s.cfg.addrW := by
  simp only [inOutput, declaredOutSize, hasSizeField, Bool.and_eq_true, decide_eq_true_eq]
  split <;> omega

/-- A host's write to an address of a running decode's segment or output region breaks a duty
(20_memory.md R77). -/
def KeptFromHost (s : State) (a : Nat) : Prop :=
  ∃ b ∈ s.instances, b.isBusy = true ∧ (inSegment b a = true ∨ inOutput s b a = true)

theorem any_eq_true_iff_keptFromHost (s : State) (a : Nat) :
    (s.instances.any fun b => b.isBusy && (inSegment b a || inOutput s b a)) = true ↔
      KeptFromHost s a := by
  simp only [List.any_eq_true, Bool.and_eq_true, Bool.or_eq_true, KeptFromHost]

theorem hostMemWrite_of_kept {s : State} {a : Nat} (ha : a < 2 ^ s.cfg.addrW)
    (h : KeptFromHost s a) (v : Byte) : hostMemWrite a v s = .refused .hostDuty := by
  rw [hostMemWrite, if_neg (Nat.not_le.2 ha), if_pos ((any_eq_true_iff_keptFromHost s a).2 h)]

theorem hostMemWrite_of_not_kept {s : State} {a : Nat} (ha : a < 2 ^ s.cfg.addrW)
    (h : ¬ KeptFromHost s a) (v : Byte) :
    hostMemWrite a v s = .next (s.setMem (s.mem.write a v)) := by
  rw [hostMemWrite, if_neg (Nat.not_le.2 ha), if_neg (mt (any_eq_true_iff_keptFromHost s a).1 h)]

/-- A host write that goes on keeps off every running decode. -/
theorem hostMemWrite_eq_next {s t : State} {a : Nat} {v : Byte} (h : hostMemWrite a v s = .next t) :
    ¬ KeptFromHost s a ∧ t = s.setMem (s.mem.write a v) := by
  have ha : a < 2 ^ s.cfg.addrW := by
    by_contra hn
    rw [hostMemWrite, if_pos (Nat.not_lt.1 hn)] at h
    cases h
  by_cases hk : KeptFromHost s a
  · cases (hostMemWrite_of_kept ha hk v).symm.trans h
  · cases (hostMemWrite_of_not_kept ha hk v).symm.trans h
    exact ⟨hk, rfl⟩

/-- A START that goes on was ignored, or clashed with no running decode and was accepted. -/
theorem execStart_eq_next {s t : State} (h : execStart s = .next t) :
    t = s ∨ (startClashes s = false ∧ t = acceptStart s) := by
  unfold execStart at h
  split at h
  · cases h
    exact .inl rfl
  · split at h
    · cases h
    · cases h
      exact .inr ⟨eq_false_of_ne_true ‹_›, rfl⟩

/-- Settles O39: the regions by arithmetic, then one branch of the write or of START each. -/
theorem hostKeepsOffRunningDecodes : Obligations.HostKeepsOffRunningDecodes := by
  intro s a v hm ha kept
  have hk : kept ↔ KeptFromHost s a := by
    simp only [kept, KeptFromHost, inSegment_iff, inOutput_iff]
  refine ⟨fun h => hostMemWrite_of_kept ha (hk.1 h) v, fun h => ?_, fun hrest hclash => ?_⟩
  · exact ⟨_, hostMemWrite_of_not_kept ha (mt hk.2 h) v, rfl, fun x => read_write hm a v x⟩
  · change execStart s = _
    rw [execStart, hrest, hclash, if_neg Bool.false_ne_true, if_pos rfl]

/-- Settles O40: the read looks for a running decode whose output region holds the address; where
there is one, the draw chooses between the byte now and the byte at its START. -/
theorem hostSeesBeforeOrNow : Obligations.HostSeesBeforeOrNow := by
  intro s a ha
  change ∃ t, hostMemRead a s = .next t ∧ _
  rw [hostMemRead, if_neg (Nat.not_le.2 ha)]
  cases hf : s.instances.find? fun b => b.isBusy && inOutput s b a with
  | none => exact ⟨_, rfl, rfl, fun _ => rfl, .inl rfl⟩
  | some b =>
    have hmem := List.mem_of_find?_eq_some hf
    have hfound := List.find?_some hf
    obtain ⟨hbusy, hout⟩ : b.isBusy = true ∧ inOutput s b a = true := by
      simpa only [Bool.and_eq_true] using hfound
    refine ⟨_, rfl, rfl, fun hnone => ?_, ?_⟩
    · rw [hnone b hmem hbusy] at hout
      cases hout
    · cases Config.freeSeen s.draws
      · exact .inr ⟨b, hmem, hbusy, hout, rfl⟩
      · exact .inl rfl

end Sys2Proof.Machine
end

section
/-! PROOF. Running decodes stay apart (20_memory.md R80): what a decode writes lies in its own output
region, so no other running decode's regions, which its segment's bytes declare, ever move. -/

namespace Sys2Proof.Machine

/-! ## The us a decode has latched -/

/-- The sub-phases after SIZES, in which UNCOMP_SIZE holds us (41_segment_framing.md R146). -/
def Block.pastSizes (b : Block) : Prop :=
  b.phase = .busy .frame ∨ b.phase = .busy .alloc ∨ b.pastAlloc

theorem latchedUs_iff {m : Memory} {b : Block} :
    LatchedUs m b ↔ (b.pastSizes → b.us = declaredUs m b) := by
  unfold LatchedUs Block.pastSizes Block.pastAlloc
  cases b.phase with
  | busy sub => cases sub <;> simp
  | _ => simp

theorem Block.pastAlloc.isBusy {b : Block} (h : b.pastAlloc) : b.isBusy = true := by
  unfold Block.isBusy
  rcases h with ⟨i, h⟩ | h | h | h | h <;> rw [h] <;> rfl

theorem Block.pastSizes.isBusy {b : Block} (h : b.pastSizes) : b.isBusy = true := by
  rcases h with h | h | h
  · rw [Block.isBusy, h]; rfl
  · rw [Block.isBusy, h]; rfl
  · exact h.isBusy

theorem BlockInv.prechecked {c : Config} {b : Block} (h : BlockInv c b) (hp : b.pastSizes) :
    Prechecked c b := by
  rcases hp with hp | hp | hp
  · exact (h.busy _ hp).1
  · exact (h.busy _ hp).1.toPrechecked
  · exact (h.allocated hp).toPrechecked

theorem LatchedUs.of_not_isBusy {m : Memory} {b : Block} (h : b.isBusy = false) : LatchedUs m b :=
  latchedUs_iff.2 fun hp => by rw [hp.isBusy] at h; cases h

theorem LatchedUs.us_eq {m : Memory} {b : Block} (h : LatchedUs m b) (hp : b.pastAlloc) :
    b.us = declaredUs m b := latchedUs_iff.1 h (.inr (.inr hp))

/-- us is read from the segment. -/
theorem declaredUs_congr {m m' : Memory} {b : Block} (hl : 12 ≤ b.segSize)
    (hm : ∀ a, inSegment b a = true → m'.read a = m.read a) : declaredUs m' b = declaredUs m b := by
  have byte (k : Nat) (hk : k < 12) : m'.read (b.segStart + k) = m.read (b.segStart + k) :=
    hm _ (inSegment_iff.2 ⟨by omega, by omega⟩)
  unfold declaredUs
  rw [byte 8 (by omega), byte 9 (by omega), byte 10 (by omega), byte 11 (by omega)]

theorem LatchedUs.congr {c : Config} {m m' : Memory} {b : Block} (h : LatchedUs m b)
    (hb : BlockInv c b) (hm : b.isBusy = true → ∀ a, inSegment b a = true → m'.read a = m.read a) :
    LatchedUs m' b :=
  latchedUs_iff.2 fun hp => by
    have hlong := (hb.prechecked hp).long
    rw [declaredUs_congr (by omega) (hm hp.isBusy)]
    exact latchedUs_iff.1 h hp

theorem le32_lt (b0 b1 b2 b3 : Byte) : le32 b0 b1 b2 b3 < 2 ^ 32 := by
  have h0 := b0.isLt
  have h1 := b1.isLt
  have h2 := b2.isLt
  have h3 := b3.isLt
  unfold le32
  omega

/-- SIZES latches the us the segment declares, or raises (41_segment_framing.md R146). -/
theorem stepSizes_latchedUs (s : State) : LatchedUs s.mem (stepSizes s).blk := by
  unfold stepSizes
  rcases srcReads_cases 4 (s.blk.segStart + 8) s with ⟨_, h⟩ | ⟨i, _, _, _, h⟩
  · rw [h, bind_ok]
    rcases srcReads_cases 4 (s.blk.segStart + 12) s with ⟨_, h⟩ | ⟨i, _, _, _, h⟩
    · rw [h]
      exact latchedUs_iff.2 fun _ => ofNat_toNat_of_lt (le32_lt _ _ _ _)
    · rw [h]
      exact .of_not_isBusy rfl
  · rw [h]
    exact .of_not_isBusy rfl

/-- Only SIZES brings a decode past SIZES, and no later turn changes UNCOMP_SIZE. -/
theorem Turn.pastSizes {s t : State} (T : Turn s t) (hn : s.blk.phase ≠ .busy .sizes)
    (hp : t.blk.pastSizes) : s.blk.pastSizes ∧ t.blk.us = s.blk.us := by
  have loop (h : s.blk.inLoop) : s.blk.pastSizes := .inr (.inr (.inr (.inr h)))
  cases T with
  | stay => exact ⟨hp, rfl⟩
  | error | done | litError | brefError | lengthError => cases hp.isBusy
  | fetchError _ _ ht =>
    obtain ⟨c, l, e, info, _, rfl⟩ := ht.state
    cases hp.isBusy
  | pre | sig => simp [Block.pastSizes, Block.pastAlloc] at hp
  | sizes h => exact absurd h hn
  | frame h => exact ⟨.inl h, rfl⟩
  | alloc h => exact ⟨.inr (.inl h), rfl⟩
  | hdr i h => exact ⟨.inr (.inr (.inl ⟨i, h⟩)), rfl⟩
  | init h => exact ⟨.inr (.inr (.inr (.inl h))), rfl⟩
  | lit h | bref h => exact ⟨loop (.inl h), rfl⟩
  | length h _ _ _ hx =>
    obtain ⟨c, l, rfl⟩ := hx.state
    exact ⟨loop (.inr (.inl h)), rfl⟩
  | copyNone h => exact ⟨loop (.inr (.inr h)), rfl⟩
  | copy h _ _ _ t ht =>
    subst ht
    exact ⟨loop (.inr (.inr h)), by split <;> rfl⟩

/-- A turn keeps what a decode has latched. -/
theorem blockTurn_latchedUs {s t : State} (h : blockTurn s = .next t) (hl : LatchedUs t.mem s.blk)
    (hm : s.blk.phase = .busy .sizes → t.mem = s.mem) : LatchedUs t.mem t.blk := by
  have T := turn_of_blockTurn h
  by_cases hn : s.blk.phase = .busy .sizes
  · simp only [blockTurn, hn] at h
    obtain rfl := Host.Outcome.next.inj h
    rw [hm hn]
    exact stepSizes_latchedUs s
  · refine latchedUs_iff.2 fun hp => ?_
    obtain ⟨hp, hus⟩ := T.pastSizes hn hp
    rw [hus, latchedUs_iff.1 hl hp]
    simp only [declaredUs, Block.segStart, T.sameSetup.srcBase]

/-! ## Changes that keep running decodes apart -/

/-- An instance's regions rest on its configuration. -/
theorem regionsClash_of_sameSetup {s : State} {b b' : Block} (k : SameSetup b b') (c : Block) :
    regionsClash s b' c = regionsClash s b c := by
  refine regionsClash_congr ?_ ?_ rfl rfl
  · simp only [segmentRange, Block.segStart, Block.segSize, k.srcBase, k.segLen]
  · rw [outputRange, outputRange, k.dstBase, declaredOutSize_congr rfl k.srcBase k.segLen fun _ _ => rfl]

/-- Whether running decodes are apart rests on the parameters, the instances and memory. -/
theorem RunningApart.of_eq {s t : State} (h : RunningApart s) (hc : t.cfg = s.cfg)
    (hi : t.instances = s.instances) (hm : t.mem = s.mem) : RunningApart t := by
  obtain ⟨hapart, hlatched⟩ := h
  constructor
  · simpa only [hi, regionsClash, outputRange, declaredOutSize, hc, hm] using hapart
  · simpa only [hi, hm] using hlatched

/-- The selected decode and another running one do not clash. -/
theorem RunningApart.selected {s : State} (h : RunningApart s) {c : Block} (hc : c ∈ s.parked)
    (hb : s.blk.isBusy = true) (hbusy : c.isBusy = true) : regionsClash s s.blk c = false :=
  (List.pairwise_cons.1 h.apart).1 c hc hb hbusy

/-- Memory changes outside the segments of running decodes. -/
theorem RunningApart.setMem {s : State} (h : RunningApart s) (hs : s.Inv) {m : Memory}
    (hm : ∀ b ∈ s.instances, b.isBusy = true → ∀ a, inSegment b a = true → m.read a = s.mem.read a) :
    RunningApart (s.setMem m) := by
  obtain ⟨hapart, hlatched⟩ := h
  have range (b : Block) (hb : b ∈ s.instances) (hbusy : b.isBusy = true) :
      outputRange (s.setMem m) b = outputRange s b :=
    congrArg (b.dstBase.toNat, ·) (declaredOutSize_congr rfl rfl rfl (hm b hb hbusy))
  refine ⟨hapart.imp_of_mem fun hb hc hclash hb' hc' => ?_, fun b hb => ?_⟩
  · rw [regionsClash_congr rfl (range _ hb hb') rfl (range _ hc hc')]
    exact hclash hb' hc'
  · exact (hlatched b hb).congr (((State.inv_iff s).1 hs).2.1 b hb) (hm b hb)

/-- The selected instance changes, and clashes with no running decode where it runs. -/
theorem RunningApart.setBlk {s : State} (h : RunningApart s) {b : Block} (hl : LatchedUs s.mem b)
    (hb : b.isBusy = true → ∀ c ∈ s.parked, c.isBusy = true → regionsClash s b c = false) :
    RunningApart (s.setBlk b) := by
  obtain ⟨hapart, hlatched⟩ := h
  exact ⟨List.pairwise_cons.2 ⟨fun c hc hb' => hb hb' c hc, (List.pairwise_cons.1 hapart).2⟩,
    List.forall_mem_cons.2 ⟨hl, (List.forall_mem_cons.1 hlatched).2⟩⟩

/-- An instance at rest clashes with none. -/
theorem RunningApart.setBlk_of_not_isBusy {s : State} (h : RunningApart s) {b : Block}
    (hb : b.isBusy = false) : RunningApart (s.setBlk b) :=
  h.setBlk (.of_not_isBusy hb) fun hbusy => by rw [hb] at hbusy; cases hbusy

/-! ## What the selected decode writes -/

/-- A decode past ALLOC writes in the region the host duties give it. -/
theorem RunningApart.inOutput_outAddr {s : State} (h : RunningApart s) (hs : s.Inv)
    (hp : s.blk.pastAlloc) {i : Nat} (hi : i < s.blk.outSize) :
    inOutput s s.blk (s.blk.outAddr i) = true := by
  obtain ⟨hlong, hfits⟩ := (hs.blk.allocated hp).toPrechecked
  have hus := (h.latched s.blk List.mem_cons_self).us_eq hp
  unfold Block.outSize at hi
  rw [inOutput_iff, ← hus]
  unfold Block.outAddr
  omega

/-- So it writes in no region of another running decode. -/
theorem RunningApart.ne_outAddr_of_parked {s : State} (h : RunningApart s) (hs : s.Inv)
    (hp : s.blk.pastAlloc) {i : Nat} (hi : i < s.blk.outSize) {b : Block} (hb : b ∈ s.parked)
    (hbusy : b.isBusy = true) {a : Nat} (ha : inSegment b a = true ∨ inOutput s b a = true) :
    a ≠ s.blk.outAddr i := by
  rintro rfl
  obtain ⟨hseg, hout⟩ := outside_of_not_regionsClash (h.selected hb hp.isBusy hbusy)
    (h.inOutput_outAddr hs hp hi)
  rw [hseg, hout] at ha
  exact ha.elim Bool.false_ne_true Bool.false_ne_true

/-- Nor in its own segment. -/
theorem RunningApart.ne_outAddr_of_inSegment {s : State} (h : RunningApart s) (hs : s.Inv)
    (hp : s.blk.pastAlloc) {i : Nat} (hi : i < s.blk.outSize) {b : Block} (hb : b ∈ s.instances)
    (hbusy : b.isBusy = true) {a : Nat} (ha : inSegment b a = true) : a ≠ s.blk.outAddr i := by
  rcases List.mem_cons.1 hb with rfl | hb
  · obtain ⟨hge, hlt⟩ := inSegment_iff.1 ha
    exact segment_ne_outAddr (hs.blk.allocated hp) hge hlt hi
  · exact h.ne_outAddr_of_parked hs hp hi hb hbusy (.inl ha)

/-! ## The events -/

theorem blockTurn_apart {s t : State} (hs : s.Inv) (h : RunningApart s) (ht : blockTurn s = .next t) :
    RunningApart t := by
  have T := turn_of_blockTurn ht
  obtain ⟨hcfg, hparked, _⟩ := T.rest
  have hmem : RunningApart (s.setMem t.mem) := h.setMem hs fun b hb hbusy a ha =>
    T.read_eq hs fun hp i hi => h.ne_outAddr_of_inSegment hs hp hi hb hbusy ha
  have hblk : RunningApart ((s.setMem t.mem).setBlk t.blk) := by
    refine hmem.setBlk ?_ fun hbusy c hc hc' => ?_
    · refine blockTurn_latchedUs ht (hmem.latched s.blk List.mem_cons_self) fun hp => ?_
      rcases T.mem_cases hs.blk with e | ⟨hpast, _⟩
      · exact e
      · simp [Block.pastAlloc, hp] at hpast
    · have hb : s.blk.isBusy = true := by
        by_contra hn
        rw [T.eq_of_not_busy (eq_false_of_ne_true hn)] at hbusy
        exact hn hbusy
      rw [regionsClash_of_sameSetup T.sameSetup]
      exact hmem.selected hc hb hc'
  exact hblk.of_eq hcfg (by simp only [State.instances, hparked, setBlk_blk, setBlk_parked, setMem_parked])
    rfl

theorem execStart_apart {s t : State} (h : RunningApart s) (ht : execStart s = .next t) :
    RunningApart t := by
  rcases execStart_eq_next ht with rfl | ⟨hclash, rfl⟩
  · exact h
  · have hstart : RunningApart (s.setBlk (acceptStart s).blk) :=
      h.setBlk trivial fun _ c hc hbusy => by
        have hclear := List.any_eq_false.1 hclash c hc
        rw [hbusy, Bool.true_and] at hclear
        exact eq_false_of_ne_true hclear
    exact hstart.of_eq rfl rfl rfl

theorem configWrite_apart {s : State} (h : RunningApart s) {b : Block} (hb : b.phase = s.blk.phase) :
    RunningApart (configWrite b s) := by
  unfold configWrite
  split
  · exact h
  · exact h.setBlk_of_not_isBusy (by rw [Block.isBusy, hb]; exact eq_false_of_ne_true ‹_›)

theorem writeSlot_apart {slot : Slot} {v : Word} {s t : State} (h : RunningApart s)
    (ht : writeSlot slot v s = .next t) : RunningApart t := by
  rcases writeSlot_cases slot v s with e | e | ⟨b, e, hb⟩
  · exact execStart_apart h (e.symm.trans ht)
  · cases e.symm.trans ht
    exact h
  · cases e.symm.trans ht
    exact configWrite_apart h (by rw [hb])

theorem hostMemWrite_apart {a : Nat} {v : Byte} {s t : State} (hs : s.Inv) (h : RunningApart s)
    (ht : hostMemWrite a v s = .next t) : RunningApart t := by
  obtain ⟨hkept, rfl⟩ := hostMemWrite_eq_next ht
  refine h.setMem hs fun b hb hbusy x hx => read_write_other hs.mem v ?_
  rintro rfl
  exact hkept ⟨b, hb, hbusy, .inl hx⟩

theorem selectInstance_apart (k : Nat) {s : State} (h : RunningApart s) :
    RunningApart (selectInstance k s) := by
  have hperm := selectInstance_perm k s
  obtain ⟨hapart, hlatched⟩ := h
  have hsymm : ∀ {b c : Block},
      (b.isBusy = true → c.isBusy = true → regionsClash s b c = false) →
      c.isBusy = true → b.isBusy = true → regionsClash s c b = false :=
    fun hbc hc hb => regionsClash_comm s _ _ ▸ hbc hb hc
  have hs : RunningApart { s with
      blk := (selectInstance k s).blk, parked := (selectInstance k s).parked } :=
    ⟨(hperm.pairwise_iff hsymm).2 hapart, fun b hb => hlatched b (hperm.mem_iff.1 hb)⟩
  exact hs.of_eq (selectInstance_cfg k s) rfl (selectInstance_mem k s)

/-! ## Reset -/

theorem writeIndex_lt (b : Block) (k : Nat) : writeIndex b k < b.outSize := by
  unfold writeIndex Block.outSize Block.top
  split <;> omega

/-- A running decode that has written is past ALLOC. -/
theorem pastAlloc_of_writesMade {b : Block} (hb : b.isBusy = true) (h : 0 < writesMade b) :
    b.pastAlloc := by
  unfold Block.isBusy at hb
  unfold writesMade at h
  unfold Block.pastAlloc
  cases hp : b.phase with
  | busy sub => cases sub <;> simp_all
  | _ => rw [hp] at hb; cases hb

/-- Undoing writes touches output bytes only. -/
theorem undoWrites_read {b : Block} {m : Memory} (hm : m.wf) {a : Nat}
    (ha : ∀ i, i < b.outSize → a ≠ b.outAddr i) (w n : Nat) :
    (undoWrites b m w n).read a = m.read a := by
  induction n with
  | zero => rfl
  | succ n ih =>
    rw [undoWrites, read_write_other (undoWrites_wf b w n hm) _ (ha _ (writeIndex_lt b _)), ih]

theorem runWrites_apart (fuel target : Nat) {s : State} (hs : s.Inv) (h : RunningApart s) :
    RunningApart (runWrites fuel target s) ∧ (runWrites fuel target s).cfg = s.cfg ∧
      (runWrites fuel target s).parked = s.parked := by
  induction fuel generalizing s with
  | zero => exact ⟨h, rfl, rfl⟩
  | succ fuel ih =>
    unfold runWrites
    split
    · split
      · rename_i t ht
        obtain ⟨hcfg, hparked, _⟩ := (turn_of_blockTurn ht).rest
        obtain ⟨hu, hucfg, huparked⟩ := ih (blockTurn_inv hs ht) (blockTurn_apart hs h ht)
        exact ⟨hu, hucfg.trans hcfg, huparked.trans hparked⟩
      · exact ⟨h, rfl, rfl⟩
      · exact ⟨h, rfl, rfl⟩
    · exact ⟨h, rfl, rfl⟩

/-- The memory a reset leaves is that of a machine with the same other instances, all apart. -/
theorem memAfterReset_apart (m : Nat) {s : State} (hs : s.Inv) (h : RunningApart s) :
    ∃ u, RunningApart u ∧ u.cfg = s.cfg ∧ u.parked = s.parked ∧ u.mem = memAfterReset m s := by
  unfold memAfterReset
  split
  · rename_i hb
    split
    · refine ⟨s.setMem (undoWrites s.blk s.mem (writesMade s.blk) (writesMade s.blk - m)),
        h.setMem hs fun b hbi hbusy a ha => ?_, rfl, rfl, rfl⟩
      by_cases hw : 0 < writesMade s.blk
      · exact undoWrites_read hs.mem (fun i hi => h.ne_outAddr_of_inSegment hs
          (pastAlloc_of_writesMade hb hw) hi hbi hbusy ha) _ _
      · rw [show writesMade s.blk - m = 0 by omega]
        rfl
    · obtain ⟨hu, hcfg, hparked⟩ := runWrites_apart (4 * (m - writesMade s.blk) + 16) m hs h
      exact ⟨_, hu, hcfg, hparked, rfl⟩
  · exact ⟨s, h, rfl, rfl, rfl⟩

theorem resetInstance_apart {s : State} (hs : s.Inv) (h : RunningApart s) :
    RunningApart (resetInstance s) := by
  obtain ⟨u, hu, hcfg, hparked, hmem⟩ := memAfterReset_apart (Config.freeCut s.draws) hs h
  have hreset : RunningApart (u.setBlk (resetInstance s).blk) := hu.setBlk_of_not_isBusy rfl
  exact hreset.of_eq hcfg.symm (congrArg (_ :: ·) hparked.symm) hmem.symm

/-- Settles O59: each event keeps running decodes apart, together with the invariant; what a turn writes
lies in the selected decode's output region, which meets no region of another running decode. -/
theorem runningDecodesStayApart : Obligations.RunningDecodesStayApart := by
  refine ⟨fun s t hs h ht => ?_, fun s t hs h _ ht b hb hbusy a ha => ?_, ?_⟩
  · exact (step_keeps (P := fun s => s.Inv ∧ RunningApart s)
      (inbox := fun _ _ ⟨hs, h⟩ => ⟨⟨hs.legal, hs.blk, hs.parked, hs.mem⟩, h.apart, h.latched⟩)
      (turn := fun _ _ ⟨hs, h⟩ ht => ⟨blockTurn_inv hs ht, blockTurn_apart hs h ht⟩)
      (slot := fun _ _ _ _ ⟨hs, h⟩ ht => ⟨writeSlot_inv hs ht, writeSlot_apart h ht⟩)
      (read := fun _ _ _ ⟨hs, h⟩ => ⟨⟨hs.legal, hs.blk, hs.parked, hs.mem⟩, h.apart, h.latched⟩)
      (write := fun _ _ _ _ ⟨hs, h⟩ ht => ⟨hostMemWrite_inv hs ht, hostMemWrite_apart hs h ht⟩)
      (reset := fun _ ⟨hs, h⟩ => ⟨resetInstance_inv hs, resetInstance_apart hs h⟩)
      (select := fun k _ ⟨hs, h⟩ => ⟨selectInstance_inv k hs, selectInstance_apart k h⟩)
      ⟨hs, h⟩ ht).2
  · exact (turn_of_blockTurn ht).read_eq hs fun hp i hi => h.ne_outAddr_of_parked hs hp hi hb hbusy ha
  · exact ⟨List.pairwise_singleton _ _, fun b hb => by cases List.mem_singleton.1 hb; trivial⟩

end Sys2Proof.Machine
end

section
/-! PROOF. What the output buffer held before START never matters (20_memory.md R72): of two machines
that differ only in output bytes not yet written, a turn reads none of those bytes, so both take the same
turn. -/

namespace Sys2Proof.Machine

/-! ## Which output bytes are stale -/

theorem stale_inLoop {b : Block} (h : b.inLoop) {i : Nat} : Stale b i ↔ 0x100 ≤ i ∧ i ≤ b.dst := by
  unfold Stale
  rcases h with h | h | h <;> simp only [h]

theorem stale_of_error {b : Block} (h : b.phase = .error) (i : Nat) : Stale b i := by
  simp only [Stale, h]

theorem stale_afterHdr {b : Block} {i : Fin 256} (h : b.phase = .busy (afterHdr i)) {j : Nat} :
    Stale b j ↔ i.val < j := by
  unfold afterHdr at h
  split at h
  · rename_i hi
    simp only [Stale, h, hi]
    exact Iff.rfl
  · simp only [Stale, h]
    have hi : (i + 1).val = i.val + 1 := by omega
    rw [hi]
    exact Iff.rfl

/-! ## The other machine -/

/-- `o` with the parameters, the registers and the draws of `s`: its own are only memory, `before`, the
parked instances, and what the host's side holds. -/
def State.over (s o : State) : State :=
  { o with cfg := s.cfg, blk := { s.blk with before := o.blk.before }, draws := s.draws }

theorem SameButStale.eq_over {s o : State} (h : SameButStale s o) : o = s.over o := by
  have hblk : { s.blk with before := o.blk.before } = o.blk := by rw [← h.blk]
  rw [State.over, hblk, ← h.cfg, ← h.draws]

theorem SameButStale.of_over {t o : State}
    (h : ∀ a, (∀ i, i < t.blk.outSize → Stale t.blk i → a ≠ t.blk.outAddr i) →
      o.mem.read a = t.mem.read a) : SameButStale t (t.over o) := ⟨rfl, rfl, rfl, h⟩

/-- A change that writes no memory, after which no stale byte counts as written. -/
theorem SameButStale.keep {s t o : State} (h : SameButStale s (s.over o)) (hm : t.mem = s.mem)
    (hd : t.blk.dstBase = s.blk.dstBase) (hu : t.blk.uncompSize = s.blk.uncompSize)
    (hst : ∀ i, i < s.blk.outSize → Stale s.blk i → Stale t.blk i) : SameButStale t (t.over o) := by
  refine .of_over fun a ha => hm ▸ h.mem a fun i hi hs => ?_
  have hne := ha i (by simpa only [Block.outSize, Block.us, hu] using hi) (hst i hi hs)
  simpa only [Block.outAddr, hd] using hne

/-- A change that writes the same output byte in both, after which no other stale byte counts as
written. -/
theorem SameButStale.write {s t o : State} (h : SameButStale s (s.over o)) (hms : s.mem.wf)
    (hmo : o.mem.wf) {i : Nat} {v : Byte} (hm : t.mem = s.mem.write (s.blk.outAddr i) v)
    (hd : t.blk.dstBase = s.blk.dstBase) (hu : t.blk.uncompSize = s.blk.uncompSize)
    (hst : ∀ j, j < s.blk.outSize → Stale s.blk j → j ≠ i → Stale t.blk j) :
    SameButStale t (t.over (o.setMem (o.mem.write (s.blk.outAddr i) v))) := by
  refine .of_over fun a ha => ?_
  rw [hm, setMem_mem, read_write hms, read_write hmo]
  split
  · rfl
  · rename_i hne
    refine h.mem a fun j hj hs => ?_
    by_cases hji : j = i
    · rwa [hji]
    · have hne := ha j (by simpa only [Block.outSize, Block.us, hu] using hj) (hst j hj hs hji)
      simpa only [Block.outAddr, hd] using hne

/-- After an error entry every output byte is stale (60_exceptions.md R237). -/
theorem SameButStale.raise {s o : State} (h : SameButStale s (s.over o)) (e : ErrCode) (info : Nat) :
    SameButStale (raise e info s) ((raise e info s).over o) :=
  h.keep rfl rfl rfl fun i _ _ => stale_of_error rfl i

/-- The segment holds the same bytes in both. -/
theorem SameButStale.segment {s o : State} (h : SameButStale s o) (ha : Allocated s.cfg s.blk) {a : Nat}
    (hge : s.blk.segStart ≤ a) (hlt : a < s.blk.segStart + s.blk.segSize) :
    o.mem.read a = s.mem.read a :=
  h.mem a fun _ hi _ => segment_ne_outAddr ha hge hlt hi

/-! ## Reads and writes in both machines -/

section
variable {Q : State → State → Prop} {s o : State}

/-- A source byte that is the same in both. -/
theorem srcRead_over (hQ : ∀ e n, Q (raise e n s) ((raise e n s).over o)) {a : Nat}
    (h : o.mem.read a = s.mem.read a) :
    Agree (fun x y => x = s ∧ y = s.over o) Q (srcRead a s) (srcRead a (s.over o)) := by
  rcases srcRead_cases a s with ⟨hacc, e⟩ | ⟨hacc, e⟩
  · rw [e, show srcRead a (s.over o) = .ok (o.mem.read a) (s.over o) from if_pos hacc]
    exact ⟨h.symm, rfl, rfl⟩
  · rw [e, show srcRead a (s.over o) = .raised ((raise .sourceReadFailure a s).over o) from
      if_neg (Bool.eq_false_iff.1 hacc)]
    exact hQ _ _

/-- An output byte that is the same in both. -/
theorem outRead_over (hQ : ∀ e n, Q (raise e n s) ((raise e n s).over o)) {i : Nat}
    (h : o.mem.read (s.blk.outAddr i) = s.mem.read (s.blk.outAddr i)) :
    Agree (fun x y => x = s ∧ y = s.over o) Q (outRead i s) (outRead i (s.over o)) := by
  rcases outRead_cases i s with ⟨hacc, e⟩ | ⟨hacc, e⟩
  · rw [e, show outRead i (s.over o) = .ok (o.mem.read (s.blk.outAddr i)) (s.over o) from if_pos hacc]
    exact ⟨h.symm, rfl, rfl⟩
  · rw [e, show outRead i (s.over o) =
      .raised ((raise .outputAccessFailure (s.blk.outAddr i) s).over o) from
      if_neg (Bool.eq_false_iff.1 hacc)]
    exact hQ _ _

theorem outWrite_over (hQ : ∀ e n, Q (raise e n s) ((raise e n s).over o)) (i : Nat) (v : Byte) :
    Agree (fun x y => x = s.setMem (s.mem.write (s.blk.outAddr i) v) ∧
        y = x.over (o.setMem (o.mem.write (s.blk.outAddr i) v))) Q
      (outWrite i v s) (outWrite i v (s.over o)) := by
  rcases outWrite_cases i v s with ⟨hacc, e⟩ | ⟨hacc, e⟩
  · rw [e, show outWrite i v (s.over o) =
      .ok () ((s.over o).setMem (o.mem.write (s.blk.outAddr i) v)) from if_pos hacc]
    exact ⟨rfl, rfl, rfl⟩
  · rw [e, show outWrite i v (s.over o) =
      .raised ((raise .outputAccessFailure (s.blk.outAddr i) s).over o) from
      if_neg (Bool.eq_false_iff.1 hacc)]
    exact hQ _ _

/-- What holds of two steps that end alike, well or in an error, holds of the states they leave. -/
theorem finalState_agree {r r' : Res State Unit} (h : Agree Q Q r r') :
    Q (finalState r) (finalState r') := by
  cases r with
  | ok u x =>
    cases r' with
    | ok u' y => exact h.2
    | raised y => exact h.elim
  | raised x =>
    cases r' with
    | ok u' y => exact h.elim
    | raised y => exact h

end

/-! ## The bit reader in both machines -/

/-- `y` is `x` over `o`, with the cursor of both in range of a payload that is the same in both. -/
structure OnSamePayload (o x y : State) : Prop where
  eq : y = x.over o
  inRange : CursorInRange x.blk
  payload : ∀ a, x.blk.payloadStart ≤ a → a ≤ x.blk.payloadEnd → o.mem.read a = x.mem.read a

/-- The two fetches end alike: with the same value on the same payload, or in the same error. -/
abbrev SameFetch {α : Type} (o : State) (r r' : Res State α) : Prop :=
  Agree (OnSamePayload o) (fun x y => y = x.over o) r r'

/-- What is known of a reading that ended well may go into how the two relate. -/
theorem agree_of_ok {α : Type} {R R' Q : State → State → Prop} {r r' : Res State α}
    (h : Agree R Q r r') (hR : ∀ a x y, r = .ok a x → R x y → R' x y) : Agree R' Q r r' := by
  cases r with
  | ok a x =>
    cases r' with
    | ok b y => exact ⟨h.1, hR a x y rfl h.2⟩
    | raised y => exact h.elim
  | raised x =>
    cases r' with
    | ok b y => exact h.elim
    | raised y => exact h

variable {o : State}

theorem fillPool_of_bits {s : State} (h : s.blk.cursor.bitsLeft ≠ 0) : fillPool s = .ok () s :=
  if_neg h

theorem fillPool_of_underflow {s : State} (h : s.blk.cursor.bitsLeft = 0)
    (hlt : s.blk.cursor.offset.toNat < s.blk.payloadStart) :
    fillPool s = .raised (raise .sourceUnderflow s.blk.cursor.offset.toNat s) := by
  rw [fillPool, if_pos h, if_pos hlt]

theorem fillPool_of_fetch {s : State} (h : s.blk.cursor.bitsLeft = 0)
    (hlt : ¬ s.blk.cursor.offset.toNat < s.blk.payloadStart) :
    fillPool s = (srcRead s.blk.cursor.offset.toNat s).bind fun b s =>
      .ok () (s.setCursor { offset := s.blk.cursor.offset - 1, pool := b, bitsLeft := 8 }) := by
  rw [fillPool, if_pos h, if_neg hlt]

theorem fillPool_over {x y : State} (h : OnSamePayload o x y) :
    SameFetch o (fillPool x) (fillPool y) := by
  obtain ⟨rfl, hr, hp⟩ := h
  have hsame : Agree (fun z w => w = z.over o) (fun z w => w = z.over o)
      (fillPool x) (fillPool (x.over o)) := by
    by_cases h0 : x.blk.cursor.bitsLeft = 0
    · by_cases hlt : x.blk.cursor.offset.toNat < x.blk.payloadStart
      · rw [fillPool_of_underflow h0 hlt, fillPool_of_underflow (s := x.over o) h0 hlt]
        exact rfl
      · rw [fillPool_of_fetch h0 hlt, fillPool_of_fetch (s := x.over o) h0 hlt]
        refine agree_bind (srcRead_over (Q := fun z w => w = z.over o) (fun _ _ => rfl)
          (hp _ (Nat.not_lt.1 hlt) hr.below)) ?_
        rintro b _ _ - - ⟨rfl, rfl⟩
        exact ⟨rfl, rfl⟩
    · rw [fillPool_of_bits h0, fillPool_of_bits (s := x.over o) h0]
      exact ⟨rfl, rfl⟩
  refine agree_of_ok hsame fun _ z w hz hw => ⟨hw, (inRange_fill hr hz).1, ?_⟩
  rcases fillPool_ok hz with ⟨_, rfl⟩ | ⟨_, _, _, rfl⟩
  · exact hp
  · exact hp

theorem readBitsLoop_over (fuel need acc : Nat) {x y : State} (h : OnSamePayload o x y) :
    SameFetch o (readBitsLoop fuel need acc x) (readBitsLoop fuel need acc y) := by
  induction fuel generalizing need acc x y with
  | zero => exact ⟨rfl, h⟩
  | succ fuel ih =>
    unfold readBitsLoop
    split
    · exact ⟨rfl, h⟩
    · refine agree_bind (fillPool_over h) ?_
      rintro _ x _ - - ⟨rfl, hr, hp⟩
      exact ih _ _ ⟨rfl, (inRange_drop hr (Nat.min_le_left _ _)).1, hp⟩

theorem readBits_over (n : Nat) (x y : State) (h : OnSamePayload o x y) :
    SameFetch o (readBits n x) (readBits n y) := readBitsLoop_over n n 0 h

theorem fetchToken_over {x y : State} (h : OnSamePayload o x y) :
    SameFetch o (fetchToken x) (fetchToken y) :=
  decodeToken_agree readBits_over h

theorem OnSamePayload.setLatches {x y : State} (h : OnSamePayload o x y) (l : Latches) :
    OnSamePayload o (x.setLatches l) (y.setLatches l) := by
  obtain ⟨rfl, ⟨ha, hb, hf⟩, hp⟩ := h
  exact ⟨rfl, ⟨ha, hb, hf⟩, hp⟩

theorem fetchLength_over {x y : State} (h : OnSamePayload o x y) :
    SameFetch o (fetchLength x) (fetchLength y) := by
  have hnote (l : Fin 5) (v : Nat) (x y : State) (h : OnSamePayload o x y) :
      OnSamePayload o (noteGroup l v x) (noteGroup l v y) := by
    obtain rfl := h.eq
    exact h.setLatches _
  obtain rfl := h.eq
  exact decodeLength_same readBits_over hnote (fun _ _ h => h.eq) _ (h.setLatches _)

/-- In the token loop both machines stand on the same payload. -/
theorem SameButStale.onSamePayload {s : State} (h : SameButStale s (s.over o))
    (hl : InLoop s.cfg s.blk) : OnSamePayload o s (s.over o) :=
  ⟨rfl, hl.cursor, fun _ hge hle =>
    h.mem _ fun _ hi _ => payload_ne_outAddr hl.toAllocated hge hle hi⟩

/-! ## The steps in both machines -/

section
variable {s : State}

theorem stepHdr_over (h : SameButStale s (s.over o)) (hms : s.mem.wf) (hmo : o.mem.wf) {i : Fin 256}
    (hp : s.blk.phase = .busy (.hdr i)) (ha : Allocated s.cfg s.blk) :
    SameButStale (stepHdr i s) (stepHdr i (s.over o)) := by
  have hframing := ha.framing
  have hread : o.mem.read (s.blk.headerAddr i.val) = s.mem.read (s.blk.headerAddr i.val) :=
    h.segment ha (by unfold Block.headerAddr; omega) (by unfold Block.headerAddr; omega)
  refine finalState_agree (agree_bind (srcRead_over h.raise hread) ?_)
  rintro v s _ - - ⟨rfl, rfl⟩
  refine agree_bind (outWrite_over h.raise i.val v) ?_
  rintro _ _ _ - - ⟨rfl, rfl⟩
  refine ⟨rfl, h.write hms hmo rfl rfl rfl fun j _ hj hne => (stale_afterHdr rfl).2 ?_⟩
  simp only [Stale, hp] at hj
  omega

theorem stepInit_over (h : SameButStale s (s.over o)) (hp : s.blk.phase = .busy .init) :
    SameButStale (stepInit s) (stepInit (s.over o)) := by
  refine h.keep (t := stepInit s) rfl rfl rfl fun i hi hj => (stale_inLoop (.inl rfl)).2 ?_
  have hj : 0x100 ≤ i := by simpa only [Stale, hp] using hj
  refine ⟨hj, ?_⟩
  change i ≤ s.blk.top - 0
  unfold Block.outSize at hi
  unfold Block.top
  omega

/-- A change in the token loop, or an error in it, that produces nothing. -/
theorem SameButStale.inLoop {t : State} (h : SameButStale s (s.over o)) (hl : s.blk.inLoop)
    (hl' : t.blk.inLoop ∨ t.blk.phase = .error) (hm : t.mem = s.mem)
    (hd : t.blk.dstBase = s.blk.dstBase) (hu : t.blk.uncompSize = s.blk.uncompSize)
    (hn : t.blk.bytesOut = s.blk.bytesOut) : SameButStale t (t.over o) := by
  refine h.keep hm hd hu fun j _ hj => ?_
  rcases hl' with hl' | hp
  · rw [stale_inLoop hl] at hj
    rw [stale_inLoop hl']
    simpa only [Block.dst, Block.top, Block.us, hu, hn] using hj
  · exact stale_of_error hp j

/-- A change in the token loop that produces the byte at dst: dst moves down by one
(42_token_decode.md R173). -/
theorem SameButStale.produced {t : State} (h : SameButStale s (s.over o)) (hms : s.mem.wf)
    (hmo : o.mem.wf) (hl : s.blk.inLoop) (hl' : t.blk.inLoop) (hlt : s.blk.bytesOut.toNat < s.blk.us)
    {v : Byte} (hm : t.mem = s.mem.write (s.blk.outAddr s.blk.dst) v)
    (hd : t.blk.dstBase = s.blk.dstBase) (hu : t.blk.uncompSize = s.blk.uncompSize)
    (hn : t.blk.bytesOut = s.blk.bytesOut + 1) :
    SameButStale t (t.over (o.setMem (o.mem.write (s.blk.outAddr s.blk.dst) v))) := by
  refine h.write hms hmo hm hd hu fun j _ hj hne => ?_
  have hdst := dst_of_succ hlt hu hn
  rw [stale_inLoop hl] at hj
  rw [stale_inLoop hl']
  omega

theorem copyStep_over (h : SameButStale s (s.over o)) (hms : s.mem.wf) (hmo : o.mem.wf)
    (hb : BlockInv s.cfg s.blk) (hp : s.blk.phase = .busy .copy) :
    SameButStale (copyStep s) (copyStep (s.over o)) := by
  obtain ⟨_, hidx, _, hpos, _⟩ := hb.busy _ hp
  have hlt := hb.bytesOut_lt_of_copy hp
  have hl : s.blk.inLoop := .inr (.inr hp)
  have hread : o.mem.read (s.blk.outAddr s.blk.latches.brIdx) =
      s.mem.read (s.blk.outAddr s.blk.latches.brIdx) := by
    refine h.mem _ fun i _ hi => ?_
    obtain ⟨_, hle⟩ := (stale_inLoop hl).1 hi
    unfold Block.brIdxOf at hidx
    unfold Block.outAddr
    omega
  have hne : s.blk.latches.len ≠ 0 := Nat.ne_of_gt hpos
  rw [copyStep, if_neg hne, copyStep, if_neg (show (s.over o).blk.latches.len ≠ 0 from hne)]
  refine finalState_agree (agree_bind (outRead_over h.raise hread) ?_)
  rintro v s _ - - ⟨rfl, rfl⟩
  refine agree_bind (outWrite_over h.raise s.blk.dst v) ?_
  rintro _ _ _ - - ⟨rfl, rfl⟩
  refine ⟨rfl, ?_⟩
  by_cases hend : s.blk.latches.len - 1 = 0
  · rw [if_pos (by exact hend), if_pos (by exact hend)]
    exact h.produced hms hmo hl (.inl rfl) hlt rfl rfl rfl rfl
  · rw [if_neg (by exact hend), if_neg (by exact hend)]
    exact h.produced hms hmo hl (by exact hl) hlt rfl rfl rfl rfl

theorem execLit_over (h : SameButStale s (s.over o)) (hms : s.mem.wf) (hmo : o.mem.wf)
    (hp : s.blk.phase = .busy .token) (hlt : s.blk.bytesOut.toNat < s.blk.us) {v : BitVec 8}
    {t t' : State} (ht : exec (.lit v) s = .next t) (ht' : exec (.lit v) (s.over o) = .next t') :
    SameButStale t t' := by
  cases ht
  cases ht'
  refine finalState_agree (agree_bind (outWrite_over h.raise s.blk.dst v) ?_)
  rintro _ _ _ - - ⟨rfl, rfl⟩
  exact ⟨rfl, h.produced hms hmo (.inl hp) (.inl rfl) hlt rfl rfl rfl rfl⟩

theorem execBref_over (h : SameButStale s (s.over o)) (hp : s.blk.phase = .busy .token)
    {d : BitVec 13} {t t' : State} (ht : exec (.bref d) s = .next t)
    (ht' : exec (.bref d) (s.over o) = .next t') : SameButStale t t' := by
  change execBref d _ = _ at ht ht'
  by_cases hr : s.blk.top < s.blk.brIdxOf d
  · cases (execBref_of_lt hr).symm.trans ht
    cases (execBref_of_lt (s := s.over o) hr).symm.trans ht'
    exact h.inLoop (t := raise _ _ _) (.inl hp) (.inr rfl) rfl rfl rfl rfl
  · cases (execBref_of_not_lt hr).symm.trans ht
    cases (execBref_of_not_lt (s := s.over o) hr).symm.trans ht'
    exact h.inLoop (t := State.setPhase _ _) (.inl hp) (.inl (.inr (.inl rfl))) rfl rfl rfl rfl

theorem lengthDone_over (h : SameButStale s (s.over o)) (hl : s.blk.inLoop) (n : Nat) (lvl : Fin 5) :
    SameButStale (lengthDone n lvl s) (lengthDone n lvl (s.over o)) := by
  by_cases hr : s.blk.remaining < n
  · rw [lengthDone_of_lt hr, lengthDone_of_lt (s := s.over o) hr]
    exact h.inLoop (t := raise _ _ _) hl (.inr rfl) rfl rfl rfl rfl
  · rw [lengthDone_of_not_lt hr, lengthDone_of_not_lt (s := s.over o) hr]
    exact h.inLoop (t := State.setPhase _ _) hl (.inl (.inr (.inr rfl))) rfl rfl rfl rfl

/-- A fetch that ends well in one machine does so in the other. -/
theorem SameFetch.eq_ok {α : Type} {a : α} {x : State} {r : Res State α}
    (h : SameFetch o (.ok a x) r) : r = .ok a (x.over o) := by
  cases r with
  | ok b y =>
    obtain ⟨rfl, rfl, _, _⟩ := h
    rfl
  | raised y => exact h.elim

/-- A fetch that raises in one machine does so in the other. -/
theorem SameFetch.eq_raised {α : Type} {x : State} {r : Res State α}
    (h : SameFetch o (.raised x) r) : r = .raised (x.over o) := by
  cases r with
  | ok b y => exact h.elim
  | raised y => exact congrArg _ h

/-- A failed fetch. -/
theorem SameButStale.lengthFailed {t : State} (h : SameButStale s (s.over o)) (ht : LengthFailed s t) :
    SameButStale t (t.over o) := by
  obtain ⟨c, l, e, info, _, rfl⟩ := ht.state
  exact h.keep rfl rfl rfl fun i _ _ => stale_of_error rfl i

theorem tokenTurn_over (h : SameButStale s (s.over o)) (hms : s.mem.wf) (hmo : o.mem.wf)
    (hb : BlockInv s.cfg s.blk) (hp : s.blk.phase = .busy .token) {t t' : State}
    (ht : tokenTurn s = .next t) (ht' : tokenTurn (s.over o) = .next t') : SameButStale t t' := by
  have hl : s.blk.inLoop := .inl hp
  by_cases hlt : s.blk.bytesOut.toNat < s.blk.us
  · rw [tokenTurn, if_pos hlt] at ht
    rw [tokenTurn, if_pos (by exact hlt)] at ht'
    have hfetch := fetchToken_over (h.onSamePayload (hb.inLoop hl))
    rcases fetchToken_cases s with ⟨i, c, hf, hc⟩ | ⟨x, hf, hx⟩
    · rw [hf] at ht hfetch
      rw [hfetch.eq_ok] at ht'
      have hcur : SameButStale (s.setCursor c) ((s.setCursor c).over o) :=
        h.inLoop hl (.inl hl) rfl rfl rfl rfl
      have hpos := hc.position
      cases i with
      | lit v => exact execLit_over hcur hms hmo hp hlt ht ht'
      | bref d => exact execBref_over hcur hp ht ht'
      | _ => cases hpos
    · rw [hf] at ht hfetch
      rw [hfetch.eq_raised] at ht'
      cases ht
      cases ht'
      exact h.lengthFailed hx.lengthFailed
  · rw [tokenTurn, if_neg hlt] at ht
    rw [tokenTurn, if_neg (by exact hlt)] at ht'
    cases ht
    cases ht'
    refine h.keep (t := complete s) rfl rfl rfl fun i _ hi => ?_
    obtain ⟨hge, hle⟩ := (stale_inLoop hl).1 hi
    unfold Block.dst Block.top at hle
    omega

theorem lengthTurn_over (h : SameButStale s (s.over o)) (hb : BlockInv s.cfg s.blk)
    (hp : s.blk.phase = .busy .bref) {t t' : State} (ht : runFetched (fetchLength s) = .next t)
    (ht' : runFetched (fetchLength (s.over o)) = .next t') : SameButStale t t' := by
  have hl : s.blk.inLoop := .inr (.inl hp)
  have hfetch := fetchLength_over (h.onSamePayload (hb.inLoop hl))
  rcases fetchLength_cases s with ⟨i, x, hf, hx⟩ | ⟨x, hf, hx⟩
  · rw [hf] at ht hfetch
    rw [hfetch.eq_ok] at ht'
    replace ht := (exec_of_codeLength hx.length x).symm.trans ht
    replace ht' := (exec_of_codeLength hx.length (x.over o)).symm.trans ht'
    obtain rfl := Host.Outcome.next.inj ht
    obtain rfl := Host.Outcome.next.inj ht'
    obtain ⟨c, l, rfl⟩ := hx.state
    exact lengthDone_over (s := (s.setCursor c).setLatches l)
      (h.inLoop hl (.inl hl) rfl rfl rfl rfl) hl _ _
  · rw [hf] at ht hfetch
    rw [hfetch.eq_raised] at ht'
    cases ht
    cases ht'
    exact h.lengthFailed hx

/-- Past ALLOC, both machines take the same turn. -/
theorem blockTurn_over (h : SameButStale s (s.over o)) (hs : s.Inv) (hmo : o.mem.wf)
    (hp : s.blk.pastAlloc) {t t' : State} (ht : blockTurn s = .next t)
    (ht' : blockTurn (s.over o) = .next t') : SameButStale t t' := by
  have ha := hs.blk.allocated hp
  have phase : (s.over o).blk.phase = s.blk.phase := rfl
  rcases hp with ⟨i, hp⟩ | hp | hp | hp | hp <;>
    simp only [blockTurn, phase, hp] at ht ht'
  · cases ht
    cases ht'
    exact stepHdr_over h hs.mem hmo hp ha
  · cases ht
    cases ht'
    exact stepInit_over h hp
  · exact tokenTurn_over h hs.mem hmo hs.blk hp ht ht'
  · exact lengthTurn_over h hs.blk hp ht ht'
  · cases ht
    cases ht'
    exact copyStep_over h hs.mem hmo hs.blk hp

end

/-- Settles O54: the second machine is the first one over its own memory, where the two take the same
turn; after DONE no output byte is stale. -/
theorem oldOutputNeverMatters : Obligations.OldOutputNeverMatters := by
  intro s s' t t' hs hs' h hp ht ht'
  have heq := h.eq_over
  have hturn : SameButStale t t' := blockTurn_over (heq ▸ h) hs hs'.mem hp ht (heq ▸ ht')
  refine ⟨hturn, fun hdone a => hturn.mem a fun i _ hi => ?_⟩
  simp only [Stale, hdone] at hi

end Sys2Proof.Machine
end

section
/-! PROOF. The stream's encoding: decoding gives an encoded instruction back and nothing else, any bits
followed by zeros decode, and each length has one code (30_encoding.md R97 to R103, R107). -/

namespace Sys2Proof.Machine

/-! ## One group of a list of bits -/

theorem bitsOf_all_ones (w : Nat) : bitsOf w (2 ^ w - 1) = ones w := by
  rw [← beNat_ones]
  simpa using bitsOf_beNat (ones w)

theorem ones_eight_mul_succ (j : Nat) : ones (8 * (j + 1)) = ones 8 ++ ones (8 * j) := by
  rw [ones, Nat.mul_add_one, Nat.add_comm]
  exact List.replicate_add ..

/-- The flag of a token is one bit. -/
theorem listBits_one_cons (b : Bool) (bits : List Bool) :
    listBits 1 (b :: bits) = .ok b.toNat bits := by
  cases b <;> rfl

/-- A list source answers `v` exactly when the bits begin with `v`'s field. -/
theorem listBits_eq_ok_iff {w v : Nat} {bits rest : List Bool} :
    listBits w bits = .ok v rest ↔ v < 2 ^ w ∧ bits = bitsOf w v ++ rest := by
  refine ⟨fun h => ?_, fun ⟨hv, hbits⟩ => hbits ▸ listBits_bitsOf hv rest⟩
  obtain ⟨xs, rfl, rfl, rfl⟩ := listBits_eq_ok h
  exact ⟨beNat_lt xs, by rw [bitsOf_beNat]⟩

theorem listBits_of_le {w : Nat} {bits : List Bool} (h : w ≤ bits.length) :
    ∃ v rest, listBits w bits = .ok v rest ∧ rest.length = bits.length - w := by
  refine ⟨beNat (bits.take w), bits.drop w, ?_, List.length_drop⟩
  rw [listBits, if_neg (by omega)]

/-- A chain of reads that ends well began with a field and read on from the bits after it. -/
theorem listBits_bind_eq_ok {α : Type} {w : Nat} {bits rest : List Bool} {a : α}
    {f : Nat → List Bool → Res (List Bool) α} (h : (listBits w bits).bind f = .ok a rest) :
    ∃ v bits', v < 2 ^ w ∧ bits = bitsOf w v ++ bits' ∧ f v bits' = .ok a rest := by
  obtain ⟨v, bits', hread, hf⟩ := bind_eq_ok h
  obtain ⟨hv, hbits⟩ := listBits_eq_ok_iff.1 hread
  exact ⟨v, bits', hv, hbits, hf⟩

theorem bitsOf_ofNat {w v : Nat} (h : v < 2 ^ w) :
    bitsOf w (BitVec.ofNat w v).toNat = bitsOf w v := by
  rw [ofNat_toNat_of_lt h]

theorem toNat_ne_of_bne {w : Nat} {g m : BitVec w} (h : (g != m) = true) : g.toNat ≠ m.toNat :=
  fun e => bne_iff_ne.1 h (BitVec.eq_of_toNat_eq e)

theorem ofNat_eq_of_eq_toNat {w v : Nat} {g : BitVec w} (h : v = g.toNat) : BitVec.ofNat w v = g := by
  rw [h, BitVec.ofNat_toNat, BitVec.setWidth_eq]

/-! ## Decoding what was encoded -/

/-- The tail goes past `j` groups of all ones and ends in the group that is not (43_vlc_length.md R192). -/
theorem decodeTail_encoded {g : BitVec 8} (hg : g.toNat ≠ 255) (rest : List Bool) (j : Nat) :
    ∀ fuel k, j < fuel → decodeTail listBits (fun _ _ b => b) fuel k
      (ones (8 * j) ++ (bitsOf 8 g.toNat ++ rest)) = .ok (.tail (k + j) g) rest := by
  induction j with
  | zero =>
    intro fuel k hf
    obtain ⟨fuel, rfl⟩ : ∃ f, fuel = f + 1 := ⟨fuel - 1, by omega⟩
    have hbits : ones (8 * 0) ++ (bitsOf 8 g.toNat ++ rest) = bitsOf 8 g.toNat ++ rest := rfl
    rw [decodeTail, hbits, listBits_bitsOf g.isLt, bind_ok, if_neg hg, ofNat_eq_of_eq_toNat rfl]
    rfl
  | succ j ih =>
    intro fuel k hf
    obtain ⟨fuel, rfl⟩ : ∃ f, fuel = f + 1 := ⟨fuel - 1, by omega⟩
    rw [decodeTail, ones_eight_mul_succ, List.append_assoc, listBits_ones, bind_ok,
      if_pos (by norm_num), ih fuel (k + 1) (by omega)]
    congr 2
    omega

/-- A token gives its encoding's instruction back: the flag, then the field. -/
theorem decodeToken_encode {i : Instr} (hp : i.position = .token) (rest : List Bool) :
    decodeToken listBits (encode i ++ rest) = .ok i rest := by
  cases i with
  | lit v => simp [decodeToken, encode, listBits_one_cons, listBits_bitsOf v.isLt]
  | bref d => simp [decodeToken, encode, listBits_one_cons, listBits_bitsOf d.isLt]
  | g2 | g3 | g5 | g8 | tail | start => cases hp

/-- A length code gives its encoding's instruction back: the groups of ones, then the one that ends it. -/
theorem decodeLength_encode {i : Instr} (hp : i.position = .length) (hw : i.wellFormed = true)
    (rest : List Bool) {fuel : Nat} (hf : (encode i).length ≤ fuel) :
    decodeLength listBits (fun _ _ b => b) fuel (encode i ++ rest) = .ok i rest := by
  cases i with
  | g2 g =>
    have hg : g.toNat ≠ 3 := toNat_ne_of_bne hw
    simp [decodeLength, encode, listBits_bitsOf g.isLt, hg]
  | g3 g =>
    have hg : g.toNat ≠ 7 := toNat_ne_of_bne hw
    simp [decodeLength, encode, listBits_ones, listBits_bitsOf g.isLt, hg]
  | g5 g =>
    have hg : g.toNat ≠ 31 := toNat_ne_of_bne hw
    simp [decodeLength, encode, listBits_ones, listBits_bitsOf g.isLt, hg]
  | g8 g =>
    have hg : g.toNat ≠ 255 := toNat_ne_of_bne hw
    simp [decodeLength, encode, listBits_ones, listBits_bitsOf g.isLt, hg]
  | tail k g =>
    have hwidth : (encode (.tail k g)).length = 26 + 8 * k := Laws.EncodedWidth.tail k g
    have htail := decodeTail_encoded (toNat_ne_of_bne hw) rest k fuel 0 (by omega)
    simp [decodeLength, encode, listBits_ones, htail]
  | lit | bref | start => cases hp

/-- Settles O1, position by position. -/
theorem decodeOfEncode : Obligations.DecodeOfEncode := by
  intro i rest hw
  cases hp : i.position with
  | token => rw [decodeAt, decodeToken_encode hp]; rfl
  | length => rw [decodeAt, decodeLength_encode hp hw rest (by simp)]; rfl
  | command =>
    cases i with
    | start => simp [decodeAt, encode, decodeCommand, wordOfBits]
    | lit | bref | g2 | g3 | g5 | g8 | tail => cases hp

/-! ## Encoding what was decoded -/

theorem eq_ok_of_decoded {r : Res (List Bool) Instr} {i : Instr} {rest : List Bool}
    (h : r.decoded = .ok (i, rest)) : r = .ok i rest := by
  cases r with
  | ok j x => cases h; rfl
  | raised x => cases h

theorem eq_outOfBits_of_decoded {r : Res (List Bool) Instr} {e : Reject} (h : r.decoded = .error e) :
    e = .outOfBits := by
  cases r with
  | ok j x => cases h
  | raised x => cases h; rfl

/-- Only a token's encoding is decoded as a token. -/
theorem eq_encode_of_decodeToken {bits rest : List Bool} {i : Instr}
    (h : decodeToken listBits bits = .ok i rest) :
    i.wellFormed = true ∧ i.position = .token ∧ bits = encode i ++ rest := by
  unfold decodeToken at h
  replace h := listBits_bind_eq_ok h
  obtain ⟨f, bits, hf, rfl, h⟩ := h
  split at h
  · replace h := listBits_bind_eq_ok h
    obtain ⟨v, bits, hv, rfl, h⟩ := h
    cases h
    subst f
    exact ⟨rfl, rfl, by rw [encode, bitsOf_ofNat hv]; rfl⟩
  · replace h := listBits_bind_eq_ok h
    obtain ⟨d, bits, hd, rfl, h⟩ := h
    cases h
    obtain rfl : f = 1 := by omega
    exact ⟨rfl, rfl, by rw [encode, bitsOf_ofNat hd]; rfl⟩

/-- Groups of all ones, then one that is not: what the tail reads. -/
theorem eq_groups_of_decodeTail {rest : List Bool} {i : Instr} (fuel : Nat) :
    ∀ {k : Nat} {bits : List Bool},
      decodeTail listBits (fun _ _ b => b) fuel k bits = .ok i rest →
      ∃ j g, (g != 255) = true ∧ i = .tail (k + j) g ∧
        bits = ones (8 * j) ++ (bitsOf 8 g.toNat ++ rest) := by
  induction fuel with
  | zero => intro k bits h; cases h
  | succ fuel ih =>
    intro k bits h
    unfold decodeTail at h
    replace h := listBits_bind_eq_ok h
    obtain ⟨v, bits, hv, rfl, h⟩ := h
    split at h
    · obtain ⟨j, g, hg, rfl, rfl⟩ := ih h
      subst v
      refine ⟨j + 1, g, hg, by congr 1; omega, ?_⟩
      rw [ones_eight_mul_succ, List.append_assoc]
      rfl
    · cases h
      exact ⟨0, _, ofNat_bne hv (by norm_num) ‹_›, rfl, by rw [bitsOf_ofNat hv]; rfl⟩

/-- Only a length code's encoding is decoded as a length code. -/
theorem eq_encode_of_decodeLength {fuel : Nat} {bits rest : List Bool} {i : Instr}
    (h : decodeLength listBits (fun _ _ b => b) fuel bits = .ok i rest) :
    i.wellFormed = true ∧ i.position = .length ∧ bits = encode i ++ rest := by
  have ones2 : bitsOf 2 3 = ones 2 := bitsOf_all_ones 2
  have ones3 : bitsOf 3 7 = ones 3 := bitsOf_all_ones 3
  have ones5 : bitsOf 5 31 = ones 5 := bitsOf_all_ones 5
  have ones8 : bitsOf 8 255 = ones 8 := bitsOf_all_ones 8
  unfold decodeLength at h
  replace h := listBits_bind_eq_ok h
  obtain ⟨v, bits, hv, rfl, h⟩ := h
  split at h
  · cases h
    exact ⟨ofNat_bne hv (by norm_num) ‹_›, rfl, by rw [encode, bitsOf_ofNat hv]⟩
  obtain rfl : v = 3 := Decidable.not_not.1 ‹_›
  replace h := listBits_bind_eq_ok h
  obtain ⟨v, bits, hv, rfl, h⟩ := h
  split at h
  · cases h
    exact ⟨ofNat_bne hv (by norm_num) ‹_›, rfl,
      by simp only [encode, bitsOf_ofNat hv, ones2, List.append_assoc]⟩
  obtain rfl : v = 7 := Decidable.not_not.1 ‹_›
  replace h := listBits_bind_eq_ok h
  obtain ⟨v, bits, hv, rfl, h⟩ := h
  split at h
  · cases h
    exact ⟨ofNat_bne hv (by norm_num) ‹_›, rfl,
      by simp only [encode, bitsOf_ofNat hv, ones2, ones3, List.append_assoc]⟩
  obtain rfl : v = 31 := Decidable.not_not.1 ‹_›
  replace h := listBits_bind_eq_ok h
  obtain ⟨v, bits, hv, rfl, h⟩ := h
  split at h
  · cases h
    exact ⟨ofNat_bne hv (by norm_num) ‹_›, rfl,
      by simp only [encode, bitsOf_ofNat hv, ones2, ones3, ones5, List.append_assoc]⟩
  obtain rfl : v = 255 := Decidable.not_not.1 ‹_›
  obtain ⟨j, g, hg, rfl, rfl⟩ := eq_groups_of_decodeTail fuel h
  rw [Nat.zero_add]
  exact ⟨hg, rfl, by simp only [encode, ones2, ones3, ones5, ones8, List.append_assoc]⟩

/-- Settles O2: at each stream position the bits read are the encoding of what they decode to. -/
theorem decodedBitsAreTheEncoding : Obligations.DecodedBitsAreTheEncoding := by
  intro p bits rest i hp h
  cases p with
  | token => exact eq_encode_of_decodeToken (eq_ok_of_decoded h)
  | length => exact eq_encode_of_decodeLength (eq_ok_of_decoded h)
  | command => exact absurd rfl hp

/-! ## Any bits decode when zeros follow -/

/-- The longest token has 14 bits. -/
theorem decodeAt_token_of_length {bits : List Bool} (h : 14 ≤ bits.length) :
    ∃ i rest, decodeAt .token bits = .ok (i, rest) := by
  obtain ⟨f, x, hf, hx⟩ := listBits_of_le (w := 1) (bits := bits) (by omega)
  obtain ⟨v, y, hv, _⟩ := listBits_of_le (w := 8) (bits := x) (by omega)
  obtain ⟨d, z, hd, _⟩ := listBits_of_le (w := 13) (bits := x) (by omega)
  rw [decodeAt, decodeToken, hf, bind_ok]
  split
  · exact ⟨_, _, by rw [hv]; rfl⟩
  · exact ⟨_, _, by rw [hd]; rfl⟩

/-- A group of all ones takes none of the zeros put after the bits. -/
theorem eq_ones_append_of_append_zeros {bits rest : List Bool} {n w : Nat}
    (h : bits ++ List.replicate n false = ones w ++ rest) :
    ∃ bits', bits = ones w ++ bits' ∧ rest = bits' ++ List.replicate n false := by
  rcases List.append_eq_append_iff.1 h with ⟨xs, hones, hzeros⟩ | ⟨bits', hbits, hrest⟩
  · obtain rfl : xs = [] := List.eq_nil_iff_forall_not_mem.2 fun b hb => by
      have htrue : b = true := List.eq_of_mem_replicate (hones ▸ List.mem_append_right bits hb)
      have hfalse : b = false := List.eq_of_mem_replicate (hzeros ▸ List.mem_append_left rest hb)
      exact absurd (htrue.symm.trans hfalse) (by decide)
    exact ⟨[], by simpa using hones.symm, by simpa using hzeros.symm⟩
  · exact ⟨bits', hbits, hrest⟩

/-- A chain that reads a group from bits with 8 zeros after them ends well, when it does so on a group
that ends the code and, after a group of ones, on what is left of the bits with the zeros after it. -/
theorem listBits_bind_zeros {w : Nat} {bits : List Bool}
    {f : Nat → List Bool → Res (List Bool) Instr} (hw : w ≤ 8)
    (hend : ∀ v rest, v ≠ 2 ^ w - 1 → ∃ i rest', f v rest = .ok i rest')
    (hones : ∀ bits', bits'.length + w = bits.length →
      ∃ i rest', f (2 ^ w - 1) (bits' ++ List.replicate 8 false) = .ok i rest') :
    ∃ i rest, (listBits w (bits ++ List.replicate 8 false)).bind f = .ok i rest := by
  obtain ⟨v, rest, hread, -⟩ := listBits_of_le (w := w) (bits := bits ++ List.replicate 8 false)
    (by simp; omega)
  rw [hread, bind_ok]
  by_cases hv : v = 2 ^ w - 1
  · subst v
    have hbits := (listBits_eq_ok_iff.1 hread).2
    rw [bitsOf_all_ones] at hbits
    obtain ⟨bits', rfl, rfl⟩ := eq_ones_append_of_append_zeros hbits
    exact hones bits' (by simp [Nat.add_comm])
  · exact hend v rest hv

theorem decodeTail_zeros (fuel : Nat) : ∀ (k : Nat) {bits : List Bool}, bits.length < 8 * fuel →
    ∃ i rest, decodeTail listBits (fun _ _ b => b) fuel k (bits ++ List.replicate 8 false) =
      .ok i rest := by
  induction fuel with
  | zero => intro k bits hf; omega
  | succ fuel ih =>
    intro k bits hf
    exact listBits_bind_zeros le_rfl (fun v rest hv => ⟨_, _, if_neg hv⟩)
      fun bits' hlen => ih (k + 1) (by omega)

theorem decodeLength_zeros {fuel : Nat} {bits : List Bool} (hf : bits.length < 8 * fuel) :
    ∃ i rest, decodeLength listBits (fun _ _ b => b) fuel (bits ++ List.replicate 8 false) =
      .ok i rest := by
  refine listBits_bind_zeros (by norm_num) (fun v rest hv => ⟨_, _, if_pos hv⟩) fun bits hlen => ?_
  refine listBits_bind_zeros (by norm_num) (fun v rest hv => ⟨_, _, if_pos hv⟩) fun bits hlen => ?_
  refine listBits_bind_zeros (by norm_num) (fun v rest hv => ⟨_, _, if_pos hv⟩) fun bits hlen => ?_
  refine listBits_bind_zeros le_rfl (fun v rest hv => ⟨_, _, if_pos hv⟩) fun bits hlen => ?_
  exact decodeTail_zeros fuel 0 (by omega)

/-- Settles O3: a token needs at most 14 bits, 9 of them where the flag is one of the zeros; the group
of a length code that takes a zero ends the code. -/
theorem everyBitStringBeginsAToken : Obligations.EveryBitStringBeginsAToken := by
  refine fun bits => ⟨?_, ?_, fun r h => ⟨eq_outOfBits_of_decoded h, ?_⟩,
    fun r => eq_outOfBits_of_decoded⟩
  · cases bits with
    | nil => exact ⟨.lit 0, List.replicate 4 false, by decide⟩
    | cons b bits => exact decodeAt_token_of_length (by simp)
  · obtain ⟨i, rest, hread⟩ := decodeLength_zeros (bits := bits)
      (fuel := (bits ++ List.replicate 8 false).length) (by simp; omega)
    exact ⟨i, rest, by rw [decodeAt, hread]; rfl⟩
  · by_contra hlen
    obtain ⟨i, rest, hok⟩ := decodeAt_token_of_length (Nat.le_of_not_lt hlen)
    cases hok.symm.trans h

/-! ## The length code of a length -/

/-- The length code of `n ≥ 3`, by the ranges of 43_vlc_length.md R193. -/
def codeOfLength (n : Nat) : Instr :=
  if n < 6 then .g2 (BitVec.ofNat 2 (n - 3))
  else if n < 13 then .g3 (BitVec.ofNat 3 (n - 6))
  else if n < 44 then .g5 (BitVec.ofNat 5 (n - 13))
  else if n < 299 then .g8 (BitVec.ofNat 8 (n - 44))
  else .tail ((n - 299) / 255) (BitVec.ofNat 8 ((n - 299) % 255))

/-- The tail loop of R102 writes the quotient by 255 in groups of ones, then the remainder. -/
theorem encTail_eq (fuel : Nat) : ∀ {x : Nat}, x < 255 * (fuel + 1) →
    encTail fuel x = ones (8 * (x / 255)) ++ bitsOf 8 (x % 255) := by
  induction fuel with
  | zero =>
    intro x hx
    rw [encTail, Nat.div_eq_of_lt (by omega), Nat.mod_eq_of_lt (by omega)]
    rfl
  | succ fuel ih =>
    intro x hx
    rw [encTail]
    split
    · rw [ih (by omega), ← Nat.mod_eq_sub_mod ‹_›, Nat.div_eq_sub_div (a := x) (by norm_num) ‹_›,
        ones_eight_mul_succ, List.append_assoc]
    · rw [Nat.div_eq_of_lt (by omega), Nat.mod_eq_of_lt (by omega)]
      rfl

theorem codeOfLength_position (n : Nat) : (codeOfLength n).position = .length := by
  unfold codeOfLength
  split_ifs <;> rfl

theorem codeOfLength_wellFormed {n : Nat} (h : 3 ≤ n) : (codeOfLength n).wellFormed = true := by
  unfold codeOfLength
  split_ifs
  · exact ofNat_bne (m := 3) (by omega) (by norm_num) (by omega)
  · exact ofNat_bne (m := 7) (by omega) (by norm_num) (by omega)
  · exact ofNat_bne (m := 31) (by omega) (by norm_num) (by omega)
  · exact ofNat_bne (m := 255) (by omega) (by norm_num) (by omega)
  · exact ofNat_bne (m := 255) (by omega) (by norm_num) (by omega)

theorem codeLength_codeOfLength {n : Nat} (h : 3 ≤ n) : codeLength (codeOfLength n) = some n := by
  unfold codeOfLength
  split_ifs <;>
    simp only [codeLength, lenG2, lenG3, lenG5, lenG8, lenTail, BitVec.toNat_ofNat,
      Option.some.injEq] <;>
    omega

/-- The cascade of R102 ends in a group of width `w` where what is left is below its all ones. -/
theorem encCascade_of_lt {w x : Nat} (ws : List Nat) (hx : x < 2 ^ w - 1) :
    encCascade (w :: ws) x = bitsOf w (BitVec.ofNat w x).toNat := by
  rw [encCascade, if_pos hx, bitsOf_ofNat (by omega)]

/-- Where it is not below, the cascade of R102 goes on after a group of ones. -/
theorem encCascade_of_le {w x : Nat} (ws : List Nat) (hx : 2 ^ w - 1 ≤ x) :
    encCascade (w :: ws) x = ones w ++ encCascade ws (x - (2 ^ w - 1)) :=
  if_neg (Nat.not_lt.2 hx)

/-- R102's cascade stops at the group of the same range. -/
theorem encode_codeOfLength {n : Nat} (h : 3 ≤ n) : encode (codeOfLength n) = encLength n := by
  unfold codeOfLength encLength
  split_ifs
  · rw [encCascade_of_lt _ (by omega), encode]
  · rw [encCascade_of_le _ (by omega), encCascade_of_lt _ (by omega), encode,
      show n - 6 = n - 3 - (2 ^ 2 - 1) by omega]
  · rw [encCascade_of_le _ (by omega), encCascade_of_le _ (by omega), encCascade_of_lt _ (by omega),
      encode, List.append_assoc, show n - 13 = n - 3 - (2 ^ 2 - 1) - (2 ^ 3 - 1) by omega]
  · rw [encCascade_of_le _ (by omega), encCascade_of_le _ (by omega), encCascade_of_le _ (by omega),
      encCascade_of_lt _ (by omega), encode, List.append_assoc, List.append_assoc,
      show n - 44 = n - 3 - (2 ^ 2 - 1) - (2 ^ 3 - 1) - (2 ^ 5 - 1) by omega]
  · rw [encCascade_of_le _ (by omega), encCascade_of_le _ (by omega), encCascade_of_le _ (by omega),
      encCascade_of_le _ (by omega), encCascade, encTail_eq _ (by omega), encode,
      bitsOf_ofNat (by omega),
      show n - 299 = n - 3 - (2 ^ 2 - 1) - (2 ^ 3 - 1) - (2 ^ 5 - 1) - (2 ^ 8 - 1) by omega]
    simp only [List.append_assoc]

/-- A well-formed length code is the one of its length. -/
theorem codeOfLength_of_codeLength {i : Instr} {n : Nat} (hw : i.wellFormed = true)
    (h : codeLength i = some n) : codeOfLength n = i := by
  cases i with
  | lit | bref | start => cases h
  | g2 g =>
    have hg : g.toNat ≠ 3 := toNat_ne_of_bne hw
    obtain rfl : 3 + g.toNat = n := Option.some.inj h
    rw [codeOfLength, if_pos (by omega), ofNat_eq_of_eq_toNat (g := g) (by omega)]
  | g3 g =>
    have hg : g.toNat ≠ 7 := toNat_ne_of_bne hw
    obtain rfl : 6 + g.toNat = n := Option.some.inj h
    rw [codeOfLength, if_neg (by omega), if_pos (by omega), ofNat_eq_of_eq_toNat (g := g) (by omega)]
  | g5 g =>
    have hg : g.toNat ≠ 31 := toNat_ne_of_bne hw
    obtain rfl : 13 + g.toNat = n := Option.some.inj h
    rw [codeOfLength, if_neg (by omega), if_neg (by omega), if_pos (by omega),
      ofNat_eq_of_eq_toNat (g := g) (by omega)]
  | g8 g =>
    have hg : g.toNat ≠ 255 := toNat_ne_of_bne hw
    obtain rfl : 44 + g.toNat = n := Option.some.inj h
    rw [codeOfLength, if_neg (by omega), if_neg (by omega), if_neg (by omega), if_pos (by omega),
      ofNat_eq_of_eq_toNat (g := g) (by omega)]
  | tail k g =>
    have hg : g.toNat ≠ 255 := toNat_ne_of_bne hw
    obtain rfl : 299 + 255 * k + g.toNat = n := Option.some.inj h
    rw [codeOfLength, if_neg (by omega), if_neg (by omega), if_neg (by omega), if_neg (by omega),
      ofNat_eq_of_eq_toNat (g := g) (by omega),
      show (299 + 255 * k + g.toNat - 299) / 255 = k by omega]

/-- `enc` of R102 can be undone: decoding its bits gives the code, and the code gives the length. -/
theorem encLength_injective {n m : Nat} (hn : 3 ≤ n) (hm : 3 ≤ m) (h : encLength n = encLength m) :
    n = m := by
  have hdec {k : Nat} (hk : 3 ≤ k) : decodeAt .length (encLength k) = .ok (codeOfLength k, []) := by
    simpa [codeOfLength_position, encode_codeOfLength hk] using
      decodeOfEncode (codeOfLength k) [] (codeOfLength_wellFormed hk)
  have hcode : codeOfLength n = codeOfLength m := by
    have hok := (hdec hn).symm.trans (h ▸ hdec hm)
    exact (Prod.mk.inj (Except.ok.inj hok)).1
  exact Option.some.inj
    ((codeLength_codeOfLength hn).symm.trans (hcode ▸ codeLength_codeOfLength hm))

/-- Settles O4: `codeOfLength n` is the code, and a well-formed code is the one of its length. -/
theorem eachLengthHasOneCode : Obligations.EachLengthHasOneCode := by
  refine ⟨fun n hn => ⟨⟨codeOfLength n, codeOfLength_wellFormed hn, codeOfLength_position n,
    codeLength_codeOfLength hn, encode_codeOfLength hn⟩, fun i j hi hj hni hnj => ?_⟩,
    fun d e n m hn hm h => ?_⟩
  · rw [← codeOfLength_of_codeLength hi hni, codeOfLength_of_codeLength hj hnj]
  · have hd := decodeOfEncode (.bref d) (encLength n) rfl
    rw [h] at hd
    have hok := hd.symm.trans (decodeOfEncode (.bref e) (encLength m) rfl)
    obtain ⟨hde, hnm⟩ := Prod.mk.inj (Except.ok.inj hok)
    exact ⟨Instr.bref.inj hde, encLength_injective hn hm hnm⟩

/-- Settles O6: each word is a closed bit string, which the decoder evaluates. -/
theorem wordsWrittenOut : Obligations.WordsWrittenOut := by
  unfold Obligations.WordsWrittenOut
  decide

end Sys2Proof.Machine
end

section
/-! PROOF. READ_BITS delivers the next bits of the stream, fetches a byte only when the pool is empty, and
fails only at a fetch (40_bit_reader.md R120 to R128). -/

namespace Sys2Proof.Machine

/-! ## The bits of the result -/

/-- Bit w - 1 of the natural a bit string of length w spells is the string's first bit. -/
theorem testBit_beNat {bits : List Bool} {j : Nat} (h : j < bits.length) :
    (beNat bits).testBit (bits.length - 1 - j) = bits[j] := by
  have hbit : (bitsOf bits.length (beNat bits))[j]'(by simpa using h) = bits[j] := by
    simp only [bitsOf_beNat]
  simpa [bitsOf] using hbit

theorem testBit_beNat_streamBits (s : State) (p : Nat) {n j : Nat} (h : j < n) :
    (beNat (streamBits s p n)).testBit (n - 1 - j) = streamBit s (p + j) := by
  have hbit := testBit_beNat (bits := streamBits s p n) (j := j) (by rwa [streamBits_length])
  simpa [streamBits] using hbit

/-- Settles O7: the loop's value is the stream's bits read as a natural, whose bits are the stream's. -/
theorem readBitsDeliversTheStream : Obligations.ReadBitsDeliversTheStream := by
  intro n v s t hs hr
  obtain ⟨ht, hp, rfl⟩ := readBits_onStream hs hr
  exact ⟨rfl, fun j hj => testBit_beNat_streamBits s _ hj, readBits_ok_frame hr, ht, hp⟩

/-- Settles O9: a request that returns changes the cursor, one that raises takes the error entry too. -/
theorem readBitsWritesOnlyTheCursor : Obligations.ReadBitsWritesOnlyTheCursor := by
  refine fun n s => ⟨fun v t hr => ⟨readBits_lt hr, readBits_ok_frame hr⟩, fun t hr => ?_⟩
  obtain ⟨c, e, -, rfl⟩ := readBits_raised_frame hr
  rfl

/-! ## One fetch and one pass of the loop -/

theorem fillPool_of_not_accessible {s : State} (h : s.blk.cursor.bitsLeft = 0)
    (hge : s.blk.payloadStart ≤ s.blk.cursor.offset.toNat)
    (ha : accessible s.cfg s.blk.cursor.offset.toNat = false) :
    fillPool s = .raised (raise .sourceReadFailure s.blk.cursor.offset.toNat s) := by
  rw [fillPool_of_fetch h (Nat.not_lt.2 hge), srcRead, ha]
  rfl

/-- The state a pass with `need` bits to go leaves after its fetch: BITS_LEFT falls by what is taken. -/
def afterTake (need : Nat) (s : State) : State :=
  s.setCursor (s.blk.cursor.drop (min s.blk.cursor.bitsLeft.val need))

@[simp] theorem readBitsLoop_need_zero (fuel acc : Nat) (s : State) :
    readBitsLoop fuel 0 acc s = .ok acc s := by
  cases fuel with
  | zero => rfl
  | succ fuel => rw [readBitsLoop, if_pos rfl]

theorem readBitsLoop_of_fill_raised {need : Nat} (hneed : 0 < need) {s t : State}
    (h : fillPool s = .raised t) (fuel acc : Nat) :
    readBitsLoop (fuel + 1) need acc s = .raised t := by
  rw [readBitsLoop, if_neg (by omega), h, bind_raised]

theorem readBitsLoop_of_fill_ok {need : Nat} (hneed : 0 < need) {s x : State} {u : Unit}
    (h : fillPool s = .ok u x) (fuel acc : Nat) :
    readBitsLoop (fuel + 1) need acc s =
      readBitsLoop fuel (need - min x.blk.cursor.bitsLeft.val need)
        ((acc <<< min x.blk.cursor.bitsLeft.val need) |||
          x.blk.cursor.taken (min x.blk.cursor.bitsLeft.val need)) (afterTake need x) := by
  rw [readBitsLoop, if_neg (by omega), h, bind_ok, afterTake]

theorem readBits_of_fill_raised {n : Nat} (hn : 0 < n) {s t : State} (h : fillPool s = .raised t) :
    readBits n s = .raised t := by
  obtain ⟨n, rfl⟩ := Nat.exists_eq_add_of_lt hn
  exact readBitsLoop_of_fill_raised hn h _ _

/-- 40_bit_reader.md R128: bits that are all in the pool are taken without a fetch. -/
theorem readBits_of_le_bitsLeft {n : Nat} {s : State} (h : n ≤ s.blk.cursor.bitsLeft.val) :
    readBits n s = .ok (s.blk.cursor.taken n) (s.setCursor (s.blk.cursor.drop n)) := by
  cases n with
  | zero =>
    have htaken : s.blk.cursor.taken 0 = 0 := by simp [Cursor.taken]
    rw [htaken]
    rfl
  | succ m =>
    have hfill : fillPool s = .ok () s := fillPool_of_bits fun h0 => by simp [h0] at h
    rw [readBits, readBitsLoop_of_fill_ok m.succ_pos hfill, afterTake, Nat.min_eq_right h,
      Nat.sub_self, readBitsLoop_need_zero, Nat.zero_shiftLeft, Nat.zero_or]

/-! ## What holds between two passes of a request -/

/-- The place of `x` in a request of `n` bits begun at `s`, with `need` bits to go. -/
structure MidRequest (n : Nat) (s : State) (need : Nat) (x : State) : Prop where
  frame : x = s.setCursor x.blk.cursor
  need_le : need ≤ n
  consumed : CursorInRange s.blk →
    CursorInRange x.blk ∧ x.blk.bitsConsumed + need = s.blk.bitsConsumed + n
  /-- A pass takes at least one bit, so a byte just fetched is not left whole. -/
  bitsLeft_lt : s.blk.cursor.bitsLeft.val < 8 → x.blk.cursor.bitsLeft.val < 8
  /-- The bytes between the two OFFSETs were fetched. -/
  fetched : ∀ a, x.blk.cursor.offset.toNat < a → a ≤ s.blk.cursor.offset.toNat →
    accessible s.cfg a = true

section
variable {n need : Nat} {s x : State}

theorem MidRequest.start (n : Nat) (s : State) : MidRequest n s n s where
  frame := rfl
  need_le := le_rfl
  consumed h := ⟨h, rfl⟩
  bitsLeft_lt := id
  fetched a hlt hle := by omega

theorem MidRequest.cfg_eq (h : MidRequest n s need x) : x.cfg = s.cfg := by rw [h.frame]; rfl

theorem MidRequest.hb_eq (h : MidRequest n s need x) : x.blk.hb = s.blk.hb := by rw [h.frame]; rfl

theorem MidRequest.payloadStart_eq (h : MidRequest n s need x) :
    x.blk.payloadStart = s.blk.payloadStart := by rw [h.frame]; rfl

theorem MidRequest.payloadEnd_eq (h : MidRequest n s need x) :
    x.blk.payloadEnd = s.blk.payloadEnd := by rw [h.frame]; rfl

/-- One pass: a fetch where the pool is empty, then the bits taken. -/
theorem MidRequest.pass {y : State} {u : Unit} (h : MidRequest n s need x) (hneed : 0 < need)
    (hf : fillPool x = .ok u y) :
    MidRequest n s (need - min y.blk.cursor.bitsLeft.val need) (afterTake need y) where
  frame := by
    rw [h.frame] at hf
    rcases fillPool_ok hf with ⟨-, rfl⟩ | ⟨-, -, -, rfl⟩ <;> rfl
  need_le := (Nat.sub_le _ _).trans h.need_le
  consumed hs := by
    obtain ⟨hx, hpx⟩ := h.consumed hs
    obtain ⟨hy, hpy, -⟩ := inRange_fill hx hf
    obtain ⟨hz, hpz⟩ := inRange_drop hy (min_le_left _ need)
    refine ⟨hz, ?_⟩
    rw [afterTake, setCursor_blk, hpz]
    omega
  bitsLeft_lt _ := by
    have hpos := fillPool_bitsLeft hf
    simp only [afterTake, setCursor_blk, drop_bitsLeft]
    omega
  fetched a hlt hle := by
    rcases fillPool_ok hf with ⟨-, rfl⟩ | ⟨-, hge, hacc, rfl⟩
    · exact h.fetched a hlt hle
    · have hoff := fetch_offset hge
      simp only [afterTake, setCursor_blk, drop_offset] at hlt
      rcases Nat.lt_or_ge x.blk.cursor.offset.toNat a with hxa | hax
      · exact h.fetched a hxa hle
      · rwa [show a = x.blk.cursor.offset.toNat by omega, ← h.cfg_eq]

end

/-- The loop goes on to the end of the request, or to a fetch that fails. -/
theorem MidRequest.loop {n need : Nat} {s x : State} (h : MidRequest n s need x) {fuel : Nat}
    (hfuel : need ≤ fuel) (acc : Nat) :
    (∃ v t, readBitsLoop fuel need acc x = .ok v t ∧ MidRequest n s 0 t) ∨
    (∃ m y t, readBitsLoop fuel need acc x = .raised t ∧ 0 < m ∧ MidRequest n s m y ∧
      fillPool y = .raised t) := by
  induction fuel generalizing need acc x with
  | zero =>
    obtain rfl : need = 0 := by omega
    exact .inl ⟨acc, x, rfl, h⟩
  | succ fuel ih =>
    rcases Nat.eq_zero_or_pos need with rfl | hneed
    · exact .inl ⟨acc, x, readBitsLoop_need_zero _ _ _, h⟩
    cases hf : fillPool x with
    | raised t => exact .inr ⟨need, x, t, readBitsLoop_of_fill_raised hneed hf _ _, hneed, h, hf⟩
    | ok u y =>
      have hpos := fillPool_bitsLeft hf
      rw [readBitsLoop_of_fill_ok hneed hf]
      exact ih (h.pass hneed hf) (by omega) _

theorem readBits_ok_midRequest {n v : Nat} {s t : State} (h : readBits n s = .ok v t) :
    MidRequest n s 0 t := by
  rcases (MidRequest.start n s).loop le_rfl 0 with ⟨v', t', h', ht⟩ | ⟨m, y, t', h', -⟩
  · obtain ⟨-, rfl⟩ := Res.ok.inj (h'.symm.trans h)
    exact ht
  · cases h'.symm.trans h

/-- A request raises what one of its fetches raises, with bits still to go. -/
theorem readBits_raised_midRequest {n : Nat} {s t : State} (h : readBits n s = .raised t) :
    ∃ m x, 0 < m ∧ MidRequest n s m x ∧ fillPool x = .raised t := by
  rcases (MidRequest.start n s).loop le_rfl 0 with ⟨v, t', h', -⟩ | ⟨m, x, t', h', hm, hx, hf⟩
  · cases h'.symm.trans h
  · obtain rfl := Res.raised.inj (h'.symm.trans h)
    exact ⟨m, x, hm, hx, hf⟩

/-! ## Which bytes a request fetches -/

/-- 40_bit_reader.md R122: with fewer than 8 bits in the pool, ceil(P / 8) bytes were fetched. -/
theorem offset_add_bytesFetched {b : Block} (h : CursorInRange b) (hlt : b.cursor.bitsLeft.val < 8) :
    b.cursor.offset.toNat + (b.bitsConsumed + 7) / 8 = b.payloadEnd := by
  obtain ⟨-, hbelow, hfetched⟩ := h
  unfold Block.bitsConsumed
  omega

/-- Settles O10: no byte just fetched is left whole, and bits that are in the pool need no fetch. -/
theorem lazyFetch : Obligations.LazyFetch := by
  intro n v s t hs hlt hr
  have hmid := readBits_ok_midRequest hr
  have htlt := hmid.bitsLeft_lt hlt
  obtain ⟨ht, -⟩ := hmid.consumed hs.inRange
  refine ⟨htlt, hmid.payloadEnd_eq ▸ offset_add_bytesFetched ht htlt, fun hle => ?_⟩
  obtain ⟨-, rfl⟩ := Res.ok.inj ((readBits_of_le_bitsLeft hle).symm.trans hr)
  exact ⟨rfl, rfl, Nat.sub_add_cancel hle⟩

/-- A byte E - j whose bits a good request took, none of them taken before, was fetched by it. -/
theorem readBits_ok_accessible {n v j : Nat} {s t : State} (hs : CursorOnStream s)
    (hlt : s.blk.cursor.bitsLeft.val < 8) (hr : readBits n s = .ok v t)
    (hfirst : (s.blk.bitsConsumed + 7) / 8 ≤ j) (hlast : 8 * j < s.blk.bitsConsumed + n) :
    accessible s.cfg (s.blk.payloadEnd - j) = true := by
  have hmid := readBits_ok_midRequest hr
  obtain ⟨ht, hp⟩ := hmid.consumed hs.inRange
  have hend := hmid.payloadEnd_eq
  have hoffs := offset_add_bytesFetched hs.inRange hlt
  have hofft := offset_add_bytesFetched ht (hmid.bitsLeft_lt hlt)
  exact hmid.fetched _ (by omega) (by omega)

/-- A fetch that fails leaves the cursor, whose OFFSET it reports; what it raises tells why. -/
theorem fillPool_raised_report {s t : State} (h : fillPool s = .raised t) :
    t.blk.cursor = s.blk.cursor ∧ t.blk.errInfo = s.blk.cursor.offset ∧ t.blk.phase = .error ∧
    (s.blk.cursor.offset.toNat < s.blk.payloadStart ∧ t.blk.errCode = .sourceUnderflow ∨
      s.blk.payloadStart ≤ s.blk.cursor.offset.toNat ∧ t.blk.errCode = .sourceReadFailure ∧
        accessible s.cfg s.blk.cursor.offset.toNat = false) := by
  obtain ⟨-, ⟨hlt, rfl⟩ | ⟨hge, hna, rfl⟩⟩ := fillPool_raised h
  · exact ⟨rfl, by simp, rfl, .inl ⟨hlt, rfl⟩⟩
  · exact ⟨rfl, by simp, rfl, .inr ⟨hge, rfl, hna⟩⟩

/-- The fetch that fails is of a byte E - j the request needs: one below the payload, or one that is not
accessible. -/
theorem readBits_raised_fetch {n : Nat} {s t : State} (hs : CursorInRange s.blk)
    (hr : readBits n s = .raised t) :
    ∃ j, (s.blk.bitsConsumed + 7) / 8 ≤ j ∧ 8 * j < s.blk.bitsConsumed + n ∧
      (s.blk.hb ≤ j ∨ accessible s.cfg (s.blk.payloadEnd - j) = false) := by
  obtain ⟨m, x, hm, hx, hf⟩ := readBits_raised_midRequest hr
  obtain ⟨-, -, -, hwhy⟩ := fillPool_raised_report hf
  obtain ⟨hrange, hp⟩ := hx.consumed hs
  have hempty : x.blk.cursor.bitsLeft.val = 0 := by rw [(fillPool_raised hf).1]; rfl
  have hconsumed : x.blk.bitsConsumed = 8 * (x.blk.payloadEnd - x.blk.cursor.offset.toNat) := by
    rw [Block.bitsConsumed, hempty, Nat.sub_zero]
  have hneed := hx.need_le
  refine ⟨x.blk.payloadEnd - x.blk.cursor.offset.toNat, by omega, by omega, ?_⟩
  rcases hwhy with ⟨hlt, -⟩ | ⟨-, -, hna⟩
  · left
    rw [← hx.hb_eq]
    unfold Block.payloadStart at hlt
    unfold Block.payloadEnd
    omega
  · right
    rwa [← hx.payloadEnd_eq, Nat.sub_sub_self hrange.below, ← hx.cfg_eq]

/-- A request that returns stays inside the stream. -/
theorem readBits_ok_le {n v : Nat} {s t : State} (hs : CursorOnStream s) (hr : readBits n s = .ok v t) :
    s.blk.bitsConsumed + n ≤ 8 * s.blk.hb := by
  obtain ⟨ht, hp, -⟩ := readBits_onStream hs hr
  have hle := onStream_le ht
  rwa [hp, (readBits_ok_midRequest hr).hb_eq] at hle

/-- Settles O8: a good request ends inside the stream with its bytes fetched, and the byte at which a
bad one fails is one of those it needs. -/
theorem readBitsSucceedsExactly : Obligations.ReadBitsSucceedsExactly := by
  intro n s hs hlt
  refine ⟨⟨fun ⟨v, t, hr⟩ => ⟨readBits_ok_le hs hr, fun j => readBits_ok_accessible hs hlt hr⟩,
    fun ⟨hle, hacc⟩ => ?_⟩, fun hacc hgt => ?_⟩
  · cases hr : readBits n s with
    | ok v t => exact ⟨v, t, rfl⟩
    | raised t =>
      obtain ⟨j, hfirst, hlast, hj | hna⟩ := readBits_raised_fetch hs.inRange hr
      · omega
      · cases hna.symm.trans (hacc j hfirst hlast)
  · cases hr : readBits n s with
    | ok v t => exact absurd (readBits_ok_le hs hr) (by omega)
    | raised t =>
      obtain ⟨-, c, hoff, hbits, rfl⟩ := readBits_fails hs hacc hr
      exact ⟨c, hoff, hbits, rfl⟩

/-- Where the pool is empty and OFFSET cannot be fetched, the request fails at its first fetch. -/
theorem readBits_first_fetch_fails {n : Nat} {s t : State} (h0 : s.blk.cursor.bitsLeft = 0)
    (hbad : s.blk.cursor.offset.toNat < s.blk.payloadStart ∨
      accessible s.cfg s.blk.cursor.offset.toNat = false)
    (hr : readBits n s = .raised t) : fillPool s = .raised t := by
  have hn : 0 < n := Nat.pos_of_ne_zero fun hz => by rw [hz] at hr; cases hr
  cases hf : fillPool s with
  | raised x => rw [Res.raised.inj ((readBits_of_fill_raised hn hf).symm.trans hr)]
  | ok u x =>
    obtain ⟨hne, -⟩ | ⟨-, hge, hacc, -⟩ := fillPool_ok hf
    · exact absurd h0 hne
    · rcases hbad with hlt | hna
      · omega
      · cases hna.symm.trans hacc

/-- Settles O11: what a request raises is what the one fetch that failed raises. -/
theorem fetchErrorsArePrecise : Obligations.FetchErrorsArePrecise := by
  refine ⟨fun s h0 => ⟨fillPool_of_underflow h0, fillPool_of_not_accessible h0⟩,
    fun s t n hn hf => ⟨readBits_of_fill_raised hn hf, readBitsLoop_of_fill_raised hn hf⟩,
    fun n s t hr => ?_⟩
  obtain ⟨m, x, -, hx, hf⟩ := readBits_raised_midRequest hr
  obtain ⟨hempty, -⟩ := fillPool_raised hf
  obtain ⟨hcur, hinfo, hphase, hwhy⟩ := fillPool_raised_report hf
  have hstart : t.blk.payloadStart = s.blk.payloadStart := by
    obtain ⟨c, e, -, rfl⟩ := readBits_raised_frame hr
    rfl
  rw [hx.cfg_eq, hx.payloadStart_eq, ← hcur] at hwhy
  refine ⟨hcur ▸ hempty, hcur ▸ hinfo, hphase, fun hlt => ?_, fun hge => ?_,
    fun h0 hbad => (fillPool_raised_report (readBits_first_fetch_fails h0 hbad hr)).1,
    fun hs => readBits_raised_onStream hs hr⟩
  · rcases hwhy with ⟨-, hcode⟩ | ⟨hge, -⟩
    · exact hcode
    · omega
  · rcases hwhy with ⟨hlt, -⟩ | ⟨-, hfail⟩
    · omega
    · exact hfail

end Sys2Proof.Machine
end

section
/-! PROOF. START and the front end, step by step (41_segment_framing.md R140 to R156). -/

namespace Sys2Proof.Machine

/-! ## START -/

theorem execStart_of_isBusy {s : State} (h : s.blk.isBusy = true) : execStart s = .next s := if_pos h

theorem execStart_accepted {s : State} (h : s.blk.isBusy = false) (hc : startClashes s = false) :
    execStart s = .next (acceptStart s) := by
  rw [execStart, h, hc]
  rfl

theorem startClashes_of_none_busy {s : State} (h : ∀ b ∈ s.parked, b.isBusy = false) :
    startClashes s = false :=
  List.any_eq_false.2 fun b hb => by rw [h b hb]; exact Bool.false_ne_true

/-- A CTRL write goes by bit 0 alone (30_encoding.md R107). -/
theorem regWrite_ctrl (v : Word) (s : State) : hostEvent (.regWrite s.blk.regBase v) s =
    if v.getLsbD 0 then execStart s else .next s := by
  change regAccess s.blk.regBase (fun slot => writeSlot slot v) s = _
  rw [regAccess_base]
  simp only [writeSlot, decodeCommand]
  cases v.getLsbD 0 <;> rfl

/-- Settles O18: an accepted START is `acceptStart`, and a CTRL write with bit 0 set runs START. -/
theorem startBeginsADecode : Obligations.StartBeginsADecode := by
  refine ⟨fun s hb hc => ⟨acceptStart s, execStart_accepted hb hc, rfl, ⟨rfl, rfl, rfl, rfl⟩, rfl⟩,
    fun s => startClashes_of_none_busy, fun s v rest hv => ?_⟩
  exact (regWrite_ctrl v { s with inbox := rest }).trans (if_pos hv)

/-- Settles O19: while BUSY a START answers the same state, and without bit 0 there is no START. -/
theorem startIgnored : Obligations.StartIgnored := by
  refine fun s => ⟨fun hb => ⟨execStart_of_isBusy hb, fun v => ?_⟩, fun v hv => ?_⟩
  · rw [regWrite_ctrl, execStart_of_isBusy hb, ite_self]
  · rw [regWrite_ctrl, hv]
    rfl

/-! ## The turn of each sub-phase before the token loop -/

section
variable {s : State}

theorem blockTurn_pre (h : s.blk.phase = .busy .pre) : blockTurn s = .next (stepPre s) := by
  simp only [blockTurn, h]

theorem blockTurn_sig (h : s.blk.phase = .busy .sig) : blockTurn s = .next (stepSig s) := by
  simp only [blockTurn, h]

theorem blockTurn_sizes (h : s.blk.phase = .busy .sizes) : blockTurn s = .next (stepSizes s) := by
  simp only [blockTurn, h]

theorem blockTurn_frame (h : s.blk.phase = .busy .frame) : blockTurn s = .next (stepFrame s) := by
  simp only [blockTurn, h]

theorem blockTurn_alloc (h : s.blk.phase = .busy .alloc) : blockTurn s = .next (stepAlloc s) := by
  simp only [blockTurn, h]

theorem blockTurn_hdr {i : Fin 256} (h : s.blk.phase = .busy (.hdr i)) :
    blockTurn s = .next (stepHdr i s) := by
  simp only [blockTurn, h]

theorem blockTurn_init (h : s.blk.phase = .busy .init) : blockTurn s = .next (stepInit s) := by
  simp only [blockTurn, h]

end

/-! ## PRE, SIG, SIZES, FRAME and ALLOC -/

theorem stepPre_of_short {s : State} (h : s.blk.segSize < 16) :
    stepPre s = raise .framingMismatch 0 s := if_pos h

theorem stepPre_of_beyond {s : State} (hl : 16 ≤ s.blk.segSize)
    (h : 2 ^ s.cfg.addrW < s.blk.segStart + s.blk.segSize) :
    stepPre s = raise .sourceReadFailure ((s.blk.segStart + s.blk.segSize) % 2 ^ 64) s := by
  rw [stepPre, if_neg (Nat.not_lt.2 hl), if_pos h]

theorem stepPre_of_prechecked {s : State} (h : Prechecked s.cfg s.blk) :
    stepPre s = s.setPhase (.busy .sig) := by
  rw [stepPre, if_neg (Nat.not_lt.2 h.long), if_neg (Nat.not_lt.2 h.fits)]

/-- Settles O20: the two tests of PRE in their order. -/
theorem prechecksComeFirst : Obligations.PrechecksComeFirst := by
  intro s hp sl
  rw [blockTurn_pre hp]
  exact ⟨fun hshort => congrArg _ (stepPre_of_short hshort),
    fun hlong hover => congrArg _ (stepPre_of_beyond hlong hover),
    fun hlong hfits => congrArg _ (stepPre_of_prechecked ⟨hlong, hfits⟩)⟩

/-- BE64 of eight bytes as a sum over their places (20_memory.md R65). -/
theorem beBytes_eight (f : Nat → Byte) :
    beBytes ((List.range 8).map f) = ∑ i ∈ Finset.range 8, (f i).toNat * 2 ^ (8 * (7 - i)) := by
  simp only [beBytes, List.range_succ, List.range_zero, Finset.sum_range_succ, Finset.sum_range_zero,
    List.nil_append, List.cons_append, List.map_cons, List.map_nil, List.foldl_cons, List.foldl_nil]
  omega

theorem signatureAccepted_iff {c : Config} {sig : Nat} :
    signatureAccepted c sig = true ↔ sig = c.magic.toNat ∨ sig = 0 := by
  simp [signatureAccepted]

/-- SIG once its eight bytes are read: the compare. -/
theorem stepSig_of_read {s : State} (h : ∀ i, i < 8 → accessible s.cfg (s.blk.segStart + i) = true) :
    stepSig s =
      let sig := beBytes ((List.range 8).map fun i => s.mem.read (s.blk.segStart + i))
      if signatureAccepted s.cfg sig then s.setPhase (.busy .sizes) else raise .badSignature sig s := by
  rw [stepSig, srcReads_all h, bind_ok]
  dsimp only
  split <;> rfl

/-- Settles O21: the eight bytes are read before the compare, and the first bus error is reported. -/
theorem signatureCheck : Obligations.SignatureCheck := by
  intro s hp v
  rw [blockTurn_sig hp]
  refine ⟨fun hacc => ?_, fun i hi hbefore hna => ?_⟩
  · rw [stepSig_of_read hacc, beBytes_eight]
    refine ⟨fun hok => ?_, fun hmagic hzero => ?_⟩
    · rw [if_pos (signatureAccepted_iff.2 hok)]
      rfl
    · rw [if_neg (signatureAccepted_iff.not.2 (not_or.2 ⟨hmagic, hzero⟩))]
  · rw [stepSig, srcReads_first hi hbefore hna]
    rfl

/-- SIZES once its eight bytes are read: both registers take their fields. -/
theorem stepSizes_of_read {s : State}
    (h : ∀ i, i < 8 → accessible s.cfg (s.blk.segStart + 8 + i) = true) :
    stepSizes s =
      let m (k : Nat) : Byte := s.mem.read (s.blk.segStart + k)
      (s.setSizes (BitVec.ofNat 32 (le32 (m 8) (m 9) (m 10) (m 11)))
        (BitVec.ofNat 32 (le32 (m 12) (m 13) (m 14) (m 15)))).setPhase (.busy .frame) := by
  have hhi (i : Nat) (hi : i < 4) : accessible s.cfg (s.blk.segStart + 12 + i) = true := by
    rw [show s.blk.segStart + 12 + i = s.blk.segStart + 8 + (4 + i) by omega]
    exact h _ (by omega)
  rw [stepSizes, srcReads_all fun i hi => h i (by omega), bind_ok, srcReads_all hhi]
  rfl

/-- A bus error in either field is reported, and neither register is written. -/
theorem stepSizes_of_bus_error {s : State} {i : Nat} (hi : i < 8)
    (h : ∀ j, j < i → accessible s.cfg (s.blk.segStart + 8 + j) = true)
    (hn : accessible s.cfg (s.blk.segStart + 8 + i) = false) :
    stepSizes s = raise .sourceReadFailure (s.blk.segStart + 8 + i) s := by
  rw [stepSizes]
  rcases Nat.lt_or_ge i 4 with hlt | hge
  · rw [srcReads_first hlt h hn]
    rfl
  · have shift (j : Nat) : s.blk.segStart + 12 + j = s.blk.segStart + 8 + (4 + j) := by omega
    obtain ⟨k, rfl⟩ := Nat.exists_eq_add_of_le hge
    rw [srcReads_all fun j hj => h j (by omega), bind_ok,
      srcReads_first (i := k) (by omega) (fun j hj => by rw [shift]; exact h _ (by omega))
        (by rwa [shift]), shift]
    rfl

/-- Settles O22: both fields are read before either register is written. -/
theorem sizesAreLatched : Obligations.SizesAreLatched := by
  intro s hp m
  rw [blockTurn_sizes hp]
  refine ⟨fun hacc => ?_, fun i hi hbefore hna => by rw [stepSizes_of_bus_error hi hbefore hna]⟩
  rw [stepSizes_of_read hacc]
  exact ⟨_, rfl, rfl, rfl, ⟨rfl, rfl, rfl, rfl⟩, rfl, ofNat_toNat_of_lt (le32_lt _ _ _ _),
    ofNat_toNat_of_lt (le32_lt _ _ _ _)⟩

theorem stepFrame_of_ne {s : State} (h : 16 + s.blk.hb + 0x100 ≠ s.blk.segSize) :
    stepFrame s = raise .framingMismatch s.blk.hb s := if_pos h

theorem stepFrame_of_eq {s : State} (h : 16 + s.blk.hb + 0x100 = s.blk.segSize) :
    stepFrame s = s.setPhase (.busy .alloc) := if_neg (not_not.2 h)

/-- Settles O23: one test over the naturals. -/
theorem framingEquation : Obligations.FramingEquation := by
  intro s hp
  rw [blockTurn_frame hp]
  exact ⟨fun hne => congrArg _ (stepFrame_of_ne hne), fun heq => congrArg _ (stepFrame_of_eq heq)⟩

section
variable {s : State}

theorem stepAlloc_of_small (h : s.blk.dstCap.toNat < s.blk.outSize) :
    stepAlloc s = raise .allocationFailure s.blk.outSize s := if_pos h

theorem stepAlloc_of_beyond (hc : s.blk.outSize ≤ s.blk.dstCap.toNat)
    (h : 2 ^ s.cfg.addrW < s.blk.dstBase.toNat + s.blk.outSize) :
    stepAlloc s = raise .allocationFailure s.blk.outSize s := by
  rw [stepAlloc, if_neg (Nat.not_lt.2 hc), if_pos h]

variable (hc : s.blk.outSize ≤ s.blk.dstCap.toNat)
  (hr : s.blk.dstBase.toNat + s.blk.outSize ≤ 2 ^ s.cfg.addrW)
include hc hr

theorem stepAlloc_of_clash (h : s.blk.dstBase.toNat < s.blk.segStart + s.blk.segSize ∧
      s.blk.segStart < s.blk.dstBase.toNat + s.blk.outSize) :
    stepAlloc s = raise .outputAliasesSource s.blk.dstBase.toNat s := by
  rw [stepAlloc, if_neg (Nat.not_lt.2 hc), if_neg (Nat.not_lt.2 hr), if_pos h]

theorem stepAlloc_of_apart (h : ¬ (s.blk.dstBase.toNat < s.blk.segStart + s.blk.segSize ∧
      s.blk.segStart < s.blk.dstBase.toNat + s.blk.outSize)) :
    stepAlloc s = s.setPhase (.busy (.hdr 0)) := by
  rw [stepAlloc, if_neg (Nat.not_lt.2 hc), if_neg (Nat.not_lt.2 hr), if_neg h]

end

/-- Settles O24: the three tests of ALLOC in their order. -/
theorem outputChecksInOrder : Obligations.OutputChecksInOrder := by
  intro s hp need dst clash
  rw [blockTurn_alloc hp]
  exact ⟨fun hcap => congrArg _ (stepAlloc_of_small hcap),
    fun hcap hrange => congrArg _ (stepAlloc_of_beyond hcap hrange),
    fun hcap hrange hclash => congrArg _ (stepAlloc_of_clash hcap hrange hclash),
    fun hcap hrange hclash => congrArg _ (stepAlloc_of_apart hcap hrange hclash)⟩

end Sys2Proof.Machine
end

section
/-! PROOF. HDR as one pass and as a whole, INIT, the end of a decode, and what the steps up to ALLOC read
and write (41_segment_framing.md R151 to R155). -/

namespace Sys2Proof.Machine

/-! ## HDR -/

section
variable {s : State} {i : Fin 256}

theorem stepHdr_of_source_error (h : accessible s.cfg (s.blk.headerAddr i.val) = false) :
    stepHdr i s = raise .sourceReadFailure (s.blk.headerAddr i.val) s := by
  rw [stepHdr, srcRead, if_neg (Bool.eq_false_iff.1 h)]
  rfl

theorem stepHdr_of_output_error (hs : accessible s.cfg (s.blk.headerAddr i.val) = true)
    (hd : accessible s.cfg (s.blk.outAddr i.val) = false) :
    stepHdr i s = raise .outputAccessFailure (s.blk.outAddr i.val) s := by
  rw [stepHdr, srcRead, if_pos hs, bind_ok, outWrite, if_neg (Bool.eq_false_iff.1 hd)]
  rfl

theorem stepHdr_of_accessible (hs : accessible s.cfg (s.blk.headerAddr i.val) = true)
    (hd : accessible s.cfg (s.blk.outAddr i.val) = true) :
    stepHdr i s = (s.setMem (s.mem.write (s.blk.outAddr i.val) (s.mem.read (s.blk.headerAddr i.val)))
      ).setPhase (.busy (afterHdr i)) := by
  rw [stepHdr, srcRead, if_pos hs, bind_ok, outWrite, if_pos hd]
  rfl

end

theorem afterHdr_eq (i : Fin 256) : afterHdr i = if i.val = 255 then .init else .hdr (i + 1) := by
  simp only [afterHdr, Fin.ext_iff]
  rfl

/-- Settles O25: the read, then the write, and the first bus error of the two. -/
theorem headerByteCopied : Obligations.HeaderByteCopied := by
  intro s i hp src dst
  rw [blockTurn_hdr hp, ← afterHdr_eq]
  exact ⟨fun hs => congrArg _ (stepHdr_of_source_error hs),
    fun hs hd => congrArg _ (stepHdr_of_output_error hs hd),
    fun hs hd => congrArg _ (stepHdr_of_accessible hs hd)⟩

/-- The sub-phase with `k` header bytes copied. -/
def hdrSub (k : Nat) : Sub := if h : k < 256 then .hdr ⟨k, h⟩ else .init

theorem hdrSub_of_lt {k : Nat} (h : k < 256) : hdrSub k = .hdr ⟨k, h⟩ := dif_pos h

theorem afterHdr_eq_hdrSub (i : Fin 256) : afterHdr i = hdrSub (i.val + 1) := by
  rw [afterHdr_eq]
  split
  · rename_i h
    rw [h]
    rfl
  · rw [hdrSub_of_lt (by omega)]
    congr 1
    ext
    simp only [Fin.val_add_one_of_lt' (show i.val + 1 < 256 by omega)]

/-- From `s`, at the start of the header copy, to `t`: `k` header bytes are copied. -/
structure HeaderCopied (s : State) (k : Nat) (t : State) : Prop where
  blk : t.blk = { s.blk with phase := .busy (hdrSub k) }
  rest : SameRest s t
  draws : t.draws = s.draws
  wf : t.mem.wf
  copied : ∀ i, i < k → t.mem.read (s.blk.outAddr i) = s.mem.read (s.blk.headerAddr i)
  kept : ∀ a, (∀ i, i < k → a ≠ s.blk.outAddr i) → t.mem.read a = s.mem.read a

/-- No header byte lies in the output (41_segment_framing.md R150). -/
theorem headerAddr_ne_outAddr {c : Config} {b : Block} (h : Allocated c b) {i j : Nat} (hi : i < 0x100)
    (hj : j < b.outSize) : b.headerAddr i ≠ b.outAddr j := by
  have hframing := h.framing
  exact segment_ne_outAddr h (by unfold Block.headerAddr; omega) (by unfold Block.headerAddr; omega) hj

/-- One pass copies one byte more: the header block holds what it held at the start. -/
theorem HeaderCopied.turn {s t : State} {k : Nat} (h : HeaderCopied s k t) (ha : Allocated s.cfg s.blk)
    (hk : k < 0x100) (hs : accessible s.cfg (s.blk.headerAddr k) = true)
    (hd : accessible s.cfg (s.blk.outAddr k) = true) :
    ∃ u, blockTurn t = .next u ∧ HeaderCopied s (k + 1) u := by
  obtain ⟨hblk, ⟨hcfg, hparked, hinbox, hdata⟩, hdraws, hwf, hcopied, hkept⟩ := h
  have hphase : t.blk.phase = .busy (.hdr ⟨k, hk⟩) := by rw [hblk, ← hdrSub_of_lt]
  have hsrc : t.blk.headerAddr k = s.blk.headerAddr k := by rw [hblk]; rfl
  have hdst : t.blk.outAddr k = s.blk.outAddr k := by rw [hblk]; rfl
  have hread : t.mem.read (s.blk.headerAddr k) = s.mem.read (s.blk.headerAddr k) :=
    hkept _ fun i hi => headerAddr_ne_outAddr ha hk (by unfold Block.outSize; omega)
  refine ⟨_, (blockTurn_hdr hphase).trans (congrArg _ (stepHdr_of_accessible (i := ⟨k, hk⟩)
    (by rwa [hcfg, hsrc]) (by rwa [hcfg, hdst]))), ?_, ⟨hcfg, hparked, hinbox, hdata⟩, hdraws,
    write_wf _ _ hwf, fun i hi => ?_, fun a hne => ?_⟩
  · rw [setPhase_blk, setMem_blk, hblk, afterHdr_eq_hdrSub]
  · rw [setPhase_mem, setMem_mem, read_write hwf, hsrc, hdst, hread]
    split
    · rename_i he
      rw [show i = k from Nat.add_left_cancel he]
    · rename_i he
      exact hcopied i (by have : i ≠ k := fun h => he (by rw [h]); omega)
  · rw [setPhase_mem, setMem_mem, hdst, read_write_other hwf _ (hne k k.lt_succ_self)]
    exact hkept a fun i hi => hne i (by omega)

/-- The passes of HDR, one after the other. -/
theorem turns_headerCopied {s : State} (hs : s.Inv) (hp : s.blk.phase = .busy (.hdr 0))
    (hacc : ∀ i, i < 0x100 → accessible s.cfg (s.blk.headerAddr i) = true ∧
      accessible s.cfg (s.blk.outAddr i) = true) (k : Nat) (hk : k ≤ 0x100) :
    ∃ t, turns k s = .next t ∧ HeaderCopied s k t := by
  induction k with
  | zero =>
    exact ⟨s, rfl, by rw [hdrSub_of_lt (by norm_num)]; exact hp ▸ rfl, ⟨rfl, rfl, rfl, rfl⟩, rfl, hs.mem,
      fun i hi => by omega, fun _ _ => rfl⟩
  | succ k ih =>
    obtain ⟨t, ht, h⟩ := ih (by omega)
    obtain ⟨hsrc, hdst⟩ := hacc k hk
    obtain ⟨u, hu, h'⟩ := h.turn (hs.blk.allocated (.inl ⟨0, hp⟩)) hk hsrc hdst
    exact ⟨u, turns_succ ht hu, h'⟩

/-- Settles O26: 256 passes, each of which copies one byte more. -/
theorem headerBlockCopied : Obligations.HeaderBlockCopied := by
  intro s hs hp hacc
  obtain ⟨t, ht, hblk, hrest, hdraws, _, hcopied, hkept⟩ := turns_headerCopied hs hp hacc 0x100 le_rfl
  exact ⟨t, ht, hblk, hrest, hdraws, hcopied, hkept⟩

/-! ## INIT, and the turns of the token loop -/

theorem blockTurn_complete {s : State} (hp : s.blk.phase = .busy .token)
    (h : s.blk.us ≤ s.blk.bytesOut.toNat) : blockTurn s = .next (complete s) := by
  simp only [blockTurn, hp]
  exact if_neg (Nat.not_lt.2 h)

theorem blockTurn_token {s : State} (hp : s.blk.phase = .busy .token)
    (h : s.blk.bytesOut.toNat < s.blk.us) : blockTurn s = runFetched (fetchToken s) := by
  simp only [blockTurn, hp]
  exact if_pos h

theorem fetchToken_of_flag_raised {s t : State} (h : readBits 1 s = .raised t) :
    fetchToken s = .raised t := by
  rw [fetchToken, decodeToken, h, bind_raised]

/-- Settles O27: the cursor is set to E uncut; where hb = 0, E is below the payload, so that the first
fetch underflows. -/
theorem initSetsTheCursor : Obligations.InitSetsTheCursor := by
  intro s hs hp
  obtain ⟨halloc, -, -⟩ := hs.blk.busy _ hp
  have hoff : (stepInit s).blk.cursor.offset.toNat = s.blk.segStart + 16 + s.blk.hb - 1 :=
    stepInit_offset hs.legal halloc.toFramed
  refine ⟨stepInit s, blockTurn_init hp, rfl, by omega, rfl, rfl, fun hhb => ?_⟩
  have ho : (stepInit s).blk.cursor.offset.toNat = s.blk.segStart + 15 := by omega
  have hfill : fillPool (stepInit s) =
      .raised (raise .sourceUnderflow (s.blk.segStart + 15) (stepInit s)) :=
    ho ▸ fillPool_of_underflow rfl (by rw [ho]; exact Nat.lt_succ_self _)
  refine ⟨ho, fun n hn => readBits_of_fill_raised hn hfill, fun hus => ?_, fun hus => ?_⟩
  · rw [blockTurn_token rfl (by exact hus),
      fetchToken_of_flag_raised (readBits_of_fill_raised Nat.one_pos hfill)]
    rfl
  · exact blockTurn_complete rfl (by exact hus.le)

/-! ## DONE -/

/-- Of a running decode's turns only the one at the loop's head with no byte to come ends in DONE. -/
theorem Turn.of_done {s t : State} (T : Turn s t) (hb : s.blk.isBusy = true) (hd : t.blk.phase = .done) :
    s.blk.phase = .busy .token ∧ s.blk.us ≤ s.blk.bytesOut.toNat ∧ t = complete s := by
  cases T with
  | done hp hu => exact ⟨hp, hu, rfl⟩
  | stay hn => rw [hn] at hb; cases hb
  | fetchError _ _ ht =>
    obtain ⟨c, l, e, info, _, rfl⟩ := ht.state
    cases hd
  | copy hp _ _ _ t ht =>
    subst ht
    split at hd
    · cases hd
    · cases hp.symm.trans hd
  | _ => cases hd

/-- Settles O28: DONE comes by one case of a turn, whose test the invariant makes BYTES_OUT = us. -/
theorem doneExactlyAtUs : Obligations.DoneExactlyAtUs := by
  intro s t hs hb h
  have T := turn_of_blockTurn h
  refine ⟨⟨fun hd => ?_, fun ⟨hp, hn⟩ => ?_⟩, fun hd => (T.of_done hb hd).2.2⟩
  · obtain ⟨hp, hu, -⟩ := T.of_done hb hd
    exact ⟨hp, BitVec.eq_of_toNat_eq (le_antisymm (hs.blk.inLoop (.inl hp)).count hu)⟩
  · rw [← Host.Outcome.next.inj ((blockTurn_complete hp (by rw [hn]; exact le_rfl)).symm.trans h)]
    rfl

/-! ## What the steps up to ALLOC read and write -/

section
variable {Q : State → State → Prop} {s o : State}

/-- Source bytes that are the same in both machines. -/
theorem srcReads_over (hQ : ∀ e n, Q (raise e n s) ((raise e n s).over o)) (n : Nat) {a : Nat}
    (h : ∀ i, i < n → o.mem.read (a + i) = s.mem.read (a + i)) :
    Agree (fun x y => x = s ∧ y = s.over o) Q (srcReads n a s) (srcReads n a (s.over o)) := by
  induction n generalizing a with
  | zero => exact ⟨rfl, rfl, rfl⟩
  | succ n ih =>
    refine agree_bind (srcRead_over hQ (h 0 n.succ_pos)) ?_
    rintro b _ _ - - ⟨rfl, rfl⟩
    refine agree_bind (ih fun i hi => ?_) ?_
    · rw [Nat.add_assoc, Nat.add_comm 1]
      exact h (i + 1) (Nat.succ_lt_succ hi)
    · rintro bs _ _ - - ⟨rfl, rfl⟩
      exact ⟨rfl, rfl, rfl⟩

end

section
variable {s : State} {m : Memory}

theorem stepPre_setMem : stepPre (s.setMem m) = (stepPre s).setMem m := by
  simp only [stepPre, apply_ite (State.setMem · m)]
  rfl

theorem stepFrame_setMem : stepFrame (s.setMem m) = (stepFrame s).setMem m := by
  simp only [stepFrame, apply_ite (State.setMem · m)]
  rfl

theorem stepAlloc_setMem : stepAlloc (s.setMem m) = (stepAlloc s).setMem m := by
  simp only [stepAlloc, apply_ite (State.setMem · m)]
  rfl

variable (h : ∀ a, s.blk.segStart ≤ a → a < s.blk.segStart + 16 → m.read a = s.mem.read a)
include h

/-- Up to 16 prologue bytes read in both memories. -/
theorem srcReads_setMem {k n : Nat} (hk : k + n ≤ 16) :
    Agree (fun x y => x = s ∧ y = s.setMem m) (fun x y => y = x.setMem m)
      (srcReads n (s.blk.segStart + k) s) (srcReads n (s.blk.segStart + k) (s.setMem m)) :=
  srcReads_over (Q := fun x y => y = x.setMem m) (s := s) (o := s.setMem m) (fun _ _ => rfl) n
    fun i hi => h (s.blk.segStart + k + i) (by omega) (by omega)

theorem stepSig_setMem : stepSig (s.setMem m) = (stepSig s).setMem m := by
  refine finalState_agree (Q := fun x y => y = x.setMem m)
    (agree_bind (srcReads_setMem h (k := 0) (by norm_num)) ?_)
  rintro bytes s _ - - ⟨rfl, rfl⟩
  by_cases hsig : signatureAccepted s.cfg (beBytes bytes) = true
  · rw [if_pos hsig, if_pos (by exact hsig)]
    exact ⟨rfl, rfl⟩
  · rw [if_neg hsig, if_neg (by exact hsig)]
    exact rfl

theorem stepSizes_setMem : stepSizes (s.setMem m) = (stepSizes s).setMem m := by
  refine finalState_agree (Q := fun x y => y = x.setMem m)
    (agree_bind (srcReads_setMem h (k := 8) (by norm_num)) ?_)
  rintro f _ _ - - ⟨rfl, rfl⟩
  refine agree_bind (srcReads_setMem h (k := 12) (by norm_num)) ?_
  rintro g _ _ - - ⟨rfl, rfl⟩
  exact ⟨rfl, rfl⟩

end

/-- The sub-phases up to ALLOC, in which nothing is written (41_segment_framing.md R155). -/
def Block.upToAlloc (b : Block) : Prop :=
  b.phase = .busy .pre ∨ b.phase = .busy .sig ∨ b.phase = .busy .sizes ∨ b.phase = .busy .frame ∨
    b.phase = .busy .alloc

theorem Turn.upToAlloc_frame {s t : State} (T : Turn s t) (hp : s.blk.upToAlloc) :
    t.mem = s.mem ∧ t.draws = s.draws ∧ SameRest s t ∧ t.blk = { s.blk with
      phase := t.blk.phase, errCode := t.blk.errCode, errInfo := t.blk.errInfo,
      uncompSize := t.blk.uncompSize, hbRelOff := t.blk.hbRelOff } := by
  cases T with
  | stay | error | pre | sig | sizes | frame | alloc => exact ⟨rfl, rfl, ⟨rfl, rfl, rfl, rfl⟩, rfl⟩
  | fetchError h => rcases h with h | h <;> simp [Block.upToAlloc, h] at hp
  | _ => simp_all [Block.upToAlloc] -- every other case is of a later sub-phase

/-- Up to ALLOC a turn reads the prologue only. -/
theorem blockTurn_setMem {s t : State} {m : Memory} (hp : s.blk.upToAlloc) (ht : blockTurn s = .next t)
    (h : ∀ a, s.blk.segStart ≤ a → a < s.blk.segStart + 16 → m.read a = s.mem.read a) :
    blockTurn (s.setMem m) = .next (t.setMem m) := by
  rcases hp with hp | hp | hp | hp | hp
  · cases (blockTurn_pre hp).symm.trans ht
    rw [blockTurn_pre (by exact hp), stepPre_setMem]
  · cases (blockTurn_sig hp).symm.trans ht
    rw [blockTurn_sig (by exact hp), stepSig_setMem h]
  · cases (blockTurn_sizes hp).symm.trans ht
    rw [blockTurn_sizes (by exact hp), stepSizes_setMem h]
  · cases (blockTurn_frame hp).symm.trans ht
    rw [blockTurn_frame (by exact hp), stepFrame_setMem]
  · cases (blockTurn_alloc hp).symm.trans ht
    rw [blockTurn_alloc (by exact hp), stepAlloc_setMem]

/-- Settles O29: the cases of a turn up to ALLOC write no memory, and only SIG and SIZES read it, eight
bytes of the prologue each. -/
theorem nothingWrittenBeforeAlloc : Obligations.NothingWrittenBeforeAlloc := by
  intro s t hp ht
  obtain ⟨hmem, hdraws, hrest, hblk⟩ := (turn_of_blockTurn ht).upToAlloc_frame hp
  exact ⟨hmem, hdraws, hrest, hblk, fun m => blockTurn_setMem hp ht⟩

end Sys2Proof.Machine
end

section
/-! PROOF. The token loop is the decode as a function of the bit stream: from the loop's head, a token at
a time, the machine produces what `refLoop` gives (42_token_decode.md R170 to R174, 44_back_copy.md R210
to R214). -/

namespace Sys2Proof.Machine

/-! ## The fetches as decoding a list of bits -/

/-- The cursor stands in an accessible stream of which `bits` are still to be read. -/
structure Reads (x : State) (bits : List Bool) : Prop where
  onStream : CursorOnStream x
  payload : PayloadAccessible x
  unread : unreadBits x = bits

theorem readBits_reads (n : Nat) (x : State) (bits : List Bool) (h : Reads x bits) :
    Agree Reads (fun _ _ => True) (readBits n x) (listBits n bits) := by
  obtain ⟨hs, hacc, rfl⟩ := h
  rcases readBits_unreadBits n hs hacc with ⟨v, t, e, ht, ⟨c, rfl⟩, e'⟩ | ⟨c, e, e'⟩
  · rw [e, e']
    exact ⟨rfl, ht, hacc, rfl⟩
  · rw [e, e']
    trivial

theorem Reads.setLatches {x : State} {bits : List Bool} (h : Reads x bits) (l : Latches) :
    Reads (x.setLatches l) bits := by
  obtain ⟨hs, hacc, hunread⟩ := h
  exact ⟨hs.congr rfl rfl rfl fun _ _ _ => rfl, hacc, hunread⟩

/-- The bits that are left are the unread ones. -/
theorem bitsRemaining_eq_length {s : State} (h : CursorOnStream s) :
    s.blk.bitsRemaining = (unreadBits s).length := by
  obtain ⟨⟨hge, hle, hfetched⟩, -⟩ := h
  rw [unreadBits, streamBits_length]
  unfold Block.bitsRemaining Block.bitsConsumed Block.payloadStart Block.payloadEnd at *
  omega

/-- A fetch that agrees with the decoder on a list, as `decodeAt` reports it. -/
theorem decoded_of_agree {r : Res State Instr} {r' : Res (List Bool) Instr}
    (h : Agree Reads (fun _ _ => True) r r') :
    (∃ i x rest, r = .ok i x ∧ r'.decoded = .ok (i, rest) ∧ Reads x rest) ∨
    (∃ x, r = .raised x ∧ r'.decoded = .error .outOfBits) := by
  cases r with
  | ok i x =>
    cases r' with
    | ok j rest =>
      obtain ⟨rfl, hx⟩ := h
      exact .inl ⟨i, x, rest, rfl, rfl, hx⟩
    | raised rest => exact h.elim
  | raised x =>
    cases r' with
    | ok j rest => exact h.elim
    | raised rest => exact .inr ⟨x, rfl, rfl⟩

/-- Fetching a token decodes one from the unread bits. -/
theorem fetchToken_decodeAt {s : State} {bits : List Bool} (h : Reads s bits) :
    (∃ i c rest, fetchToken s = .ok i (s.setCursor c) ∧ i.position = .token ∧
      decodeAt .token bits = .ok (i, rest) ∧ Reads (s.setCursor c) rest) ∨
    (∃ t, fetchToken s = .raised t ∧ t.blk.phase = .error ∧
      decodeAt .token bits = .error .outOfBits) := by
  have hagree := decoded_of_agree (decodeToken_agree readBits_reads h)
  change (∃ i x rest, fetchToken s = _ ∧ decodeAt .token bits = _ ∧ _) ∨
    (∃ x, fetchToken s = _ ∧ decodeAt .token bits = _) at hagree
  rcases fetchToken_cases s with ⟨i, c, hf, hc⟩ | ⟨t, hf, ht⟩
  · rw [hf] at hagree
    rcases hagree with ⟨j, x, rest, e, hdec, hx⟩ | ⟨x, e, -⟩
    · cases e
      exact .inl ⟨i, c, rest, hf, hc.position, hdec, hx⟩
    · cases e
  · rw [hf] at hagree
    rcases hagree with ⟨j, x, rest, e, -⟩ | ⟨x, -, hdec⟩
    · cases e
    · obtain ⟨-, -, -, -, -, -, hphase, -⟩ := ht.error.blk
      exact .inr ⟨t, hf, hphase, hdec⟩

/-- Fetching a length code decodes one from the unread bits. -/
theorem fetchLength_decodeAt {s : State} {bits : List Bool} (h : Reads s bits) :
    (∃ i x rest, fetchLength s = .ok i x ∧ LengthRead s i x ∧
      decodeAt .length bits = .ok (i, rest) ∧ Reads x rest) ∨
    (∃ t, fetchLength s = .raised t ∧ t.blk.phase = .error ∧
      decodeAt .length bits = .error .outOfBits) := by
  have hlen : bits.length ≤ s.blk.bitsRemaining := by
    rw [bitsRemaining_eq_length h.onStream, h.unread]
  have hagree := decoded_of_agree (decodeLength_agree (note := noteGroup) readBits_reads
    (fun _ _ _ _ hx => hx.setLatches _) s.blk.bitsRemaining bits.length
    (h.setLatches { s.blk.latches with len := 3, lvl := 0 }) hlen le_rfl)
  change (∃ i x rest, fetchLength s = _ ∧ decodeAt .length bits = _ ∧ _) ∨
    (∃ x, fetchLength s = _ ∧ decodeAt .length bits = _) at hagree
  rcases fetchLength_cases s with ⟨i, x, hf, hx⟩ | ⟨t, hf, ht⟩
  · rw [hf] at hagree
    rcases hagree with ⟨j, y, rest, e, hdec, hy⟩ | ⟨y, e, -⟩
    · cases e
      exact .inl ⟨i, x, rest, hf, hx, hdec, hy⟩
    · cases e
  · rw [hf] at hagree
    rcases hagree with ⟨j, y, rest, e, -⟩ | ⟨y, -, hdec⟩
    · cases e
    · obtain ⟨c, l, e, info, -, rfl⟩ := ht.state
      exact .inr ⟨_, hf, rfl, hdec⟩

/-! ## One output byte -/

theorem produced_length (s : State) : (produced s).length = s.blk.bytesOut.toNat := by
  simp [produced]

/-- The unread bits depend on the cursor, on where the payload lies, and on the payload bytes. -/
theorem unreadBits_congr {s t : State} (hcur : t.blk.cursor = s.blk.cursor)
    (hsrc : t.blk.srcBase = s.blk.srcBase) (hhb : t.blk.hbRelOff = s.blk.hbRelOff)
    (hmem : ∀ a, s.blk.payloadStart ≤ a → a ≤ s.blk.payloadEnd → t.mem.read a = s.mem.read a) :
    unreadBits t = unreadBits s := by
  have hb : t.blk.hb = s.blk.hb := by rw [Block.hb, hhb, Block.hb]
  have hend : t.blk.payloadEnd = s.blk.payloadEnd := by
    simp only [Block.payloadEnd, Block.segStart, hsrc, hb]
  have hconsumed : t.blk.bitsConsumed = s.blk.bitsConsumed := by
    simp only [Block.bitsConsumed, hend, hcur]
  rw [unreadBits, unreadBits, hconsumed, hb]
  refine List.map_congr_left fun j hj => ?_
  have hj := List.mem_range.1 hj
  rw [streamBit, streamBit, hend, hmem _ ?_ (Nat.sub_le _ _)]
  unfold Block.payloadStart Block.payloadEnd
  omega

/-- `t` is `s` with the byte `v` put out at dst and counted. -/
structure ByteOut (v : Byte) (s t : State) : Prop where
  mem : t.mem = s.mem.write (s.blk.outAddr s.blk.dst) v
  bytesOut : t.blk.bytesOut = s.blk.bytesOut + 1
  cursor : t.blk.cursor = s.blk.cursor
  setup : SameSetup s.blk t.blk
  sizes : SameSizes s.blk t.blk

section
variable {s t : State} {v : Byte} (h : ByteOut v s t) (hm : s.mem.wf)
  (hlt : s.blk.bytesOut.toNat < s.blk.us)
include h hm hlt

/-- The byte put out is the next one in production order (42_token_decode.md R173). -/
theorem ByteOut.produced : produced t = produced s ++ [v] := by
  have haddr (i : Nat) : t.blk.outAddr i = s.blk.outAddr i := by
    rw [Block.outAddr, h.setup.dstBase, Block.outAddr]
  have htop : t.blk.top = s.blk.top := by rw [Block.top, Block.us, h.sizes.us, Block.top, Block.us]
  have hsucc : t.blk.bytesOut.toNat = s.blk.bytesOut.toNat + 1 := by rw [h.bytesOut, bytesOut_succ hlt]
  rw [Machine.produced, Machine.produced, hsucc, List.range_succ, List.map_append, List.map_singleton,
    htop, haddr, h.mem]
  congr 1
  · refine List.map_congr_left fun k hk => ?_
    have hk := List.mem_range.1 hk
    rw [haddr, read_write_other hm]
    unfold Block.outAddr Block.dst Block.top
    omega
  · exact congrArg (fun b => [b]) (read_write_same hm _ v)

theorem ByteOut.unreadBits (ha : Allocated s.cfg s.blk) : unreadBits t = unreadBits s :=
  unreadBits_congr h.cursor h.setup.srcBase h.sizes.hb fun a hge hle => by
    rw [h.mem, read_write_other hm v (payload_ne_outAddr ha hge hle (dst_lt_outSize hlt))]

end

/-! ## What the turns of one decode keep -/

theorem Turn.sameSizes {s t : State} (T : Turn s t) (hn : s.blk.phase ≠ .busy .sizes) :
    SameSizes s.blk t.blk := by
  cases T with
  | sizes hp => exact absurd hp hn
  | fetchError _ _ ht =>
    obtain ⟨c, l, e, info, _, rfl⟩ := ht.state
    exact ⟨rfl, rfl⟩
  | length _ _ _ _ hx | lengthError _ _ _ _ hx =>
    obtain ⟨c, l, rfl⟩ := hx.state
    exact ⟨rfl, rfl⟩
  | copy _ _ _ _ t ht => subst ht; split <;> exact ⟨rfl, rfl⟩
  | _ => exact ⟨rfl, rfl⟩

/-- In the token loop a turn writes nothing, or the byte at dst. -/
theorem Turn.mem_of_inLoop {s t : State} (T : Turn s t) (hb : BlockInv s.cfg s.blk)
    (hl : s.blk.inLoop) : t.mem = s.mem ∨
      (s.blk.bytesOut.toNat < s.blk.us ∧ ∃ v, t.mem = s.mem.write (s.blk.outAddr s.blk.dst) v) := by
  cases T with
  | hdr i hp => simp [Block.inLoop, hp] at hl
  | lit _ hu v => exact .inr ⟨hu, v, rfl⟩
  | copy hp _ _ _ t ht =>
    refine .inr ⟨hb.bytesOut_lt_of_copy hp, s.mem.read (s.blk.outAddr s.blk.latches.brIdx), ?_⟩
    subst ht
    split <;> rfl
  | fetchError _ _ ht =>
    obtain ⟨c, l, e, info, _, rfl⟩ := ht.state
    exact .inl rfl
  | length _ _ _ _ hx | lengthError _ _ _ _ hx =>
    obtain ⟨c, l, rfl⟩ := hx.state
    exact .inl rfl
  | _ => exact .inl rfl

/-- A turn of the token loop leaves the copied header alone. -/
theorem Turn.read_header {s t : State} (T : Turn s t) (hs : s.Inv) (hl : s.blk.inLoop) {i : Nat}
    (hi : i < 0x100) : t.mem.read (s.blk.outAddr i) = s.mem.read (s.blk.outAddr i) := by
  rcases T.mem_of_inLoop hs.blk hl with e | ⟨hlt, v, e⟩
  · rw [e]
  · rw [e, read_write_other hs.mem]
    unfold Block.outAddr Block.dst Block.top
    omega

/-- `s` belongs to the token loop that began in `s₀`, or is where it ended; source and output are
accessible. -/
structure Decoding (s₀ s : State) : Prop where
  inv : s.Inv
  onStream : CursorOnStream s
  payload : PayloadAccessible s
  output : OutputAccessible s
  setup : SameSetup s₀.blk s.blk
  sizes : SameSizes s₀.blk s.blk
  header : ∀ i, i < 0x100 → s.mem.read (s₀.blk.outAddr i) = s₀.mem.read (s₀.blk.outAddr i)

section
variable {s₀ s t : State}

theorem SameSetup.outAddr {b b' : Block} (k : SameSetup b b') (i : Nat) :
    b'.outAddr i = b.outAddr i := by
  rw [Block.outAddr, k.dstBase, Block.outAddr]

theorem Decoding.reads (h : Decoding s₀ s) : Reads s (unreadBits s) := ⟨h.onStream, h.payload, rfl⟩

theorem SameSetup.trans {a b c : Block} (h : SameSetup a b) (k : SameSetup b c) : SameSetup a c :=
  ⟨k.regBase.trans h.regBase, k.srcBase.trans h.srcBase, k.segLen.trans h.segLen,
    k.dstBase.trans h.dstBase, k.dstCap.trans h.dstCap, k.before.trans h.before⟩

theorem SameSizes.trans {a b c : Block} (h : SameSizes a b) (k : SameSizes b c) : SameSizes a c :=
  ⟨k.us.trans h.us, k.hb.trans h.hb⟩

/-- Every turn of the token loop keeps it. -/
theorem Decoding.turn (h : Decoding s₀ s) (hl : s.blk.inLoop) (ht : blockTurn s = .next t) :
    Decoding s₀ t := by
  have T := turn_of_blockTurn ht
  obtain ⟨hcfg, -⟩ := T.rest
  have k := T.sameSetup
  have z : SameSizes s.blk t.blk := T.sameSizes (by rcases hl with e | e | e <;> simp [e])
  refine ⟨blockTurn_inv h.inv ht, T.onStream h.inv hl h.onStream, fun a hge hle => ?_, fun i hi => ?_,
    h.setup.trans k, h.sizes.trans z, fun i hi => ?_⟩
  · simp only [Block.payloadStart, Block.payloadEnd, Block.segStart, Block.hb, k.srcBase, z.hb] at hge hle
    exact hcfg ▸ h.payload a hge hle
  · simp only [Block.outSize, Block.us, z.us] at hi
    rw [hcfg, k.outAddr]
    exact h.output i hi
  · rw [← h.header i hi, ← h.setup.outAddr, T.read_header h.inv hl hi]

/-- From `s`, turns of the loop that began in `s₀` come to a state with `P`. -/
def Reaches (s₀ s : State) (P : State → Prop) : Prop :=
  ∃ n t, turns n s = .next t ∧ Decoding s₀ t ∧ P t

variable {P Q : State → Prop}

theorem Reaches.here (h : Decoding s₀ s) (hP : P s) : Reaches s₀ s P := ⟨0, s, rfl, h, hP⟩

theorem Reaches.of_turn (ht : blockTurn s = .next t) (h : Reaches s₀ t P) : Reaches s₀ s P := by
  obtain ⟨n, u, hn, hu⟩ := h
  exact ⟨n + 1, u, by simp only [turns, ht, hn], hu⟩

theorem Reaches.trans (h : Reaches s₀ s P) (hPQ : ∀ t, Decoding s₀ t → P t → Reaches s₀ t Q) :
    Reaches s₀ s Q := by
  obtain ⟨n, t, hn, ht, hP⟩ := h
  obtain ⟨m, u, hm, hu⟩ := hPQ t ht hP
  exact ⟨n + m, u, by simp only [turns_add, hn, hm], hu⟩

end

/-! ## The reference function, case by case -/

/-- What `refToken` does with a back-reference at distance `o` once the distance is read. -/
def refCopy (us o : Nat) (bits : List Bool) (out : List Byte) : Option (List Bool × List Byte) :=
  match decodeAt .length bits with
  | .ok (i, rest) => match codeLength i with
    | some n => if us - out.length < n then none else some (rest, copyFrom o n out)
    | none => none
  | .error _ => none

section
variable {us o : Nat} {bits rest : List Bool} {out : List Byte}

theorem refToken_lit {v : BitVec 8} (h : decodeAt .token bits = .ok (.lit v, rest)) :
    refToken us bits out = some (rest, out ++ [v]) := by
  simp only [refToken, h]

theorem refToken_bref {d : BitVec 13} (h : decodeAt .token bits = .ok (.bref d, rest)) :
    refToken us bits out =
      if out.length < d.toNat + 3 then none else refCopy us (d.toNat + 3) rest out := by
  rw [refToken, h]
  rfl

theorem refToken_error {r : Reject} (h : decodeAt .token bits = .error r) :
    refToken us bits out = none := by
  simp only [refToken, h]

theorem refCopy_ok {i : Instr} {n : Nat} (h : decodeAt .length bits = .ok (i, rest))
    (hn : codeLength i = some n) :
    refCopy us o bits out = if us - out.length < n then none else some (rest, copyFrom o n out) := by
  simp only [refCopy, h, hn]

theorem refCopy_error {r : Reject} (h : decodeAt .length bits = .error r) :
    refCopy us o bits out = none := by
  simp only [refCopy, h]

theorem copyFrom_length (o n : Nat) (out : List Byte) : (copyFrom o n out).length = out.length + n := by
  induction n generalizing out with
  | zero => rfl
  | succ n ih => rw [copyFrom, ih, List.length_append, List.length_singleton]; omega

variable {bits' : List Bool} {out' : List Byte}

theorem refCopy_length_lt (h : refCopy us o bits out = some (bits', out')) :
    out.length < out'.length := by
  cases hdec : decodeAt .length bits with
  | error r => cases (refCopy_error hdec).symm.trans h
  | ok p =>
    obtain ⟨i, rest⟩ := p
    cases hn : codeLength i with
    | none => simp only [refCopy, hdec, hn] at h; cases h
    | some n =>
      have hpos := three_le_of_codeLength hn
      rw [refCopy_ok hdec hn] at h
      split at h
      · cases h
      · cases h
        rw [copyFrom_length]
        omega

/-- Every token produces a byte. -/
theorem refToken_length_lt (h : refToken us bits out = some (bits', out')) :
    out.length < out'.length := by
  cases hdec : decodeAt .token bits with
  | error r => cases (refToken_error hdec).symm.trans h
  | ok p =>
    obtain ⟨i, rest⟩ := p
    cases i with
    | lit v =>
      cases (refToken_lit hdec).symm.trans h
      rw [List.length_append, List.length_singleton]
      exact Nat.lt_succ_self _
    | bref d =>
      rw [refToken_bref hdec] at h
      split at h
      · cases h
      · exact refCopy_length_lt h
    | _ => simp only [refToken, hdec] at h; cases h

end

/-! ## COPY, the length code, the token, the loop -/

/-- Where the machine is when the reference has run a token: at the loop's head with the bits and bytes it
gives, or in ERROR. -/
def AfterToken (r : Option (List Bool × List Byte)) (t : State) : Prop :=
  match r with
  | some (rest, out) => t.blk.phase = .busy .token ∧ unreadBits t = rest ∧ produced t = out
  | none => t.blk.phase = .error

/-- Where the machine is when the reference has run the loop. -/
def AfterLoop (r : Option (List Byte)) (t : State) : Prop :=
  match r with
  | some out => t.blk.phase = .done ∧ produced t = out
  | none => t.blk.phase = .error

theorem blockTurn_bref {s : State} (hp : s.blk.phase = .busy .bref) :
    blockTurn s = runFetched (fetchLength s) := by
  simp only [blockTurn, hp]

theorem blockTurn_copy {s : State} (hp : s.blk.phase = .busy .copy) :
    blockTurn s = .next (copyStep s) := by
  simp only [blockTurn, hp]

/-- One pass of the copy up to its counters. -/
def copied (s : State) : State :=
  advanceCopy (s.setMem (s.mem.write (s.blk.outAddr s.blk.dst)
    (s.mem.read (s.blk.outAddr s.blk.latches.brIdx))))

theorem copyStep_of_accessible {s : State} (hl : s.blk.latches.len ≠ 0)
    (hs : accessible s.cfg (s.blk.outAddr s.blk.latches.brIdx) = true)
    (hd : accessible s.cfg (s.blk.outAddr s.blk.dst) = true) :
    copyStep s = if s.blk.latches.len = 1 then endToken (copied s) else copied s := by
  have hend : (copied s).blk.latches.len = 0 ↔ s.blk.latches.len = 1 := by
    change s.blk.latches.len - 1 = 0 ↔ _
    omega
  rw [copyStep, if_neg hl, outRead, if_pos hs, bind_ok, outWrite, if_pos hd, bind_ok]
  simp only [← hend]
  rfl

theorem exec_lit_of_accessible {s : State} (hd : accessible s.cfg (s.blk.outAddr s.blk.dst) = true)
    (v : BitVec 8) : exec (.lit v) s =
      .next (endToken (countByte (s.setMem (s.mem.write (s.blk.outAddr s.blk.dst) v)))) := by
  change Host.Outcome.next (finalState ((outWrite s.blk.dst v s).bind _)) = _
  rw [outWrite, if_pos hd]
  rfl

/-- BR_IDX is the output index of the byte DIST + 3 back in production order (44_back_copy.md R215). -/
theorem read_brIdx {s : State} (hb : BlockInv s.cfg s.blk) (hp : s.blk.phase = .busy .copy) :
    s.mem.read (s.blk.outAddr s.blk.latches.brIdx) =
      (produced s).getD ((produced s).length - (s.blk.latches.dist.toNat + 3)) 0 := by
  obtain ⟨hloop, hidx, htop, -, -⟩ := hb.busy _ hp
  have hcount := hloop.count
  have hk : s.blk.bytesOut.toNat - (s.blk.latches.dist.toNat + 3) < s.blk.bytesOut.toNat := by
    unfold Block.brIdxOf Block.dst Block.top at *
    omega
  rw [produced_length, produced, List.getD_eq_getElem _ _ (by simpa using hk), List.getElem_map,
    List.getElem_range]
  congr 2
  unfold Block.brIdxOf Block.dst Block.top at *
  omega

section
variable {s₀ s : State}

theorem Decoding.allocated (h : Decoding s₀ s) (hl : s.blk.inLoop) : Allocated s.cfg s.blk :=
  (h.inv.blk.inLoop hl).toAllocated

/-- The byte at dst can be written. -/
theorem Decoding.dst_accessible (h : Decoding s₀ s) (hlt : s.blk.bytesOut.toNat < s.blk.us) :
    accessible s.cfg (s.blk.outAddr s.blk.dst) = true := h.output _ (dst_lt_outSize hlt)

theorem Decoding.brIdx_accessible (h : Decoding s₀ s) (hp : s.blk.phase = .busy .copy) :
    accessible s.cfg (s.blk.outAddr s.blk.latches.brIdx) = true := by
  obtain ⟨-, -, htop, -, -⟩ := h.inv.blk.busy _ hp
  exact h.output _ (by unfold Block.top at htop; unfold Block.outSize; omega)

/-- One pass of the copy puts out the byte DIST + 3 back, and ends the token when LEN runs out. -/
theorem Decoding.copyStep (h : Decoding s₀ s) (hp : s.blk.phase = .busy .copy) :
    Decoding s₀ (copyStep s) ∧ unreadBits (copyStep s) = unreadBits s ∧
    produced (copyStep s) = produced s ++
      [(produced s).getD ((produced s).length - (s.blk.latches.dist.toNat + 3)) 0] ∧
    copyStep s = if s.blk.latches.len = 1 then endToken (copied s) else copied s := by
  have hl : s.blk.inLoop := .inr (.inr hp)
  have hlt := h.inv.blk.bytesOut_lt_of_copy hp
  obtain ⟨-, -, -, hpos, -⟩ := h.inv.blk.busy _ hp
  have heq := copyStep_of_accessible (Nat.ne_of_gt hpos) (h.brIdx_accessible hp) (h.dst_accessible hlt)
  have hbyte : ByteOut (s.mem.read (s.blk.outAddr s.blk.latches.brIdx)) s (Machine.copyStep s) := by
    rw [heq]
    split <;> exact ⟨rfl, rfl, rfl, ⟨rfl, rfl, rfl, rfl, rfl, rfl⟩, rfl, rfl⟩
  exact ⟨h.turn hl (blockTurn_copy hp), hbyte.unreadBits h.inv.mem hlt (h.allocated hl),
    read_brIdx h.inv.blk hp ▸ hbyte.produced h.inv.mem hlt, heq⟩

/-- COPY is the LZ copy at distance DIST + 3 (44_back_copy.md R213, R214). -/
theorem Decoding.copy (n : Nat) (h : Decoding s₀ s) (hp : s.blk.phase = .busy .copy)
    (hn : s.blk.latches.len = n + 1) : Reaches s₀ s (AfterToken (some
      (unreadBits s, copyFrom (s.blk.latches.dist.toNat + 3) (n + 1) (produced s)))) := by
  induction n generalizing s with
  | zero =>
    obtain ⟨hd, hunread, hproduced, heq⟩ := h.copyStep hp
    exact .of_turn (blockTurn_copy hp)
      (.here hd ⟨by rw [heq, if_pos hn]; rfl, hunread, hproduced⟩)
  | succ n ih =>
    obtain ⟨hd, hunread, hproduced, heq⟩ := h.copyStep hp
    rw [if_neg (by omega)] at heq
    rw [heq] at hd hunread hproduced
    have hlen : (copied s).blk.latches.len = n + 1 := by
      change s.blk.latches.len - 1 = n + 1
      omega
    have hrest := ih hd hp hlen
    rw [hunread, hproduced] at hrest
    exact .of_turn (blockTurn_copy hp) (heq ▸ hrest)

/-- From the length code on, a back-reference is `refCopy` (43_vlc_length.md R190, 44_back_copy.md
R212). -/
theorem Decoding.bref (h : Decoding s₀ s) (hp : s.blk.phase = .busy .bref) :
    Reaches s₀ s (AfterToken (refCopy s.blk.us (s.blk.latches.dist.toNat + 3) (unreadBits s)
      (produced s))) := by
  have hl : s.blk.inLoop := .inr (.inl hp)
  have hfetch := blockTurn_bref hp
  rcases fetchLength_decodeAt h.reads with ⟨i, x, rest, hf, hx, hdec, hrest⟩ | ⟨t, hf, ht, hdec⟩
  · rw [hf] at hfetch
    replace hfetch : blockTurn s = .next (lengthDone x.blk.latches.len (codeLevel i) x) :=
      hfetch.trans (exec_of_codeLength hx.length x)
    have hdist := hx.dist
    rw [refCopy_ok hdec hx.length, produced_length]
    obtain ⟨c, l, rfl⟩ := hx.state
    have hrem : ((s.setCursor c).setLatches l).blk.remaining = s.blk.us - s.blk.bytesOut.toNat := rfl
    by_cases hlt : s.blk.us - s.blk.bytesOut.toNat < l.len
    · rw [lengthDone_of_lt (hrem ▸ hlt)] at hfetch
      rw [if_pos (by exact hlt)]
      exact .of_turn hfetch (.here (h.turn hl hfetch) rfl)
    · rw [lengthDone_of_not_lt (hrem ▸ hlt), hx.setLatches] at hfetch
      rw [if_neg (by exact hlt)]
      have hpos := three_le_of_codeLength hx.length
      obtain ⟨n, hn⟩ := Nat.exists_eq_add_of_lt (Nat.lt_of_lt_of_le (by norm_num) hpos : 0 < _)
      rw [Nat.zero_add] at hn
      rw [← hrest.unread, ← hdist, hn]
      exact .of_turn hfetch ((h.turn hl hfetch).copy n rfl hn)
  · rw [hf] at hfetch
    rw [refCopy_error hdec]
    exact .of_turn hfetch (.here (h.turn hl hfetch) ht)

/-- The turns of one token are `refToken` (42_token_decode.md R172, 44_back_copy.md R210). -/
theorem Decoding.token (h : Decoding s₀ s) (hp : s.blk.phase = .busy .token)
    (hlt : s.blk.bytesOut.toNat < s.blk.us) :
    Reaches s₀ s (AfterToken (refToken s.blk.us (unreadBits s) (produced s))) := by
  have hl : s.blk.inLoop := .inl hp
  have hfetch := blockTurn_token hp hlt
  rcases fetchToken_decodeAt h.reads with ⟨i, c, rest, hf, hpos, hdec, hrest⟩ | ⟨t, hf, ht, hdec⟩
  · rw [hf] at hfetch
    cases i with
    | lit v =>
      rw [refToken_lit hdec, ← hrest.unread]
      replace hfetch := hfetch.trans
        (exec_lit_of_accessible (s := s.setCursor c) (h.dst_accessible hlt) v)
      have hbyte : ByteOut v (s.setCursor c) (endToken (countByte ((s.setCursor c).setMem
          (s.mem.write (s.blk.outAddr s.blk.dst) v)))) :=
        ⟨rfl, rfl, rfl, ⟨rfl, rfl, rfl, rfl, rfl, rfl⟩, rfl, rfl⟩
      exact .of_turn hfetch (.here (h.turn hl hfetch) ⟨rfl,
        hbyte.unreadBits h.inv.mem hlt
          ((h.allocated hl).congr ⟨rfl, rfl, rfl, rfl, rfl, rfl⟩ ⟨rfl, rfl⟩),
        hbyte.produced h.inv.mem hlt⟩)
    | bref d =>
      rw [refToken_bref hdec, ← hrest.unread, produced_length]
      have hrange : (s.setCursor c).blk.top < (s.setCursor c).blk.brIdxOf d ↔
          s.blk.bytesOut.toNat < d.toNat + 3 := by
        change s.blk.top < s.blk.brIdxOf d ↔ _
        unfold Block.brIdxOf Block.dst Block.top
        omega
      by_cases hlow : s.blk.bytesOut.toNat < d.toNat + 3
      · replace hfetch := hfetch.trans (execBref_of_lt (hrange.2 hlow))
        rw [if_pos hlow]
        exact .of_turn hfetch (.here (h.turn hl hfetch) rfl)
      · replace hfetch := hfetch.trans (execBref_of_not_lt (hrange.not.2 hlow))
        rw [if_neg hlow]
        exact .of_turn hfetch ((h.turn hl hfetch).bref rfl)
    | _ => cases hpos
  · rw [hf] at hfetch
    rw [refToken_error hdec]
    exact .of_turn hfetch (.here (h.turn hl hfetch) ht)

/-- The token loop is `refLoop`, with a fuel above the payload bytes still to come (42_token_decode.md
R170). -/
theorem Decoding.loop (fuel : Nat) (h : Decoding s₀ s) (hp : s.blk.phase = .busy .token)
    (hf : s.blk.us < fuel + s.blk.bytesOut.toNat) :
    Reaches s₀ s (AfterLoop (refLoop s.blk.us fuel (unreadBits s) (produced s))) := by
  induction fuel generalizing s with
  | zero =>
    have hcount := (h.inv.blk.inLoop (.inl hp)).count
    omega
  | succ fuel ih =>
    rw [refLoop, produced_length]
    by_cases hend : s.blk.us ≤ s.blk.bytesOut.toNat
    · rw [if_pos hend]
      have hturn := blockTurn_complete hp hend
      exact .of_turn hturn (.here (h.turn (.inl hp) hturn) ⟨rfl, rfl⟩)
    · rw [if_neg hend]
      have htoken := h.token hp (Nat.lt_of_not_le hend)
      cases hr : refToken s.blk.us (unreadBits s) (produced s) with
      | none =>
        rw [hr] at htoken
        exact htoken
      | some r =>
        obtain ⟨rest, out⟩ := r
        rw [hr] at htoken
        refine htoken.trans ?_
        rintro t ht ⟨hp', rfl, rfl⟩
        have hus : t.blk.us = s.blk.us := by
          rw [Block.us, ht.sizes.us, ← h.sizes.us, Block.us]
        have hgrow := refToken_length_lt hr
        rw [produced_length, produced_length] at hgrow
        have hrest := ih ht hp' (by omega)
        rwa [hus] at hrest

end

/-! ## The result -/

/-- The result of a decode that is DONE: the header, and the payload bytes in address order. -/
theorem result_of_done {s : State} (hs : s.Inv) (hd : s.blk.phase = .done) : s.result = some (.ok
    ((List.range 0x100).map (fun i => s.mem.read (s.blk.outAddr i)) ++ (produced s).reverse)) := by
  have hcount := hs.blk.done hd
  rw [State.result, hd]
  simp only
  rw [Block.outSize, List.range_add, List.map_append, List.map_map]
  congr 3
  refine List.ext_getElem (by simp [produced_length, hcount]) fun j h _ => ?_
  have hj : j < s.blk.us := by simpa using h
  simp only [List.getElem_map, List.getElem_range, List.getElem_reverse, produced, Function.comp_apply,
    List.length_map, List.length_range, hcount]
  congr 2
  unfold Block.top
  omega

/-- The result of a decode that is in ERROR: the kind of its error (60_exceptions.md R232). -/
theorem result_of_error {s : State} (hs : s.Inv) (he : s.blk.phase = .error) :
    ∃ e, s.result = some (.error e) := by
  have hne := hs.blk.errIff.1 he
  rw [State.result, he]
  cases hc : s.blk.errCode with
  | noError => exact absurd hc hne
  | _ => exact ⟨_, rfl⟩

end Sys2Proof.Machine
end

section
/-! PROOF. A decode from its START: the front end brings a segment that passes the checks to the head of
the token loop, with the header copied and the whole stream unread (41_segment_framing.md R140 to
R156). -/

namespace Sys2Proof.Machine

theorem turns_inv {n : Nat} {s t : State} (hs : s.Inv) (h : turns n s = .next t) : t.Inv := by
  induction n generalizing s with
  | zero => cases h; exact hs
  | succ n ih =>
    rw [turns] at h
    split at h
    · exact ih (blockTurn_inv hs ‹_›) h
    · cases h
    · cases h

/-! ## What the segment in memory declares -/

/-- The segment's byte k. -/
def segByte (s : State) (k : Nat) : Byte := s.mem.read (s.blk.segStart + k)

/-- hb as 00_scope.md R16 defines it, the u32 at segment offset 12. -/
def declaredHb (s : State) : Nat := le32 (segByte s 12) (segByte s 13) (segByte s 14) (segByte s 15)

/-- The payload's bits as the segment declares them (30_encoding.md R95). -/
def declaredBits (s : State) : List Bool :=
  (List.range (8 * declaredHb s)).map fun k =>
    (segByte s (16 + declaredHb s - 1 - k / 8)).getLsbD (7 - k % 8)

/-- The segment and the configuration pass every check of the front end, and every byte of the segment and
of the output is accessible (70_reset_and_hazards.md R264). -/
structure Decodable (s : State) : Prop where
  signature : signatureAccepted s.cfg (beBytes ((List.range 8).map (segByte s))) = true
  framing : 16 + declaredHb s + 0x100 = s.blk.segSize
  fits : s.blk.segStart + s.blk.segSize ≤ 2 ^ s.cfg.addrW
  capacity : 0x100 + declaredUs s.mem s.blk ≤ s.blk.dstCap.toNat
  range : s.blk.dstBase.toNat + (0x100 + declaredUs s.mem s.blk) ≤ 2 ^ s.cfg.addrW
  apart : s.blk.segStart + s.blk.segSize ≤ s.blk.dstBase.toNat ∨
    s.blk.dstBase.toNat + (0x100 + declaredUs s.mem s.blk) ≤ s.blk.segStart
  source : ∀ k, k < s.blk.segSize → accessible s.cfg (s.blk.segStart + k) = true
  output : ∀ i, i < 0x100 + declaredUs s.mem s.blk → accessible s.cfg (s.blk.outAddr i) = true

/-! ## From START to the head of the token loop -/

/-- The machine after START with the declared sizes latched. -/
def sizesLatched (s : State) : State :=
  (acceptStart s).setSizes (BitVec.ofNat 32 (declaredUs s.mem s.blk)) (BitVec.ofNat 32 (declaredHb s))

/-- The machine when the checks have passed: the header copy is next. -/
def afterChecks (s : State) : State := (sizesLatched s).setPhase (.busy (.hdr 0))

section
variable {s : State}

theorem afterChecks_us (s : State) : (afterChecks s).blk.us = declaredUs s.mem s.blk :=
  ofNat_toNat_of_lt (le32_lt _ _ _ _)

theorem afterChecks_hb (s : State) : (afterChecks s).blk.hb = declaredHb s :=
  ofNat_toNat_of_lt (le32_lt _ _ _ _)

theorem afterChecks_outSize (s : State) :
    (afterChecks s).blk.outSize = 0x100 + declaredUs s.mem s.blk := by
  rw [Block.outSize, afterChecks_us]

/-- PRE, SIG, SIZES, FRAME and ALLOC pass, a turn each. -/
theorem Decodable.turns_checks (h : Decodable s) : turns 5 (acceptStart s) = .next (afterChecks s) := by
  have hframing := h.framing
  have hlong : 16 ≤ s.blk.segSize := by omega
  have hpre : blockTurn (acceptStart s) = .next ((acceptStart s).setPhase (.busy .sig)) :=
    (blockTurn_pre rfl).trans (congrArg _ (stepPre_of_prechecked ⟨hlong, h.fits⟩))
  have hsig : blockTurn ((acceptStart s).setPhase (.busy .sig)) =
      .next ((acceptStart s).setPhase (.busy .sizes)) :=
    (blockTurn_sig rfl).trans (congrArg _ ((stepSig_of_read (s := (acceptStart s).setPhase (.busy .sig))
      fun i hi => h.source i (by omega)).trans (if_pos h.signature)))
  have hsizes : blockTurn ((acceptStart s).setPhase (.busy .sizes)) =
      .next ((sizesLatched s).setPhase (.busy .frame)) :=
    (blockTurn_sizes rfl).trans (congrArg _ (stepSizes_of_read fun i hi => by
      rw [Nat.add_assoc]
      exact h.source (8 + i) (by omega)))
  have hframe : blockTurn ((sizesLatched s).setPhase (.busy .frame)) =
      .next ((sizesLatched s).setPhase (.busy .alloc)) :=
    (blockTurn_frame rfl).trans (congrArg _ (stepFrame_of_eq
      (((afterChecks_hb s).symm ▸ h.framing :) : 16 + (afterChecks s).blk.hb + 0x100 = _)))
  have halloc : blockTurn ((sizesLatched s).setPhase (.busy .alloc)) = .next (afterChecks s) := by
    have hsize := afterChecks_outSize s
    have hapart := h.apart
    refine (blockTurn_alloc rfl).trans (congrArg _ (stepAlloc_of_apart ?_ ?_ ?_))
    · exact hsize.trans_le h.capacity
    · exact (congrArg _ hsize).trans_le h.range
    · change ¬ (s.blk.dstBase.toNat < s.blk.segStart + s.blk.segSize ∧
        s.blk.segStart < s.blk.dstBase.toNat + (afterChecks s).blk.outSize)
      omega
  exact turns_succ (turns_succ (turns_succ (turns_succ (turns_succ rfl hpre) hsig) hsizes) hframe) halloc

/-- The head of the token loop, reached by the decode of `s`'s segment: the header is copied, the whole
stream is unread, no byte is produced. -/
structure LoopBegun (s t : State) : Prop where
  decoding : Decoding t t
  phase : t.blk.phase = .busy .token
  us : t.blk.us = declaredUs s.mem s.blk
  unread : unreadBits t = declaredBits s
  produced : produced t = []
  header : ∀ i, i < 0x100 → t.mem.read (t.blk.outAddr i) = segByte s (16 + declaredHb s + i)

/-- INIT leaves the whole stream unread. -/
theorem unreadBits_stepInit {t : State} (hc : t.cfg.Legal) (h : Framed t.cfg t.blk) :
    unreadBits (stepInit t) = (List.range (8 * t.blk.hb)).map (streamBit t) := by
  have hoff := stepInit_offset hc h
  have hconsumed : (stepInit t).blk.bitsConsumed = 0 := by
    rw [Block.bitsConsumed, hoff]
    change 8 * (t.blk.payloadEnd - t.blk.payloadEnd) - 0 = 0
    omega
  rw [unreadBits, hconsumed, streamBits]
  refine List.map_congr_left fun k _ => ?_
  rw [Nat.zero_add]
  rfl

/-- Every check passed, the header copied, then INIT: the token loop begins. -/
theorem Decodable.loopBegun (h : Decodable s) {t : State} (hinv : t.Inv) (hcfg : t.cfg = s.cfg)
    (hblk : t.blk = { (afterChecks s).blk with phase := .busy .init })
    (hseg : ∀ k, k < s.blk.segSize → t.mem.read (s.blk.segStart + k) = segByte s k)
    (hheader : ∀ i, i < 0x100 →
      t.mem.read (s.blk.outAddr i) = segByte s (16 + declaredHb s + i)) :
    LoopBegun s (stepInit t) := by
  have hp : t.blk.phase = .busy .init := by rw [hblk]
  have hus : t.blk.us = declaredUs s.mem s.blk := by rw [hblk]; exact afterChecks_us s
  have hhb : t.blk.hb = declaredHb s := by rw [hblk]; exact afterChecks_hb s
  have hstart : t.blk.segStart = s.blk.segStart := by rw [hblk]; rfl
  have haddr (i : Nat) : t.blk.outAddr i = s.blk.outAddr i := by rw [hblk]; rfl
  have hframed : Framed t.cfg t.blk := (hinv.blk.allocated (.inr (.inl hp))).toFramed
  have hframing := h.framing
  refine ⟨⟨blockTurn_inv hinv (blockTurn_init hp), stepInit_onStream hinv.legal hframed,
    fun a hge hle => ?_, fun i hi => ?_, ⟨rfl, rfl, rfl, rfl, rfl, rfl⟩, ⟨rfl, rfl⟩, fun _ _ => rfl⟩,
    rfl, hus, ?_, rfl, fun i hi => ?_⟩
  · change t.blk.segStart + 16 ≤ a at hge
    change a ≤ t.blk.segStart + 16 + t.blk.hb - 1 at hle
    obtain ⟨k, rfl⟩ := Nat.exists_eq_add_of_le (show s.blk.segStart ≤ a by omega)
    exact hcfg ▸ h.source k (by omega)
  · change i < 0x100 + t.blk.us at hi
    change accessible t.cfg (t.blk.outAddr i) = true
    rw [hcfg, haddr]
    exact h.output i (hus ▸ hi)
  · rw [unreadBits_stepInit hinv.legal hframed, hhb]
    refine List.map_congr_left fun k hk => ?_
    have hk := List.mem_range.1 hk
    rw [← hseg _ (by omega), streamBit, Block.payloadEnd, hstart, hhb]
    congr 2
    omega
  · change t.mem.read (t.blk.outAddr i) = _
    rw [haddr, hheader i hi]

/-- HDR and INIT, once the checks have passed. -/
theorem Decodable.turns_loopBegun (h : Decodable s) (hinv : (afterChecks s).Inv) :
    ∃ t, turns 257 (afterChecks s) = .next t ∧ LoopBegun s t := by
  have hframing := h.framing
  have hsize := afterChecks_outSize s
  have halloc : Allocated (afterChecks s).cfg (afterChecks s).blk := hinv.blk.allocated (.inl ⟨0, rfl⟩)
  have hheader (i : Nat) : (afterChecks s).blk.headerAddr i =
      s.blk.segStart + (16 + declaredHb s + i) := by
    rw [← afterChecks_hb s, ← Nat.add_assoc, ← Nat.add_assoc]
    rfl
  obtain ⟨t, ht, hblk, hrest, -, hcopied, hkept⟩ := headerBlockCopied (afterChecks s) hinv rfl
    fun i hi => ⟨hheader i ▸ h.source _ (by omega), h.output i (by omega)⟩
  refine ⟨stepInit t, turns_succ ht (blockTurn_init (by rw [hblk])),
    h.loopBegun (turns_inv hinv ht) hrest.cfg hblk (fun k hk => ?_) fun i hi => ?_⟩
  · exact hkept _ fun i hi => segment_ne_outAddr halloc (Nat.le_add_right _ _)
      (Nat.add_lt_add_left hk _) (by omega)
  · exact (hcopied i hi).trans (congrArg _ (hheader i))

end

/-! ## The whole decode -/

/-- The payload in production order, as the decode of the declared stream as a function gives it. -/
def declaredPayload (s : State) : Option (List Byte) :=
  refLoop (declaredUs s.mem s.blk) (declaredUs s.mem s.blk + 1) (declaredBits s) []

/-- `t` has the source's result of decoding the segment of `s` (41_segment_framing.md R156). -/
def HasSourceResult (s t : State) : Prop :=
  (∀ out, declaredPayload s = some out →
    t.result = some (.ok ((List.range 0x100).map (fun i => segByte s (16 + declaredHb s + i)) ++
      out.reverse))) ∧
  (declaredPayload s = none → ∃ e, t.result = some (.error e))

theorem LoopBegun.result {s t : State} (h : LoopBegun s t) :
    ∃ n u, turns n t = .next u ∧ HasSourceResult s u := by
  obtain ⟨n, u, hn, hu, hend⟩ := h.decoding.loop (t.blk.us + 1) h.phase (by omega)
  rw [h.unread, h.produced, h.us, ← declaredPayload] at hend
  refine ⟨n, u, hn, fun out hout => ?_, fun hnone => ?_⟩
  · rw [hout] at hend
    obtain ⟨hdone, rfl⟩ := hend
    rw [result_of_done hu.inv hdone]
    congr 3
    refine List.map_congr_left fun i hi => ?_
    have hi := List.mem_range.1 hi
    rw [hu.setup.outAddr, hu.header i hi, h.header i hi]
  · rw [hnone] at hend
    exact result_of_error hu.inv hend

/-- START and the decode it begins. -/
theorem Decodable.result {s : State} (h : Decodable s) (hs : s.Inv) (hb : s.blk.isBusy = false)
    (hc : startClashes s = false) :
    ∃ t₀ n t, exec .start s = .next t₀ ∧ turns n t₀ = .next t ∧ HasSourceResult s t := by
  have hstart := execStart_accepted hb hc
  have hchecks := h.turns_checks
  obtain ⟨t, ht, hbegun⟩ := h.turns_loopBegun (turns_inv (execStart_inv hs hstart) hchecks)
  obtain ⟨n, u, hn, hu⟩ := hbegun.result
  exact ⟨acceptStart s, 5 + (257 + n), u, hstart, by simp only [turns_add, hchecks, ht, hn], hu⟩

/-- Settles O57: the checks pass in five turns, the header takes 256 and INIT one, and from the head of
the loop the machine is the reference function. -/
theorem decodeFromStart : Obligations.DecodeFromStart := by
  intro s hs hb hc b m us hb' sig bits header last hsig hframing hfits hcap hrange hapart hsource houtput
  exact Decodable.result
    { signature := signatureAccepted_iff.2 hsig
      framing := hframing
      fits := hfits
      capacity := hcap
      range := (Nat.add_assoc _ _ _).symm.trans_le hrange
      apart := hapart.imp_right (Nat.add_assoc _ _ _).symm.trans_le
      source := fun k hk => hsource _ (Nat.le_add_right _ _) (Nat.add_lt_add_left hk _)
      output := fun i hi => houtput _ (Nat.le_add_right _ _)
        ((Nat.add_lt_add_left hi _).trans_eq (Nat.add_assoc _ _ _).symm) } hs hb hc

end Sys2Proof.Machine
end

section
/-! PROOF. What the turns of the token loop do with a decoded token, and the loop as the reference
function (42_token_decode.md R170 to R173). -/

namespace Sys2Proof.Machine

/-! ## The loop is the reference function -/

/-- A decode on an accessible stream belongs to itself, so a loop may begin at any state of it. -/
theorem Decoding.begin {s : State} (hs : s.Inv) (hc : CursorOnStream s) (hp : PayloadAccessible s)
    (ho : OutputAccessible s) : Decoding s s :=
  ⟨hs, hc, hp, ho, ⟨rfl, rfl, rfl, rfl, rfl, rfl⟩, ⟨rfl, rfl⟩, fun _ _ => rfl⟩

/-- Settles O55: from the loop's head the machine is `refLoop`, a token at a time. -/
theorem decodeIsTheReferenceFunction : Obligations.DecodeIsTheReferenceFunction := by
  intro s hs hp hc hpay hout
  obtain ⟨n, t, ht, -, hend⟩ :=
    (Decoding.begin hs hc hpay hout).loop (s.blk.us + 1) hp (by omega)
  refine ⟨fun out he => ?_, fun he => ?_⟩
  · rw [he] at hend
    exact ⟨n, t, ht, hend⟩
  · rw [he] at hend
    exact ⟨n, t, ht, hend⟩

/-! ## LIT -/

theorem exec_lit_of_not_accessible {s : State}
    (hd : accessible s.cfg (s.blk.outAddr s.blk.dst) = false) (v : BitVec 8) :
    exec (.lit v) s = .next (raise .outputAccessFailure (s.blk.outAddr s.blk.dst) s) := by
  change Host.Outcome.next (finalState ((outWrite s.blk.dst v s).bind _)) = _
  rw [outWrite, if_neg (Bool.eq_false_iff.1 hd)]
  rfl

/-- Settles O12: LIT is its write, then the count and the end of the token; a bus error stores
nothing. -/
theorem litWritesItsByte : Obligations.LitWritesItsByte := by
  intro s v hm hlt
  refine ⟨by unfold Block.top; omega, rfl, fun hd => ?_, fun hd => exec_lit_of_not_accessible hd v⟩
  exact ⟨_, exec_lit_of_accessible hd v, rfl, bytesOut_succ hlt, ⟨rfl, rfl, rfl, rfl⟩,
    read_write hm _ v⟩

/-! ## A step runs what was fetched -/

/-- With no event waiting the selected instance takes a turn (log 7). -/
theorem step_of_inbox_nil {s : State} (h : s.inbox = []) : step s = blockTurn s := by
  simp only [step, h]

theorem runFetched_ok {r : Res State Instr} {i : Instr} {t : State} (h : r = .ok i t) :
    runFetched r = exec i t := by rw [h, runFetched]

theorem runFetched_raised {r : Res State Instr} {t : State} (h : r = .raised t) :
    runFetched r = .next t := by rw [h, runFetched]

/-- Settles O44: the turn at the loop's head and the one after a distance are `runFetched` of their
fetch, and a CTRL write reaches the selected instance's CTRL. -/
theorem stepRunsTheDecodedInstruction : Obligations.StepRunsTheDecodedInstruction := by
  intro s
  refine ⟨fun hi hp hlt => ?_, fun hi hp => ?_, fun v i rest hdec => ?_, fun rest => rfl⟩
  · rw [step_of_inbox_nil hi, blockTurn_token hp hlt]
    exact ⟨fun _ _ => runFetched_ok, fun _ => runFetched_raised⟩
  · rw [step_of_inbox_nil hi, blockTurn_bref hp]
    exact ⟨fun _ _ => runFetched_ok, fun _ => runFetched_raised⟩
  · refine (regAccess_base { s with inbox := rest } _).trans ?_
    simp only [writeSlot, hdec]

/-- On an accessible stream a token fails only for want of bits, with OFFSET at S + 15
(40_bit_reader.md R123). -/
theorem fetchToken_fails {s t : State} (h : CursorOnStream s) (hacc : PayloadAccessible s)
    (hf : fetchToken s = .raised t) :
    ∃ c, t = raise .sourceUnderflow (s.blk.segStart + 15) (s.setCursor c) := by
  rcases bind_eq_raised hf with hflag | ⟨f, x, hflag, hfield⟩
  · obtain ⟨-, c, -, -, rfl⟩ := readBits_fails h hacc hflag
    exact ⟨c, rfl⟩
  · have field (n : Nat) (hr : readBits n x = .raised t) :
        ∃ c, t = raise .sourceUnderflow (s.blk.segStart + 15) (s.setCursor c) := by
      obtain ⟨hx, -, -⟩ := readBits_onStream h hflag
      rw [readBits_ok_frame hflag] at hr hx
      obtain ⟨-, c, -, -, rfl⟩ := readBits_fails hx hacc hr
      exact ⟨c, rfl⟩
    split at hfield
    · rcases bind_eq_raised hfield with hr | ⟨_, _, _, hok⟩
      · exact field 8 hr
      · cases hok
    · rcases bind_eq_raised hfield with hr | ⟨_, _, _, hok⟩
      · exact field 13 hr
      · cases hok

/-- Settles O45: the turn fetches what the decoder reads from the unread bits, and moves the cursor by
what the fetch consumed. -/
theorem tokenFetchFollowsTheDecoder : Obligations.TokenFetchFollowsTheDecoder := by
  intro s hi hp hlt hc hacc
  have hstep := (step_of_inbox_nil hi).trans (blockTurn_token hp hlt)
  rcases fetchToken_decodeAt ⟨hc, hacc, rfl⟩ with ⟨i, c, rest, hf, -, hdec, hreads⟩ | ⟨t, hf, -, hdec⟩
  · refine ⟨fun j rest' hdec' => ?_, fun r hr => (by cases hdec.symm.trans hr)⟩
    cases hdec.symm.trans hdec'
    refine ⟨c, hstep.trans (runFetched_ok hf), hreads.onStream, hreads.unread, ?_⟩
    rcases fetchToken_cases s with ⟨j, c', hf', hread⟩ | ⟨t, hf', -⟩
    · obtain ⟨rfl, hstate⟩ := Res.ok.inj (hf.symm.trans hf')
      obtain ⟨-, hconsumed, -⟩ := hread.forward hc.inRange
      rw [hstate, hconsumed]
    · cases hf.symm.trans hf'
  · refine ⟨fun j rest' hdec' => (by cases hdec.symm.trans hdec'), fun r hr => ?_⟩
    obtain ⟨c, rfl⟩ := fetchToken_fails hc hacc hf
    exact ⟨c, hstep.trans (runFetched_raised hf)⟩

end Sys2Proof.Machine
end

section
/-! PROOF. The work of a decode is bounded: at most 14 stream bits for each payload byte
(42_token_decode.md R177). -/

namespace Sys2Proof.Machine

/-! ## The bits consumed -/

/-- Outside the token loop the bound says nothing. -/
theorem withinWork_of_not_inLoop {b : Block} (h : ¬ b.inLoop) : WithinWork b := by
  unfold Block.inLoop at h
  unfold WithinWork
  cases hp : b.phase with
  | busy sub =>
    cases sub with
    | token | bref | copy => simp [hp] at h
    | _ => trivial
  | _ => trivial

/-- A length code of `n` has at most 14·(n - 1) bits (43_vlc_length.md R193). -/
theorem width_le_of_codeLength {i : Instr} {n : Nat} (h : codeLength i = some n) :
    i.width + 14 ≤ 14 * n := by
  cases i with
  | g2 g => cases h; simp only [lenG2, Instr.width]; omega
  | g3 g => cases h; simp only [lenG3, Instr.width]; omega
  | g5 g => cases h; simp only [lenG5, Instr.width]; omega
  | g8 g => cases h; simp only [lenG8, Instr.width]; omega
  | tail k g => cases h; simp only [lenTail, Instr.width]; omega
  | _ => cases h

theorem stepInit_bitsConsumed {s : State} (hc : s.cfg.Legal) (h : Framed s.cfg s.blk) :
    (stepInit s).blk.bitsConsumed = 0 := by
  rw [Block.bitsConsumed, stepInit_offset hc h]
  change 8 * (s.blk.payloadEnd - s.blk.payloadEnd) - 0 = 0
  omega

/-- LIT takes 9 bits for its byte, BREF and its length code at most 14 for each of theirs, and the copy
takes none. -/
theorem Turn.withinWork {s t : State} (T : Turn s t) (hc : s.cfg.Legal) (h : BlockInv s.cfg s.blk)
    (hw : WithinWork s.blk) : WithinWork t.blk := by
  cases T with
  | stay => exact hw
  | error | pre | sig | sizes | frame | alloc | done | litError | brefError | lengthError =>
    exact withinWork_of_not_inLoop (by simp [Block.inLoop, complete])
  | hdr i => exact withinWork_of_not_inLoop (by unfold Block.inLoop afterHdr; split <;> simp_all)
  | fetchError _ _ ht =>
    obtain ⟨c, l, e, info, _, rfl⟩ := ht.state
    exact withinWork_of_not_inLoop (by simp [Block.inLoop])
  | init hp =>
    obtain ⟨halloc, -, -⟩ := h.busy _ hp
    exact (stepInit_bitsConsumed hc halloc.toFramed).trans_le (Nat.zero_le _)
  | lit hp hlt v c _ hread =>
    obtain ⟨-, hconsumed, -⟩ := hread.forward (h.inLoop (.inl hp)).cursor
    have hsucc := bytesOut_succ hlt
    simp only [WithinWork, hp] at hw
    change (s.setCursor c).blk.bitsConsumed ≤ 14 * (s.blk.bytesOut + 1).toNat
    rw [hconsumed, hsucc, Instr.width]
    omega
  | bref hp _ d c _ hread =>
    obtain ⟨-, hconsumed, -⟩ := hread.forward (h.inLoop (.inl hp)).cursor
    simp only [WithinWork, hp] at hw
    change (s.setCursor c).blk.bitsConsumed ≤ 14 * s.blk.bytesOut.toNat + 14
    rw [hconsumed, Instr.width]
    omega
  | length hp i x _ hread =>
    obtain ⟨-, hconsumed, -⟩ := hread.forward (h.inLoop (.inr (.inl hp))).cursor
    have hwidth := width_le_of_codeLength hread.length
    obtain ⟨c, l, hx⟩ := hread.state
    have hout : x.blk.bytesOut = s.blk.bytesOut := by rw [hx]; rfl
    simp only [WithinWork, hp] at hw
    change x.blk.bitsConsumed ≤ 14 * (x.blk.bytesOut.toNat + x.blk.latches.len)
    rw [hconsumed, hout]
    omega
  | copyNone hp hl =>
    simp only [WithinWork, hp, hl] at hw
    exact hw
  | copy hp hl _ _ t ht =>
    have hsucc := bytesOut_succ (h.bytesOut_lt_of_copy hp)
    simp only [WithinWork, hp] at hw
    have hwork : t.blk.bitsConsumed ≤ 14 * (t.blk.bytesOut.toNat + t.blk.latches.len) := by
      subst ht
      change s.blk.bitsConsumed ≤ 14 * ((s.blk.bytesOut + 1).toNat + (s.blk.latches.len - 1))
      rw [hsucc]
      omega
    split
    · rename_i hend
      rw [hend] at hwork
      exact hwork
    · have hp' : t.blk.phase = .busy .copy := by rw [ht]; exact hp
      simp only [WithinWork, hp']
      exact hwork

/-! ## Every step keeps the bound -/

/-- The invariant, and the bound of every instance. -/
structure BoundedWork (s : State) : Prop where
  inv : s.Inv
  work : ∀ b ∈ s.instances, WithinWork b

/-- A change of the selected instance alone. -/
theorem BoundedWork.of_selected {s t : State} (h : BoundedWork s) (hinv : t.Inv)
    (hparked : t.parked = s.parked) (hblk : WithinWork t.blk) : BoundedWork t := by
  refine ⟨hinv, List.forall_mem_cons.2 ⟨hblk, fun b hb => ?_⟩⟩
  exact h.work b (List.mem_cons_of_mem _ (hparked ▸ hb))

theorem BoundedWork.blk {s : State} (h : BoundedWork s) : WithinWork s.blk :=
  h.work _ List.mem_cons_self

theorem not_inLoop_of_not_isBusy {b : Block} (h : b.isBusy = false) : ¬ b.inLoop := by
  rintro (hp | hp | hp) <;> rw [Block.isBusy, hp] at h <;> cases h

theorem blockTurn_boundedWork {s t : State} (h : BoundedWork s) (ht : blockTurn s = .next t) :
    BoundedWork t := by
  have T := turn_of_blockTurn ht
  obtain ⟨-, hparked, -⟩ := T.rest
  exact h.of_selected (blockTurn_inv h.inv ht) hparked (T.withinWork h.inv.legal h.inv.blk h.blk)

/-- A write of a slot changes nothing of a running decode, and a START begins before the loop. -/
theorem writeSlot_boundedWork {slot : Slot} {v : Word} {s t : State} (h : BoundedWork s)
    (ht : writeSlot slot v s = .next t) : BoundedWork t := by
  have hinv := writeSlot_inv h.inv ht
  cases hb : s.blk.isBusy with
  | true =>
    cases (writeSlot_of_isBusy slot v hb).symm.trans ht
    exact h
  | false =>
    rcases writeSlot_cases slot v s with e | e | ⟨b, e, hbe⟩
    · rcases execStart_eq_next (e.symm.trans ht) with rfl | ⟨-, rfl⟩
      · exact h
      · exact h.of_selected hinv rfl trivial
    · cases e.symm.trans ht
      exact h
    · rw [configWrite_of_not_isBusy hb] at e
      cases e.symm.trans ht
      refine h.of_selected hinv rfl (withinWork_of_not_inLoop (not_inLoop_of_not_isBusy ?_))
      rw [setBlk_blk, hbe]
      exact hb

theorem step_boundedWork {s t : State} (h : BoundedWork s) (ht : step s = .next t) : BoundedWork t :=
  step_keeps (P := BoundedWork)
    (inbox := fun _ _ h => ⟨⟨h.inv.legal, h.inv.blk, h.inv.parked, h.inv.mem⟩, h.work⟩)
    (turn := fun _ _ => blockTurn_boundedWork)
    (slot := fun _ _ _ _ => writeSlot_boundedWork)
    (read := fun _ _ _ h => ⟨⟨h.inv.legal, h.inv.blk, h.inv.parked, h.inv.mem⟩, h.work⟩)
    (write := fun _ _ _ _ h ht => by
      have hinv := hostMemWrite_inv h.inv ht
      obtain ⟨-, rfl⟩ := hostMemWrite_eq_next ht
      exact ⟨hinv, h.work⟩)
    (reset := fun _ h => h.of_selected (resetInstance_inv h.inv) rfl trivial)
    (select := fun k s h =>
      ⟨selectInstance_inv k h.inv, fun b hb => h.work b ((selectInstance_perm k s).mem_iff.1 hb)⟩)
    h ht

/-- Settles O50: every kind of event keeps the bound, and DONE leaves the cursor where the loop's head
had it, with BYTES_OUT at most us. -/
theorem workStaysBounded : Obligations.WorkStaysBounded := by
  refine ⟨fun s t hs hw ht => (step_boundedWork ⟨hs, hw⟩ ht).work, fun s t hs ht => ⟨fun hp => ?_, ?_⟩⟩
  · obtain ⟨halloc, -, -⟩ := hs.blk.busy _ hp
    rw [eq_stepInit_of_blockTurn hp ht]
    exact stepInit_bitsConsumed hs.legal halloc.toFramed
  · intro hb hw hd
    obtain ⟨hp, -, rfl⟩ := (turn_of_blockTurn ht).of_done hb hd
    have hcount := (hs.blk.inLoop (.inl hp)).count
    simp only [WithinWork, hp] at hw
    change s.blk.bitsConsumed ≤ 14 * s.blk.us
    omega

end Sys2Proof.Machine
end

section
/-! PROOF. Every decode ends: a turn always goes on, and a measure falls with every turn of a running
decode (42_token_decode.md R176). -/

namespace Sys2Proof.Machine

/-! ## Every turn goes on -/

/-- Of all instructions only START can be refused. -/
theorem exec_next_of_position {i : Instr} (h : i.position ≠ .command) (s : State) :
    ∃ t, exec i s = .next t := by
  cases i with
  | bref d =>
    by_cases hr : s.blk.top < s.blk.brIdxOf d
    · exact ⟨_, execBref_of_lt hr⟩
    · exact ⟨_, execBref_of_not_lt hr⟩
  | start => exact absurd rfl h
  | _ => exact ⟨_, rfl⟩

theorem blockTurn_next (s : State) : ∃ t, blockTurn s = .next t := by
  cases hp : s.blk.phase with
  | busy sub =>
    cases sub with
    | token =>
      by_cases hlt : s.blk.bytesOut.toNat < s.blk.us
      · rw [blockTurn_token hp hlt]
        rcases fetchToken_cases s with ⟨i, c, hf, hread⟩ | ⟨t, hf, -⟩
        · rw [hf]
          exact exec_next_of_position (by rw [hread.position]; decide) _
        · rw [hf]
          exact ⟨t, rfl⟩
      · exact ⟨_, blockTurn_complete hp (Nat.le_of_not_lt hlt)⟩
    | bref =>
      rw [blockTurn_bref hp]
      rcases fetchLength_cases s with ⟨i, x, hf, hread⟩ | ⟨t, hf, -⟩
      · rw [hf]
        exact exec_next_of_position (by rw [hread.position]; decide) _
      · rw [hf]
        exact ⟨t, rfl⟩
    | _ => simp only [blockTurn, hp]; exact ⟨_, rfl⟩
  | _ => simp only [blockTurn, hp]; exact ⟨_, rfl⟩

/-! ## Turns still to come -/

/-- The bits of the payload are those consumed and those that remain (10_state.md R32). -/
theorem CursorInRange.bitsRemaining_add_bitsConsumed {b : Block} (h : CursorInRange b) :
    b.bitsRemaining + b.bitsConsumed = 8 * b.hb := by
  obtain ⟨hge, hle, hfetched⟩ := h
  unfold Block.bitsRemaining Block.bitsConsumed Block.payloadStart Block.payloadEnd at *
  omega

/-- A bound on the turns a running decode still takes: every turn of the loop but the last produces a byte
or consumes a bit, and before the loop at most 2^32 - 1 bytes and 8·L bits are to come. -/
def turnsLeft (b : Block) : Sub → Nat
  | .pre => 2 ^ 32 + 8 * b.segSize + 262
  | .sig => 2 ^ 32 + 8 * b.segSize + 261
  | .sizes => 2 ^ 32 + 8 * b.segSize + 260
  | .frame => 2 ^ 32 + 8 * b.segSize + 259
  | .alloc => 2 ^ 32 + 8 * b.segSize + 258
  | .hdr i => 2 ^ 32 + 8 * b.segSize + 257 - i.val
  | .init => 2 ^ 32 + 8 * b.segSize + 1
  | .token => b.remaining + b.bitsRemaining + 1
  | .bref => b.remaining + b.bitsRemaining + 1
  | .copy => b.remaining + b.bitsRemaining + 1

/-- No instruction is decoded from nothing. -/
theorem width_pos (i : Instr) : 0 < i.width := by
  cases i with
  | tail k g => simp only [Instr.width]; omega
  | _ => exact Nat.succ_pos _

/-- In the loop no more bytes and bits are left than the sizes give. -/
theorem InLoop.left_lt {c : Config} {b : Block} (h : InLoop c b) :
    b.remaining + b.bitsRemaining < 2 ^ 32 + 8 * b.segSize := by
  have hbits := h.cursor.bitsRemaining_add_bitsConsumed
  have hframing := h.framing
  have hus : b.us < 2 ^ 32 := b.uncompSize.isLt
  unfold Block.remaining
  omega

theorem BlockInv.turnsLeft_lt {c : Config} {b : Block} (h : BlockInv c b) {sub : Sub}
    (hp : b.phase = .busy sub) : turnsLeft b sub < 2 ^ 32 + 8 * b.segSize + 264 := by
  have loop (hl : b.inLoop) := (h.inLoop hl).left_lt
  cases sub with
  | token => have hleft := loop (.inl hp); simp only [turnsLeft]; omega
  | bref => have hleft := loop (.inr (.inl hp)); simp only [turnsLeft]; omega
  | copy => have hleft := loop (.inr (.inr hp)); simp only [turnsLeft]; omega
  | _ => simp only [turnsLeft]; omega

/-- Each header byte copied takes one of the turns left. -/
theorem turnsLeft_afterHdr (b : Block) (i : Fin 256) :
    turnsLeft b (afterHdr i) + 1 = turnsLeft b (.hdr i) := by
  rw [afterHdr_eq_hdrSub, hdrSub]
  split
  · simp only [turnsLeft]
    omega
  · simp only [turnsLeft]
    omega

/-- The bits a fetch consumed no longer remain. -/
theorem bitsRemaining_of_bitsConsumed {b b' : Block} {n : Nat} (h : CursorInRange b)
    (h' : CursorInRange b') (hb : b'.hbRelOff = b.hbRelOff)
    (hn : b'.bitsConsumed = b.bitsConsumed + n) : b'.bitsRemaining + n = b.bitsRemaining := by
  have hs := h.bitsRemaining_add_bitsConsumed
  have ht := h'.bitsRemaining_add_bitsConsumed
  rw [Block.hb, hb, ← Block.hb] at ht
  omega

theorem TokenRead.bitsRemaining {s : State} {i : Instr} {c : Cursor} (h : TokenRead s i c)
    (hr : CursorInRange s.blk) :
    (s.setCursor c).blk.bitsRemaining + i.width = s.blk.bitsRemaining := by
  obtain ⟨hr', hconsumed, -⟩ := h.forward hr
  exact bitsRemaining_of_bitsConsumed hr hr' rfl hconsumed

/-- A byte produced is one byte less to come. -/
theorem remaining_of_succ {b b' : Block} (h : b.bytesOut.toNat < b.us)
    (hu : b'.uncompSize = b.uncompSize) (hn : b'.bytesOut = b.bytesOut + 1) :
    b'.remaining + 1 = b.remaining := by
  have hsucc := bytesOut_succ h
  unfold Block.remaining Block.us at *
  rw [hu, hn]
  omega

/-- A turn that goes on leaves fewer turns to come. -/
theorem Turn.turnsLeft_lt {s t : State} (T : Turn s t) (hc : s.cfg.Legal) (h : BlockInv s.cfg s.blk)
    {sub sub' : Sub} (hp : s.blk.phase = .busy sub) (hp' : t.blk.phase = .busy sub') :
    turnsLeft t.blk sub' < turnsLeft s.blk sub := by
  have hseg : t.blk.segSize = s.blk.segSize := congrArg BitVec.toNat T.sameSetup.segLen
  have hsub := T.subInv hc h hp'
  cases T with
  | stay hn => rw [Block.isBusy, hp] at hn; cases hn
  | error | done | litError | brefError | lengthError => cases hp'
  | fetchError _ _ ht =>
    obtain ⟨c, l, e, info, _, rfl⟩ := ht.state
    cases hp'
  | pre hq | sig hq | sizes hq | frame hq | alloc hq =>
    cases hq.symm.trans hp
    cases hp'
    simp only [turnsLeft, hseg]
    omega
  | hdr i hq =>
    cases hq.symm.trans hp
    cases hp'
    exact Nat.lt_of_succ_le (turnsLeft_afterHdr s.blk i).le
  | init hq =>
    cases hq.symm.trans hp
    cases hp'
    have hleft := InLoop.left_lt hsub
    simp only [turnsLeft]
    omega
  | lit hq hlt v c _ hread =>
    cases hq.symm.trans hp
    cases hp'
    have hbits := hread.bitsRemaining (h.inLoop (.inl hq)).cursor
    have hrem : (countByte s).blk.remaining + 1 = s.blk.remaining := remaining_of_succ hlt rfl rfl
    change (countByte s).blk.remaining + (s.setCursor c).blk.bitsRemaining + 1 <
      s.blk.remaining + s.blk.bitsRemaining + 1
    omega
  | bref hq _ d c _ hread =>
    cases hq.symm.trans hp
    cases hp'
    have hbits := hread.bitsRemaining (h.inLoop (.inl hq)).cursor
    rw [Instr.width] at hbits
    change s.blk.remaining + (s.setCursor c).blk.bitsRemaining + 1 <
      s.blk.remaining + s.blk.bitsRemaining + 1
    omega
  | length hq i x _ hread =>
    cases hq.symm.trans hp
    cases hp'
    have hbits := hread.remaining
    have hrem : x.blk.remaining = s.blk.remaining := by
      obtain ⟨c, l, rfl⟩ := hread.state
      rfl
    have hwidth := width_pos i
    change x.blk.remaining + x.blk.bitsRemaining + 1 < s.blk.remaining + s.blk.bitsRemaining + 1
    omega
  | copyNone hq hl =>
    obtain ⟨-, -, -, hpos, -⟩ := h.busy _ hq
    omega
  | copy hq _ _ _ t ht =>
    cases hq.symm.trans hp
    have hrem : t.blk.remaining + 1 = s.blk.remaining :=
      remaining_of_succ (h.bytesOut_lt_of_copy hq) (by rw [ht]; rfl) (by rw [ht]; rfl)
    have hbits : t.blk.bitsRemaining = s.blk.bitsRemaining := by rw [ht]; rfl
    have hleft : t.blk.remaining + t.blk.bitsRemaining + 1 <
      s.blk.remaining + s.blk.bitsRemaining + 1 := by omega
    by_cases hend : t.blk.latches.len = 0
    · rw [if_pos hend] at hp' ⊢
      cases hp'
      exact hleft
    · rw [if_neg hend] at hp' ⊢
      have hq' : t.blk.phase = .busy .copy := by rw [ht]; exact hq
      cases hq'.symm.trans hp'
      exact hleft

/-- A running decode ends within the turns left. -/
theorem turns_end {k : Nat} {s : State} {sub : Sub} (hs : s.Inv) (hp : s.blk.phase = .busy sub)
    (hk : turnsLeft s.blk sub < k) : ∃ n t, n ≤ k ∧ turns n s = .next t ∧
      (t.blk.phase = .done ∨ t.blk.phase = .error) := by
  induction k generalizing s sub with
  | zero => exact absurd hk (Nat.not_lt_zero _)
  | succ k ih =>
    obtain ⟨t, ht⟩ := blockTurn_next s
    have hone : turns 1 s = .next t := turns_succ rfl ht
    have T := turn_of_blockTurn ht
    rcases T.ends hs.blk (by rw [Block.isBusy, hp]; rfl) with ⟨he, -⟩ | ⟨-, -, ⟨hd, -⟩ | ⟨sub', hp'⟩⟩
    · exact ⟨1, t, Nat.succ_pos k, hone, .inr he⟩
    · exact ⟨1, t, Nat.succ_pos k, hone, .inl hd⟩
    · have hlt := T.turnsLeft_lt hs.legal hs.blk hp hp'
      obtain ⟨n, u, hn, hu, hend⟩ := ih (blockTurn_inv hs ht) hp' (by omega)
      exact ⟨n + 1, u, Nat.succ_le_succ hn, by simp only [turns, ht, hu], hend⟩

/-- Settles O49: a turn always answers a next state, and `turnsLeft` falls with every turn of a running
decode. -/
theorem everyDecodeEnds : Obligations.EveryDecodeEnds := by
  refine ⟨blockTurn_next, fun s hs hb => ?_⟩
  obtain ⟨sub, hp⟩ : ∃ sub, s.blk.phase = .busy sub := by
    unfold Block.isBusy at hb
    cases hp : s.blk.phase with
    | busy sub => exact ⟨sub, rfl⟩
    | _ => rw [hp] at hb; cases hb
  exact turns_end hs hp (hs.blk.turnsLeft_lt hp)

end Sys2Proof.Machine
end

section
/-! PROOF. The length codes: the table of their forms, what a code that fits does, and the fetch of one as
the decoder on the unread bits (43_vlc_length.md R190 to R193, 44_back_copy.md R212). -/

namespace Sys2Proof.Machine

/-! ## The forms of the length code -/

/-- The length codes are the instructions that give a length. -/
theorem exists_codeLength_of_position {i : Instr} (h : i.position = .length) :
    ∃ n, codeLength i = some n := by
  cases i with
  | g2 | g3 | g5 | g8 | tail => exact ⟨_, rfl⟩
  | lit | bref | start => cases h

/-- The map from well-formed code to LEN is one to one (43_vlc_length.md R193). -/
theorem codeLength_injective {i j : Instr} (hp : i.position = .length) (hi : i.wellFormed = true)
    (hj : j.wellFormed = true) (h : codeLength i = codeLength j) : i = j := by
  obtain ⟨n, hn⟩ := exists_codeLength_of_position hp
  rw [← codeOfLength_of_codeLength hi hn, codeOfLength_of_codeLength hj (h ▸ hn)]

/-- A group that is not all ones is at most the value below (43_vlc_length.md R191). -/
theorem bne_ones_iff {w m : Nat} (hm : 2 ^ w = m + 2) (g : BitVec w) :
    (g != BitVec.ofNat w (m + 1)) = true ↔ g.toNat ≤ m := by
  have hlt := g.isLt
  have hones : (BitVec.ofNat w (m + 1)).toNat = m + 1 := ofNat_toNat_of_lt (by omega)
  rw [bne_iff_ne, ne_eq, ← BitVec.toNat_inj, hones]
  omega

/-- Settles O5: by form, the width of the encoding and the one value its last group cannot have; the
length tells the code, since `codeOfLength` undoes it. -/
theorem lengthCodeForms : Obligations.LengthCodeForms :=
  ⟨fun g => ⟨Laws.EncodedWidth.g2 g, rfl, bne_ones_iff (m := 2) rfl g⟩,
    fun g => ⟨Laws.EncodedWidth.g3 g, rfl, bne_ones_iff (m := 6) rfl g⟩,
    fun g => ⟨Laws.EncodedWidth.g5 g, rfl, bne_ones_iff (m := 30) rfl g⟩,
    fun g => ⟨Laws.EncodedWidth.g8 g, rfl, bne_ones_iff (m := 254) rfl g⟩,
    fun k g => ⟨Laws.EncodedWidth.tail k g, rfl, bne_ones_iff (m := 254) rfl g⟩,
    fun _ _ hp _ hi hj h => codeLength_injective hp hi hj h⟩

/-! ## A length code that fits -/

/-- A code whose length is at most what is still to come latches LEN and LVL, and the copy is due
(43_vlc_length.md R190, 44_back_copy.md R210, R212). -/
theorem exec_of_codeLength_le {i : Instr} {n : Nat} {s : State} (h : codeLength i = some n)
    (hle : n ≤ s.blk.remaining) : exec i s =
      .next ((s.setLatches { s.blk.latches with len := n, lvl := codeLevel i }).setPhase (.busy .copy)) := by
  rw [exec_of_codeLength h, lengthDone_of_not_lt (Nat.not_lt.2 hle)]

/-- Settles O14: each form is `exec_of_codeLength_le` at its length and level. -/
theorem lengthCodesGoOnToCopy : Obligations.LengthCodesGoOnToCopy := fun _ =>
  ⟨fun _ => exec_of_codeLength_le rfl, fun _ => exec_of_codeLength_le rfl,
    fun _ => exec_of_codeLength_le rfl, fun _ => exec_of_codeLength_le rfl,
    fun _ _ => exec_of_codeLength_le rfl⟩

/-! ## The fetch of a length code -/

/-- Part of a length code may have been read since `s`: only the cursor and the latches have changed, and
`bits` are still to be read. -/
structure ReadsSince (s x : State) (bits : List Bool) : Prop where
  reads : Reads x bits
  state : ∃ c l, x = (s.setCursor c).setLatches l

/-- The stream has ended inside a length code whose reading began at `s` (40_bit_reader.md R123). -/
def LengthUnderflow (s x : State) : Prop :=
  ∃ c l, x = raise .sourceUnderflow (s.blk.segStart + 15) ((s.setCursor c).setLatches l)

/-- A request inside a length code delivers the next unread bits, or the stream has ended. -/
theorem readBits_readsSince {s : State} (n : Nat) (x : State) (bits : List Bool)
    (h : ReadsSince s x bits) :
    Agree (ReadsSince s) (fun y _ => LengthUnderflow s y) (readBits n x) (listBits n bits) := by
  obtain ⟨⟨hs, hacc, rfl⟩, c, l, rfl⟩ := h
  rcases readBits_unreadBits n hs hacc with ⟨v, t, hr, ht, ⟨d, rfl⟩, hl⟩ | ⟨d, hr, hl⟩
  · rw [hr, hl]
    exact ⟨rfl, ⟨ht, hacc, rfl⟩, d, l, rfl⟩
  · rw [hr, hl]
    exact ⟨d, l, rfl⟩

/-- Noting a group in LEN and LVL reads no bits. -/
theorem ReadsSince.setLatches {s x : State} {bits : List Bool} (h : ReadsSince s x bits) (l : Latches) :
    ReadsSince s (x.setLatches l) bits := by
  obtain ⟨hreads, c, k, rfl⟩ := h
  exact ⟨hreads.setLatches l, c, l, rfl⟩

/-- A source that agrees with one that raised has raised too. -/
theorem agree_raised {σ τ α : Type} {R Q : σ → τ → Prop} {x : σ} {r : Res τ α}
    (h : Agree R Q (.raised x) r) : ∃ y, Q x y := by
  cases r with
  | ok a y => exact h.elim
  | raised y => exact ⟨y, h⟩

/-- On an accessible stream a length code, however long its tail, fails only for want of bits, with
OFFSET at S + 15 (40_bit_reader.md R123, 43_vlc_length.md R196). -/
theorem fetchLength_fails {s t : State} (h : CursorOnStream s) (hacc : PayloadAccessible s)
    (hf : fetchLength s = .raised t) : LengthUnderflow s t := by
  have hstart : ReadsSince s s (unreadBits s) := ⟨⟨h, hacc, rfl⟩, s.blk.cursor, s.blk.latches, rfl⟩
  have hagree : Agree (ReadsSince s) (fun y _ => LengthUnderflow s y) (fetchLength s) _ :=
    decodeLength_agree readBits_readsSince (fun _ _ _ _ hx => hx.setLatches _) s.blk.bitsRemaining
      s.blk.bitsRemaining (hstart.setLatches _) (bitsRemaining_eq_length h).ge (bitsRemaining_eq_length h).ge
  rw [hf] at hagree
  obtain ⟨-, hunderflow⟩ := agree_raised hagree
  exact hunderflow

/-- Settles O46: the turn fetches the code that the decoder reads from the unread bits, with LEN and LVL
its length and level; the decoder's want of bits is SOURCE_UNDERFLOW. -/
theorem lengthFetchFollowsTheDecoder : Obligations.LengthFetchFollowsTheDecoder := by
  intro s hi hp hc hacc
  have hstep := (step_of_inbox_nil hi).trans (blockTurn_bref hp)
  rcases fetchLength_decodeAt ⟨hc, hacc, rfl⟩ with
    ⟨i, x, rest, hf, hread, hdec, hreads⟩ | ⟨t, hf, -, hdec⟩
  · refine ⟨fun j rest' hdec' => ?_, fun r hr => (by cases hdec.symm.trans hr)⟩
    cases hdec.symm.trans hdec'
    obtain ⟨-, hconsumed, -⟩ := hread.forward hc.inRange
    obtain ⟨c, l, rfl⟩ := hread.state
    have hcursor : Reads (s.setCursor c) rest := hreads.setLatches s.blk.latches
    exact ⟨c, l, hstep.trans (runFetched_ok hf), hread.dist, hread.brIdx, hread.length, hread.level,
      hcursor.onStream, hcursor.unread, hconsumed⟩
  · refine ⟨fun j rest' hdec' => (by cases hdec.symm.trans hdec'), fun r _ => ?_⟩
    obtain ⟨c, l, rfl⟩ := fetchLength_fails hc hacc hf
    exact ⟨c, l, hstep.trans (runFetched_raised hf)⟩

end Sys2Proof.Machine
end

section
/-! PROOF. The back-reference: its range check, the overrun of a length code, one pass of the copy, and the
copy as a whole (44_back_copy.md R210 to R215). -/

namespace Sys2Proof.Machine

/-! ## The range check -/

/-- BR_IDX > TOP says that fewer bytes than DIST + 3 have been produced (44_back_copy.md R211). -/
theorem top_lt_brIdxOf_iff {b : Block} (h : b.bytesOut.toNat ≤ b.us) (d : BitVec 13) :
    b.top < b.brIdxOf d ↔ b.bytesOut.toNat < d.toNat + 3 := by
  unfold Block.brIdxOf Block.dst Block.top
  omega

/-- Settles O13: BREF is decided by BR_IDX > TOP, which is DIST + 3 > BYTES_OUT. -/
theorem brefRangeCheck : Obligations.BrefRangeCheck := by
  intro s d hle i t
  have hrange := top_lt_brIdxOf_iff hle d
  exact ⟨hrange, fun h => execBref_of_not_lt (hrange.not.2 (Nat.not_lt.2 h)),
    fun h => execBref_of_lt (hrange.2 h)⟩

/-! ## A length code that overruns -/

/-- Settles O15: the one check of every length code, beyond what is left and at it. -/
theorem overrunRefusesTheWholeToken : Obligations.OverrunRefusesTheWholeToken := by
  intro s i n hn
  refine ⟨fun hlt => ?_, fun he => exec_of_codeLength_le hn he.le⟩
  rw [exec_of_codeLength hn, lengthDone_of_lt hlt]
  rfl

/-! ## One pass of the copy -/

section
variable {s : State}

theorem copyStep_of_read_error (hl : s.blk.latches.len ≠ 0)
    (hs : accessible s.cfg (s.blk.outAddr s.blk.latches.brIdx) = false) :
    copyStep s = raise .outputAccessFailure (s.blk.outAddr s.blk.latches.brIdx) s := by
  rw [copyStep, if_neg hl, outRead, if_neg (Bool.eq_false_iff.1 hs)]
  rfl

theorem copyStep_of_write_error (hl : s.blk.latches.len ≠ 0)
    (hs : accessible s.cfg (s.blk.outAddr s.blk.latches.brIdx) = true)
    (hd : accessible s.cfg (s.blk.outAddr s.blk.dst) = false) :
    copyStep s = raise .outputAccessFailure (s.blk.outAddr s.blk.dst) s := by
  rw [copyStep, if_neg hl, outRead, if_pos hs, bind_ok, outWrite, if_neg (Bool.eq_false_iff.1 hd)]
  rfl

/-- The last byte of a copy, then the end of the token. -/
theorem copyStep_of_last (hl : s.blk.latches.len = 1)
    (hs : accessible s.cfg (s.blk.outAddr s.blk.latches.brIdx) = true)
    (hd : accessible s.cfg (s.blk.outAddr s.blk.dst) = true) : copyStep s = endToken (copied s) := by
  rw [copyStep_of_accessible (by omega) hs hd, if_pos hl]

/-- A byte of a copy with more to come. -/
theorem copyStep_of_more (hl : 1 < s.blk.latches.len)
    (hs : accessible s.cfg (s.blk.outAddr s.blk.latches.brIdx) = true)
    (hd : accessible s.cfg (s.blk.outAddr s.blk.dst) = true) : copyStep s = copied s := by
  rw [copyStep_of_accessible (by omega) hs hd, if_neg (by omega)]

end

/-- Settles O16: the read, then the write, and the first bus error of the two; LEN tells whether the token
ends. -/
theorem copyStepMovesOneByte : Obligations.CopyStepMovesOneByte := by
  intro s hm hp hpos hlt src dst
  rw [blockTurn_copy hp]
  refine ⟨fun hs hd => ⟨_, rfl, ?_⟩, fun hs => congrArg _ (copyStep_of_read_error hpos.ne' hs),
    fun hs hd => congrArg _ (copyStep_of_write_error hpos.ne' hs hd)⟩
  obtain hl | hl : s.blk.latches.len = 1 ∨ 1 < s.blk.latches.len := by omega
  · rw [copyStep_of_last hl hs hd]
    exact ⟨⟨rfl, rfl, rfl, rfl⟩, bytesOut_succ hlt, read_write hm dst _, fun _ => rfl, fun h => by omega⟩
  · rw [copyStep_of_more hl hs hd]
    exact ⟨⟨rfl, rfl, rfl, rfl⟩, bytesOut_succ hlt, read_write hm dst _, fun h => by omega, fun _ => rfl⟩

/-! ## The copy as a whole -/

theorem SameRest.trans {r s t : State} (h : SameRest r s) (h' : SameRest s t) : SameRest r t :=
  ⟨h'.cfg.trans h.cfg, h'.parked.trans h.parked, h'.inbox.trans h.inbox, h'.hostData.trans h.hostData⟩

/-- From memory `m` to `m'`: the `k` output bytes from index `d` down repeat, with period `o`, the `o`
bytes above them, and nothing else has changed (44_back_copy.md R214). -/
structure PeriodWritten (b : Block) (d o : Nat) (m : Memory) (k : Nat) (m' : Memory) : Prop where
  copied : ∀ i, i < k → m'.read (b.outAddr (d - i)) = m.read (b.outAddr (d + o - i % o))
  kept : ∀ a, (∀ i, i < k → a ≠ b.outAddr (d - i)) → m'.read a = m.read a

section
variable {b : Block} {d o k : Nat} {m m' m'' : Memory}

/-- `o` above the index written at pass `i` stands one of the `o` bytes above `d`, or what the copy wrote
there `o` passes before (44_back_copy.md R215). -/
theorem PeriodWritten.read_above (h : PeriodWritten b d o m k m') (ho : 0 < o) {i : Nat} (hi : i ≤ k)
    (hd : i ≤ d) : m'.read (b.outAddr (d + o - i)) = m.read (b.outAddr (d + o - i % o)) := by
  rcases Nat.lt_or_ge i o with hlt | hge
  · rw [Nat.mod_eq_of_lt hlt]
    exact h.kept _ fun j _ => by unfold Block.outAddr; omega
  · rw [show d + o - i = d - (i - o) by omega, h.copied _ (by omega), ← Nat.mod_eq_sub_mod hge]

/-- One pass more: the byte `o` above is put at the next index down. -/
theorem PeriodWritten.succ (h : PeriodWritten b d o m k m') (ho : 0 < o) (hk : k ≤ d)
    (hm : ∀ a, m''.read a =
      if a = b.outAddr (d - k) then m'.read (b.outAddr (d + o - k)) else m'.read a) :
    PeriodWritten b d o m (k + 1) m'' := by
  refine ⟨fun i hi => ?_, fun a hne => ?_⟩
  · obtain rfl | hik := Nat.eq_or_lt_of_le (Nat.lt_succ_iff.1 hi)
    · rw [hm, if_pos rfl, h.read_above ho le_rfl hk]
    · rw [hm, if_neg (by unfold Block.outAddr; omega), h.copied i hik]
  · rw [hm, if_neg (hne k k.lt_succ_self)]
    exact h.kept a fun i hi => hne i (by omega)

end

/-- From `s`, at the start of a copy, to `t`: `k` bytes are copied, and after the last of them the token
has ended. -/
structure CopyPassed (s : State) (k : Nat) (t : State) : Prop where
  blk : t.blk = { s.blk with
    bytesOut := t.blk.bytesOut
    phase := .busy (if k < s.blk.latches.len then .copy else .token)
    latches := t.blk.latches }
  count : t.blk.bytesOut.toNat = s.blk.bytesOut.toNat + k
  brIdx : k < s.blk.latches.len → t.blk.latches.brIdx = s.blk.latches.brIdx - k
  len : k < s.blk.latches.len → t.blk.latches.len = s.blk.latches.len - k
  rest : SameRest s t
  wf : t.mem.wf
  written : PeriodWritten s.blk s.blk.dst (s.blk.latches.dist.toNat + 3) s.mem k t.mem

section
variable {s t : State} {k : Nat}

theorem CopyPassed.us (h : CopyPassed s k t) : t.blk.us = s.blk.us := by
  rw [h.blk]
  rfl

theorem CopyPassed.outAddr (h : CopyPassed s k t) (i : Nat) : t.blk.outAddr i = s.blk.outAddr i := by
  rw [h.blk]
  rfl

theorem CopyPassed.top (h : CopyPassed s k t) : t.blk.top = s.blk.top := by
  rw [Block.top, h.us, Block.top]

/-- A copy that has begun has all its bytes between Out[0x100] and dst (44_back_copy.md R212). -/
theorem BlockInv.len_le_dst {c : Config} {b : Block} (h : BlockInv c b) (hp : b.phase = .busy .copy) :
    b.latches.len ≤ b.dst := by
  obtain ⟨-, -, -, -, hlen⟩ := h.busy _ hp
  unfold Block.remaining at hlen
  unfold Block.dst Block.top
  omega

/-- Each pass writes one index below the pass before. -/
theorem CopyPassed.dst_eq (h : CopyPassed s k t) : t.blk.dst = s.blk.dst - k := by
  rw [Block.dst, h.top, h.count, Block.dst, Nat.sub_sub]

/-- Each pass reads DIST + 3 above where it writes (44_back_copy.md R215). -/
theorem CopyPassed.brIdx_eq (h : CopyPassed s k t) (hb : BlockInv s.cfg s.blk)
    (hp : s.blk.phase = .busy .copy) (hk : k < s.blk.latches.len) :
    t.blk.latches.brIdx = s.blk.dst + (s.blk.latches.dist.toNat + 3) - k := by
  obtain ⟨-, hidx, -⟩ := hb.busy _ hp
  rw [h.brIdx hk, hidx, Block.brIdxOf, Nat.add_assoc]

/-- One pass copies one byte more. -/
theorem CopyPassed.turn (h : CopyPassed s k t) (hb : BlockInv s.cfg s.blk) (hp : s.blk.phase = .busy .copy)
    (hacc : OutputAccessible s) (hk : k < s.blk.latches.len) :
    ∃ u, blockTurn t = .next u ∧ CopyPassed s (k + 1) u := by
  obtain ⟨-, -, htop, -, hleft⟩ := hb.busy _ hp
  have hdst := hb.len_le_dst hp
  have hus : t.blk.bytesOut.toNat < t.blk.us := by
    rw [h.count, h.us]
    unfold Block.remaining at hleft
    omega
  have hphase : t.blk.phase = .busy .copy := by rw [h.blk, if_pos hk]
  have hlen := h.len hk
  have haccessible {i : Nat} (hi : i ≤ s.blk.top) : accessible t.cfg (t.blk.outAddr i) = true := by
    rw [h.rest.cfg, h.outAddr]
    exact hacc i (by unfold Block.top at hi; unfold Block.outSize; omega)
  obtain ⟨hpass, -⟩ := copyStepMovesOneByte t h.wf hphase (by omega) hus
  obtain ⟨u, hu, hrest, hcount, hmem, hlast, hmore⟩ := hpass
    (haccessible (by rw [h.brIdx hk]; omega)) (haccessible (by rw [h.top]; omega))
  rw [← Block.dst, h.dst_eq, h.brIdx_eq hb hp hk, h.outAddr, h.outAddr] at hmem
  have hwritten := h.written.succ (by omega) (by omega) hmem
  have hwf := (turn_of_blockTurn hu).wf h.wf
  rw [h.count, Nat.add_assoc] at hcount
  refine ⟨u, hu, ?_⟩
  obtain he | hlt : k + 1 = s.blk.latches.len ∨ k + 1 < s.blk.latches.len := by omega
  · have hblk := hlast (by omega)
    refine ⟨?_, hcount, fun hlt => by omega, fun hlt => by omega, h.rest.trans hrest, hwf, hwritten⟩
    rw [if_neg (by omega), hblk, h.blk]
  · have hblk := hmore (by omega)
    refine ⟨?_, hcount, fun _ => ?_, fun _ => ?_, h.rest.trans hrest, hwf, hwritten⟩
    · rw [if_pos hlt, hblk, h.blk, if_pos hk]
    · rw [hblk, h.brIdx hk, Nat.sub_sub]
    · rw [hblk, hlen, Nat.sub_sub]

/-- The passes of a copy, one after the other. -/
theorem turns_copyPassed (hs : s.Inv) (hp : s.blk.phase = .busy .copy) (hacc : OutputAccessible s) (k : Nat)
    (hk : k ≤ s.blk.latches.len) : ∃ t, turns k s = .next t ∧ CopyPassed s k t := by
  induction k with
  | zero =>
    obtain ⟨-, -, -, hpos, -⟩ := hs.blk.busy _ hp
    exact ⟨s, rfl, by rw [if_pos hpos, ← hp], rfl, fun _ => rfl, fun _ => rfl, ⟨rfl, rfl, rfl, rfl⟩, hs.mem,
      fun i hi => by omega, fun _ _ => rfl⟩
  | succ k ih =>
    obtain ⟨t, ht, h⟩ := ih (by omega)
    obtain ⟨u, hu, h'⟩ := h.turn hs.blk hp hacc hk
    exact ⟨u, turns_succ ht hu, h'⟩

/-- The k-th byte in production order is Out[TOP - k] (42_token_decode.md R173). -/
theorem produced_getD (hk : k < s.blk.bytesOut.toNat) :
    (produced s).getD k 0 = s.mem.read (s.blk.outAddr (s.blk.top - k)) := by
  rw [produced, List.getD_eq_getElem _ _ (by simpa using hk), List.getElem_map, List.getElem_range]

/-- In production order a byte of the copy is the one DIST + 3 before it (44_back_copy.md R214). -/
theorem CopyPassed.produced_repeats (h : CopyPassed s k t) (hb : BlockInv s.cfg s.blk)
    (hp : s.blk.phase = .busy .copy) (hk : k ≤ s.blk.latches.len) {i : Nat} (hi : i < k) :
    (produced t).getD (s.blk.bytesOut.toNat + i) 0 =
      (produced t).getD (s.blk.bytesOut.toNat + i - (s.blk.latches.dist.toNat + 3)) 0 := by
  obtain ⟨hloop, hidx, htop, -, -⟩ := hb.busy _ hp
  have hdst := hb.len_le_dst hp
  have hrange := (top_lt_brIdxOf_iff hloop.count s.blk.latches.dist).not.1 (by omega)
  have hcount := h.count
  rw [produced_getD (by omega), produced_getD (by omega), h.outAddr, h.outAddr, h.top, ← Nat.sub_sub,
    ← Block.dst, h.written.copied i hi, ← h.written.read_above (by omega) hi.le (by omega)]
  congr 2
  unfold Block.dst at *
  omega

end

/-- Settles O17: LEN passes, each of which copies one byte more. -/
theorem copyRepeatsWithItsOffset : Obligations.CopyRepeatsWithItsOffset := by
  intro s hs hp hacc n d o
  obtain ⟨t, ht, h⟩ := turns_copyPassed hs hp hacc n le_rfl
  have hblk := h.blk
  rw [if_neg (lt_irrefl n)] at hblk
  exact ⟨t, ht, h.written.copied, h.written.kept, h.count, hblk, h.rest,
    fun _ hi => h.produced_repeats hs.blk hp le_rfl hi⟩

end Sys2Proof.Machine
end

section
/-! PROOF. Errors: how a turn enters ERROR, which phase and which token can raise which error, and that the
waiting phases hold their state (60_exceptions.md R230 to R247). -/

namespace Sys2Proof.Machine

/-- Settles O31: the two columns of the table, read off. -/
theorem errorNumbersAndKinds : Obligations.ErrorNumbersAndKinds := rfl

/-! ## What a turn that ends in ERROR has done -/

/-- The errors a turn of a running decode can end in (60_exceptions.md R231): those of its phase, and in
the token loop those of the bit reader and of the instruction that was read. -/
def Phase.canEndIn (p : Phase) (e : ErrCode) : Prop :=
  p.canRaise e ∨
  (p = .busy .token ∧
    e ∈ [ErrCode.sourceUnderflow, .sourceReadFailure, .outputAccessFailure, .backrefOutOfRange]) ∨
  (p = .busy .bref ∧ e ∈ [ErrCode.sourceUnderflow, .sourceReadFailure, .outputOverrun])

theorem Phase.canEndIn_ne_noError {p : Phase} {e : ErrCode} (h : p.canEndIn e) : e ≠ .noError := by
  rcases h with h | ⟨-, h⟩ | ⟨-, h⟩
  · exact Phase.canRaise_ne_noError h
  · rintro rfl
    exact absurd h (by decide)
  · rintro rfl
    exact absurd h (by decide)

/-- Where no bits are read the errors are the phase's own. -/
theorem Phase.canRaise_of_canEndIn {p : Phase} {e : ErrCode} (h : p.canEndIn e) (ht : p ≠ .busy .token)
    (hb : p ≠ .busy .bref) : p.canRaise e := by
  rcases h with h | ⟨hp, -⟩ | ⟨hp, -⟩
  · exact h
  · exact absurd hp ht
  · exact absurd hp hb

/-- No phase raises by itself what only a token can (60_exceptions.md R231). -/
theorem Phase.mem_of_canRaise {p : Phase} {e : ErrCode} (h : p.canRaise e) :
    e ∈ [ErrCode.badSignature, .framingMismatch, .allocationFailure, .sourceReadFailure,
      .outputAliasesSource, .outputAccessFailure] := by
  cases p with
  | busy sub =>
    cases sub with
    | pre | sig | alloc | hdr => rcases h with rfl | rfl <;> decide
    | sizes | frame | copy => cases h; decide
    | init | token | bref => exact h.elim
  | _ => exact h.elim

/-- A turn of a running decode that ends in ERROR is one error entry over the cursor and the latches, with
an error of its phase (60_exceptions.md R236, R238). -/
theorem Turn.raised {s t : State} (T : Turn s t) (hb : s.blk.isBusy = true) (he : t.blk.phase = .error) :
    ∃ e info c l, s.blk.phase.canEndIn e ∧ t = raise e info ((s.setCursor c).setLatches l) := by
  cases T with
  | stay hn => rw [hn] at hb; cases hb
  | error e info hr => exact ⟨e, info, s.blk.cursor, s.blk.latches, .inl hr, rfl⟩
  | fetchError hp _ ht =>
    obtain ⟨c, l, e, info, hreader, rfl⟩ := ht.state
    refine ⟨e, info, c, l, .inr (hp.imp (⟨·, ?_⟩) (⟨·, ?_⟩)), rfl⟩ <;>
      rcases hreader with rfl | rfl <;> decide
  | litError hp _ _ c =>
    exact ⟨_, _, c, s.blk.latches, .inr (.inl ⟨hp, by decide⟩), rfl⟩
  | brefError hp _ _ c => exact ⟨_, _, c, _, .inr (.inl ⟨hp, by decide⟩), rfl⟩
  | lengthError hp _ _ _ hx =>
    obtain ⟨c, l, rfl⟩ := hx.state
    exact ⟨_, _, c, l, .inr (.inr ⟨hp, by decide⟩), rfl⟩
  | copy hp _ _ _ t ht =>
    subst ht
    split at he
    · cases he
    · cases hp.symm.trans he
  | _ => cases he

/-- Settles O30: the error entry is `raise`, and a turn that ends in ERROR is one over the cursor and the
latches. -/
theorem errorEntryKeepsTheRest : Obligations.ErrorEntryKeepsTheRest := by
  refine ⟨fun e info s => ⟨rfl, BitVec.toNat_ofNat info 64⟩, fun s t hb h he => ?_⟩
  obtain ⟨e, info, c, l, hcode, rfl⟩ := (turn_of_blockTurn h).raised hb he
  exact ⟨rfl, ⟨rfl, rfl, rfl, rfl⟩, Phase.canEndIn_ne_noError hcode, rfl⟩

/-! ## Which instruction raises which error -/

theorem ReaderError.errCode_mem {s t : State} (h : ReaderError s t) :
    t.blk.errCode ∈ [ErrCode.sourceUnderflow, .sourceReadFailure] := by
  obtain ⟨c, e, rfl | rfl, rfl⟩ := h
  · exact List.mem_cons_self
  · exact List.mem_cons_of_mem _ List.mem_cons_self

theorem fetchToken_raised_frame {s t : State} (h : fetchToken s = .raised t) : ReaderError s t := by
  rcases fetchToken_cases s with ⟨i, c, hf, -⟩ | ⟨u, hf, hu⟩
  · cases hf.symm.trans h
  · cases hf.symm.trans h
    exact hu.error

/-- A length code's groups may have been noted in LEN and LVL before the error. -/
theorem fetchLength_raised_frame {s t : State} (h : fetchLength s = .raised t) :
    ∃ l, ReaderError (s.setLatches l) t := by
  rcases fetchLength_cases s with ⟨i, x, hf, -⟩ | ⟨u, hf, l, -, -, herror, -⟩
  · cases hf.symm.trans h
  · cases hf.symm.trans h
    exact ⟨l, herror⟩

section
variable {s t : State}

theorem execLit_errCode {v : BitVec 8} (h : exec (.lit v) s = .next t) (he : t.blk.phase = .error) :
    t.blk.errCode = .outputAccessFailure := by
  cases hd : accessible s.cfg (s.blk.outAddr s.blk.dst) with
  | true =>
    cases (exec_lit_of_accessible hd v).symm.trans h
    cases he
  | false =>
    cases (exec_lit_of_not_accessible hd v).symm.trans h
    rfl

theorem execBref_errCode {d : BitVec 13} (h : exec (.bref d) s = .next t) (he : t.blk.phase = .error) :
    t.blk.errCode = .backrefOutOfRange := by
  by_cases hr : s.blk.top < s.blk.brIdxOf d
  · cases (execBref_of_lt hr).symm.trans h
    rfl
  · cases (execBref_of_not_lt hr).symm.trans h
    cases he

theorem execLength_errCode {i : Instr} (hi : i.position = .length) (h : exec i s = .next t)
    (he : t.blk.phase = .error) : t.blk.errCode = .outputOverrun := by
  obtain ⟨n, hn⟩ := exists_codeLength_of_position hi
  by_cases hlt : s.blk.remaining < n
  · rw [exec_of_codeLength hn, lengthDone_of_lt hlt] at h
    cases h
    rfl
  · rw [exec_of_codeLength_le hn (Nat.le_of_not_lt hlt)] at h
    cases h
    cases he

/-- A turn that reads no bits ends in an error of its phase. -/
theorem blockTurn_errCode (hb : s.blk.isBusy = true) (ht : s.blk.phase ≠ .busy .token)
    (hbref : s.blk.phase ≠ .busy .bref) (h : blockTurn s = .next t) (he : t.blk.phase = .error) :
    s.blk.phase.canRaise t.blk.errCode := by
  obtain ⟨e, info, c, l, hcode, rfl⟩ := (turn_of_blockTurn h).raised hb he
  exact Phase.canRaise_of_canEndIn hcode ht hbref

theorem blockTurn_copy_errCode (hp : s.blk.phase = .busy .copy) (h : blockTurn s = .next t)
    (he : t.blk.phase = .error) : t.blk.errCode = .outputAccessFailure := by
  have hcode : s.blk.phase.canRaise t.blk.errCode :=
    blockTurn_errCode (by rw [Block.isBusy, hp]; rfl) (by simp [hp]) (by simp [hp]) h he
  rwa [hp] at hcode

end

/-- Settles O32: the reader's two errors, the one check of each instruction, and the errors of each phase
outside the token loop. -/
theorem whichTokenRaisesWhich : Obligations.WhichTokenRaisesWhich := by
  refine ⟨fun s t h => (readBits_raised_frame h).errCode_mem,
    fun s t h => (fetchToken_raised_frame h).errCode_mem, fun s t h => ?_,
    fun v s t => execLit_errCode, fun d s t => execBref_errCode, fun i s t => execLength_errCode,
    fun s t => blockTurn_copy_errCode,
    fun s t hb ht hbref _ h he => Phase.mem_of_canRaise (blockTurn_errCode hb ht hbref h he)⟩
  obtain ⟨l, herror⟩ := fetchLength_raised_frame h
  exact herror.errCode_mem

/-! ## The waiting phases -/

theorem isBusy_of_waiting {b : Block} (h : b.phase = .idle ∨ b.phase = .done ∨ b.phase = .error) :
    b.isBusy = false := by
  rcases h with h | h | h <;> rw [Block.isBusy, h] <;> rfl

theorem blockTurn_of_not_isBusy {s : State} (h : s.blk.isBusy = false) : blockTurn s = .next s := by
  obtain ⟨t, ht⟩ := blockTurn_next s
  rw [ht, (turn_of_blockTurn ht).eq_of_not_busy h]

/-- Of an instance nothing but the four configuration registers has changed (10_state.md R28). -/
def SameButConfig (b b' : Block) : Prop :=
  b' = { b with
    srcBase := b'.srcBase, segLen := b'.segLen, dstBase := b'.dstBase, dstCap := b'.dstCap }

theorem SameButConfig.refl (b : Block) : SameButConfig b b := rfl

theorem configWrite_sameButConfig {b : Block} {s : State} (h : SameButConfig s.blk b) :
    SameButConfig s.blk (configWrite b s).blk := by
  unfold configWrite
  split
  · exact .refl _
  · exact h

theorem slotNumber_eq_ctrl {k : Nat} (h : slotNumber k = .ctrl) : k = 0 := by
  cases k with
  | zero => rfl
  | succ k =>
    unfold slotNumber at h
    split at h <;> simp_all -- every other slot is no CTRL

/-- CTRL is at REG_BASE and nowhere else (10_state.md R23). -/
theorem eq_regBase_of_slotAt_eq_ctrl {b : Block} {addr : Nat} (h : slotAt b addr = some .ctrl) :
    addr = b.regBase := by
  unfold slotAt at h
  split at h
  · cases h
  · have hzero := slotNumber_eq_ctrl (Option.some.inj h)
    omega

/-- A slot write that is no START changes the configuration at most (10_state.md R24, R36). -/
theorem writeSlot_sameButConfig {slot : Slot} {v : Word} {s t : State}
    (hv : slot = .ctrl → v.getLsbD 0 = false) (h : writeSlot slot v s = .next t) :
    SameButConfig s.blk t.blk := by
  cases slot with
  | ctrl =>
    rw [writeSlot, decodeCommand, hv rfl] at h
    cases h
    exact .refl _
  | srcBase | segLen | dstBase | dstCap =>
    cases h
    exact configWrite_sameButConfig rfl
  | _ =>
    cases h
    exact .refl _

/-- A register write that is no START of the selected instance changes its configuration at most; one at a
parked instance does not change it at all (10_state.md R42). -/
theorem regWrite_sameButConfig {addr : Nat} {v : Word} {s t : State}
    (hv : addr = s.blk.regBase → v.getLsbD 0 = false) (h : hostEvent (.regWrite addr v) s = .next t) :
    SameButConfig s.blk t.blk := by
  rcases regAccess_cases h with ⟨slot, -, hslot, hf⟩ | ⟨k, b, slot, u, -, hb, -, -, hf, rfl⟩
  · exact writeSlot_sameButConfig (fun hctrl => hv (eq_regBase_of_slotAt_eq_ctrl (hctrl ▸ hslot))) hf
  · rw [selectInstance_of_frame hb (writeSlot_frame hf)]
    exact .refl _

/-- Settles O33: at rest a turn is the identity, and of the other events a register write alone changes the
selected instance. -/
theorem waitingPhasesHold : Obligations.WaitingPhasesHold := by
  intro s hp
  have hturn := blockTurn_of_not_isBusy (isBusy_of_waiting hp)
  refine ⟨fun hi => (step_of_inbox_nil hi).trans hturn, fun t e h hstart hreset hselect => ?_⟩
  change SameButConfig s.blk t.blk
  cases e with
  | turn =>
    cases hturn.symm.trans h
    exact .refl _
  | regWrite addr v =>
    refine regWrite_sameButConfig (fun ha => Bool.eq_false_iff.2 fun hv => ?_) h
    exact hstart v hv (by rw [ha])
  | regRead addr =>
    obtain ⟨v, n, rfl⟩ := regRead_eq h
    exact .refl _
  | memWrite a v =>
    rcases hostMemWrite_cases a v s with e | e | e <;> cases e.symm.trans h
    exact .refl _
  | memRead a =>
    rcases hostMemRead_cases a s with e | ⟨v, n, e⟩ <;> cases e.symm.trans h
    exact .refl _
  | reset => exact absurd rfl hreset
  | select k => exact absurd rfl (hselect k)

end Sys2Proof.Machine
end

section
/-! PROOF. A reset of a running decode (70_reset_and_hazards.md R262): undoing the last writes gives their
addresses back what they held at the START, and a decode that runs on comes to any number of writes it
has not ended before. -/

namespace Sys2Proof.Machine

/-! ## Fewer writes than made: undoing -/

/-- What an undone write's address holds is what it held at the START, however often it was written. -/
theorem undoWrites_read_undone {b : Block} {m : Memory} (hm : m.wf) {w n k : Nat}
    (hge : w - n ≤ k) (hlt : k < w) :
    (undoWrites b m w n).read (b.outAddr (writeIndex b k)) =
      b.before.read (b.outAddr (writeIndex b k)) := by
  induction n with
  | zero => omega
  | succ n ih =>
    rw [undoWrites, read_write (undoWrites_wf b w n hm)]
    split
    · rename_i ha
      rw [ha]
    · rename_i ha
      have hne : k ≠ w - (n + 1) := by
        rintro rfl
        exact ha rfl
      exact ih (by omega)

/-- An address of no undone write keeps its byte. -/
theorem undoWrites_read_kept {b : Block} {m : Memory} (hm : m.wf) {w n : Nat} (hn : n ≤ w) {a : Nat}
    (ha : ∀ k, w - n ≤ k → k < w → a ≠ b.outAddr (writeIndex b k)) :
    (undoWrites b m w n).read a = m.read a := by
  induction n with
  | zero => rfl
  | succ n ih =>
    have hne : a ≠ b.outAddr (writeIndex b (w - (n + 1))) := ha _ le_rfl (by omega)
    rw [undoWrites, read_write_other (undoWrites_wf b w n hm) _ hne,
      ih (by omega) fun k hge => ha k (by omega)]

/-! ## More writes than made: running on -/

theorem exists_busy_of_isBusy {b : Block} (h : b.isBusy = true) : ∃ sub, b.phase = .busy sub := by
  unfold Block.isBusy at h
  cases hp : b.phase with
  | busy sub => exact ⟨sub, rfl⟩
  | _ => rw [hp] at h; cases h

/-- How many turns a running decode takes at most up to and with its next write, unless it ends before
(log 10): a back-reference takes three for its first byte, and INIT precedes the first token. -/
def turnsToWrite : Sub → Nat
  | .pre => 6
  | .sig => 5
  | .sizes => 4
  | .frame => 3
  | .alloc => 2
  | .hdr _ => 1
  | .init => 4
  | .token => 3
  | .bref => 2
  | .copy => 1

theorem turnsToWrite_pos (sub : Sub) : 0 < turnsToWrite sub := by
  cases sub <;> exact Nat.succ_pos _

theorem turnsToWrite_le (sub : Sub) : turnsToWrite sub ≤ 6 := by
  cases sub <;> simp [turnsToWrite]

theorem turnsToWrite_afterHdr (i : Fin 256) : turnsToWrite (afterHdr i) ≤ 4 := by
  unfold afterHdr
  split <;> simp [turnsToWrite]

/-- In the token loop the header's writes and one for each payload byte are made (20_memory.md R71). -/
theorem writesMade_of_inLoop {b : Block} (h : b.inLoop) : writesMade b = 0x100 + b.bytesOut.toNat := by
  rcases h with h | h | h <;> simp only [writesMade, h]

theorem writesMade_afterHdr {b : Block} {i : Fin 256} (h : b.phase = .busy (afterHdr i)) :
    writesMade b = i.val + 1 := by
  rw [afterHdr_eq_hdrSub, hdrSub] at h
  split at h
  · simp only [writesMade, h]
  · simp only [writesMade, h]
    omega

/-- A byte produced in the loop is one more write. -/
theorem writesMade_succ {b b' : Block} (h : b.inLoop) (h' : b'.inLoop) (hlt : b.bytesOut.toNat < b.us)
    (hn : b'.bytesOut = b.bytesOut + 1) : writesMade b' = writesMade b + 1 := by
  rw [writesMade_of_inLoop h, writesMade_of_inLoop h', hn, bytesOut_succ hlt, Nat.add_assoc]

/-- A turn that goes on writes nothing and brings the next write nearer, or makes one write, from which
it is at most four turns to the next. -/
theorem Turn.writes {s t : State} (T : Turn s t) (h : BlockInv s.cfg s.blk) {sub sub' : Sub}
    (hp : s.blk.phase = .busy sub) (hp' : t.blk.phase = .busy sub') :
    (writesMade t.blk = writesMade s.blk ∧ turnsToWrite sub' < turnsToWrite sub) ∨
      (writesMade t.blk = writesMade s.blk + 1 ∧ turnsToWrite sub' ≤ 4) := by
  cases T with
  | stay hn => rw [Block.isBusy, hp] at hn; cases hn
  | error | done | litError | brefError | lengthError => cases hp'
  | fetchError _ _ ht =>
    obtain ⟨c, l, e, info, _, rfl⟩ := ht.state
    cases hp'
  | pre hq | sig hq | sizes hq | frame hq | alloc hq =>
    cases hq.symm.trans hp
    cases hp'
    have hnone : writesMade s.blk = 0 := by simp only [writesMade, hq]
    exact .inl ⟨hnone.symm, Nat.lt_succ_self _⟩
  | hdr i hq =>
    cases hp'
    have hi : writesMade s.blk = i.val := by simp only [writesMade, hq]
    exact .inr ⟨by rw [writesMade_afterHdr (i := i) rfl, hi], turnsToWrite_afterHdr i⟩
  | init hq =>
    cases hq.symm.trans hp
    cases hp'
    have hheader : writesMade s.blk = 0x100 := by simp only [writesMade, hq]
    exact .inl ⟨hheader.symm, Nat.lt_succ_self _⟩
  | lit hq hlt =>
    cases hp'
    exact .inr ⟨writesMade_succ (.inl hq) (.inl rfl) hlt rfl, Nat.le_succ 3⟩
  | bref hq =>
    cases hq.symm.trans hp
    cases hp'
    exact .inl ⟨(writesMade_of_inLoop (.inl hq)).symm, Nat.lt_succ_self _⟩
  | length hq i x _ hread =>
    cases hq.symm.trans hp
    cases hp'
    obtain ⟨c, l, rfl⟩ := hread.state
    exact .inl ⟨(writesMade_of_inLoop (.inr (.inl hq))).symm, Nat.lt_succ_self _⟩
  | copyNone hq hl =>
    obtain ⟨-, -, -, hpos, -⟩ := h.busy _ hq
    omega
  | copy hq _ _ _ t ht =>
    have hl : s.blk.inLoop := .inr (.inr hq)
    have hlt := h.bytesOut_lt_of_copy hq
    subst ht
    split at hp'
    · cases hp'
      rw [if_pos ‹_›]
      exact .inr ⟨writesMade_succ hl (.inl rfl) hlt rfl, Nat.le_succ 3⟩
    · cases hq.symm.trans hp'
      rw [if_neg ‹_›]
      exact .inr ⟨writesMade_succ hl (.inr (.inr hq)) hlt rfl, by decide⟩

theorem runWrites_of_turn {s t : State} {target : Nat} (hb : s.blk.isBusy = true)
    (hlt : writesMade s.blk < target) (ht : blockTurn s = .next t) (fuel : Nat) :
    runWrites (fuel + 1) target s = runWrites fuel target t := by
  simp only [runWrites, hb, hlt, ht, decide_true, Bool.and_self, if_true]

theorem runWrites_of_reached {s : State} {target : Nat} (h : target ≤ writesMade s.blk) (fuel : Nat) :
    runWrites fuel target s = s := by
  cases fuel with
  | zero => rfl
  | succ fuel => simp [runWrites, Nat.not_lt.2 h]

theorem runWrites_of_not_isBusy {s : State} (h : s.blk.isBusy = false) (fuel target : Nat) :
    runWrites fuel target s = s := by
  cases fuel with
  | zero => rfl
  | succ fuel => simp [runWrites, h]

/-- Running on is taking turns. -/
theorem exists_turns_runWrites (fuel target : Nat) (s : State) :
    ∃ n, turns n s = .next (runWrites fuel target s) := by
  induction fuel generalizing s with
  | zero => exact ⟨0, rfl⟩
  | succ fuel ih =>
    unfold runWrites
    split
    · split
      · rename_i t ht
        obtain ⟨n, hn⟩ := ih t
        exact ⟨n + 1, by simp only [turns, ht, hn]⟩
      · exact ⟨0, rfl⟩
      · exact ⟨0, rfl⟩
    · exact ⟨0, rfl⟩

/-- With four turns for each write to come and those up to the next one, a decode makes all the writes asked
for, unless it ends before. -/
theorem runWrites_ends {fuel target : Nat} {s : State} {sub : Sub} (hs : s.Inv)
    (hp : s.blk.phase = .busy sub) (hle : writesMade s.blk ≤ target)
    (hfuel : 4 * target + turnsToWrite sub ≤ 4 * writesMade s.blk + fuel) :
    (writesMade (runWrites fuel target s).blk = target ∧ (runWrites fuel target s).blk.isBusy = true) ∨
      (runWrites fuel target s).blk.isBusy = false := by
  have hb : s.blk.isBusy = true := by rw [Block.isBusy, hp]; rfl
  induction fuel generalizing s sub with
  | zero =>
    have hpos := turnsToWrite_pos sub
    omega
  | succ fuel ih =>
    rcases hle.eq_or_lt with heq | hlt
    · rw [runWrites_of_reached heq.ge]
      exact .inl ⟨heq, hb⟩
    · obtain ⟨t, ht⟩ := blockTurn_next s
      have T := turn_of_blockTurn ht
      rw [runWrites_of_turn hb hlt ht]
      cases hbusy : t.blk.isBusy with
      | false =>
        rw [runWrites_of_not_isBusy hbusy]
        exact .inr hbusy
      | true =>
        obtain ⟨sub', hp'⟩ := exists_busy_of_isBusy hbusy
        have hinv := blockTurn_inv hs ht
        rcases T.writes hs.blk hp hp' with ⟨hw, hnear⟩ | ⟨hw, hnear⟩
        · exact ih hinv hp' (by omega) (by omega) hbusy
        · have hpos := turnsToWrite_pos sub
          exact ih hinv hp' (by omega) (by omega) hbusy

/-! ## What a reset leaves -/

theorem memAfterReset_of_le {s : State} (hb : s.blk.isBusy = true) {m : Nat}
    (h : m ≤ writesMade s.blk) : memAfterReset m s =
      undoWrites s.blk s.mem (writesMade s.blk) (writesMade s.blk - m) := by
  rw [memAfterReset, if_pos hb, if_pos h]

theorem memAfterReset_of_lt {s : State} (hb : s.blk.isBusy = true) {m : Nat}
    (h : writesMade s.blk < m) :
    memAfterReset m s = (runWrites (4 * (m - writesMade s.blk) + 16) m s).mem := by
  rw [memAfterReset, if_pos hb, if_neg (Nat.not_le.2 h)]

/-- Settles O42: up to the writes made, the later ones are undone; beyond them, `turnsToWrite` shows that
the turns `memAfterReset` takes are enough. -/
theorem resetCutsTheWrites : Obligations.ResetCutsTheWrites := by
  intro s hs hb
  refine ⟨⟨Config.freeCut s.draws, _, rfl, rfl⟩, fun m hm => ?_, fun m hm => ?_⟩
  · have hsub : writesMade s.blk - (writesMade s.blk - m) = m := Nat.sub_sub_self hm
    rw [memAfterReset_of_le hb hm]
    exact ⟨fun k hge hlt => undoWrites_read_undone hs.mem (hsub.trans_le hge) hlt,
      fun a ha => undoWrites_read_kept hs.mem (Nat.sub_le _ _) fun k hge => ha k (hsub.symm.trans_le hge)⟩
  · obtain ⟨sub, hp⟩ := exists_busy_of_isBusy hb
    obtain ⟨n, hn⟩ := exists_turns_runWrites (4 * (m - writesMade s.blk) + 16) m s
    have hwait := turnsToWrite_le sub
    exact ⟨n, _, hn, memAfterReset_of_lt hb hm, runWrites_ends hs hp hm.le (by omega)⟩

end Sys2Proof.Machine
end
